-- ==== Sys2Proof/Word.lean ====
section
/-! DEFINITION. The words of the block and the names of its four alphabet banks. -/

namespace Sys2Proof

/-- A command word, and the value of an output item on the wire (R70, R33). -/
abbrev Word := BitVec 32

/-- A byte operand or a byte item (R71, R33). -/
abbrev Byte := BitVec 8

/-- A character: `CW` = 21 bits, enough for every Unicode scalar value (R4). -/
abbrev Ch := BitVec 21

/-- The four alphabet banks, which are also the four values of `RADIX` (R27, R72). -/
inductive Bank where
  /-- code 0, the radix-32 alphabet -/
  | r32
  /-- code 1, the radix-64 alphabet -/
  | r64
  /-- code 2, the radix-85 alphabet -/
  | r85
  /-- code 3, the 6-symbol alphabet -/
  | six
  deriving DecidableEq, Repr

/-- Every bank, in the order of the codes. -/
def Bank.all : List Bank := [.r32, .r64, .r85, .six]

end Sys2Proof
end

