-- ==== Sys2Proof/Config.lean ====
section
/-! DEFINITION. The implementation parameters of the block, each at the value this hardware takes (00_scope.md R4).
The spec leaves no value free, so there is no free value here. -/

namespace Sys2Proof.Config

/-- `W`, the width in bits of `buffer`: 64 in this hardware, the one parameter a conforming block may choose
otherwise (R4, R264; log entry 8). -/
abbrev W : Nat := 64

/-- `N[b]`, the alphabet length of a bank (R4). -/
def bankLen : Bank → Nat
  | .r32 => 32
  | .r64 => 64
  | .r85 => 85
  | .six => 6

/-- `(CHW[r], BLK[r])`, the chunk width and the block length of a radix whose text is cut into chunks of `log2(N)`
bits and padded to whole blocks. R4 gives both for radix 32 and radix 64 only. -/
def blockParams : Bank → Option (Nat × Nat)
  | .r32 => some (5, 8)
  | .r64 => some (6, 4)
  | .r85 => none
  | .six => none

/-- `CHW[2]`, the chunk width of radix 85: four bytes (R4). -/
def chunk85 : Nat := 32

/-- `PAD`, the pad character U+003D (R4; the code point is the spec's own general knowledge, log entry 10). -/
def pad : Ch := 0x3D#21

/-- `MAXSCALAR` (R4). -/
def maxScalar : Nat := 0x10FFFF

/-- `SURR_LO` (R4). -/
def surrLo : Nat := 0xD800

/-- `SURR_HI` (R4). -/
def surrHi : Nat := 0xDFFF

/-- `NUMRADIX`, the base of the numeral digits (R4, conflict C1). -/
def numRadix : Nat := 5

/-- `DELIM`, the index in bank 3 of the delimiter symbol (R4). -/
def delim : Nat := 5

/-- `LENMAX`, where every `LEN` counter saturates (R4, R34). -/
def lenMax : Nat := 255

/-- The standard contents of bank 3, the six invisible characters in index order (R57). The block does not hardwire
them: a host loads them. The code points are the spec's own general knowledge (log entry 10). -/
def standardSix : List Ch := [0x200E#21, 0x200F#21, 0x200C#21, 0x200D#21, 0xFEFF#21, 0x200B#21]

end Sys2Proof.Config
end

