-- ==== Sys2Proof/Syntax.lean ====
section
/-! DEFINITION. The 25 commands, one constructor per row of spec/opcode_table.json, operands as the fields of their
format (30_encoding.md R71, R75). Every field is as wide as its run of bits, so a term carries nothing that a word
could not; which field VALUES a command's rule allows is `Instr.wellFormed` (WellFormed.lean). -/

namespace Sys2Proof

/-- A decoded command (R75). -/
inductive Instr where
  /-- 0x00 NOP, format Z (R206) -/
  | nop
  /-- 0x01 SRST, format Z (R207) -/
  | srst
  /-- 0x02 RDSTAT, format Z (R208) -/
  | rdstat
  /-- 0x03 RDERR, format Z (R209) -/
  | rderr
  /-- 0x04 RDLEN, format B (R210) -/
  | rdlen (bank : Bank)
  /-- 0x10 LUTCLR, format B (R121) -/
  | lutclr (bank : Bank)
  /-- 0x11 LUTAPP, format C (R122) -/
  | lutapp (bank : Bank) (char : Ch)
  /-- 0x12 LUTRD, format I (R123) -/
  | lutrd (bank : Bank) (index : BitVec 7)
  /-- 0x20 ACLR, format Z (R108) -/
  | aclr
  /-- 0x21 PUSHBYTE, format Y (R109) -/
  | pushbyte (byte : Byte)
  /-- 0x22 PUSHBITS, format V, operands in the order of R77 (R110) -/
  | pushbits (value : BitVec 8) (width : BitVec 4)
  /-- 0x23 EXTRACT, format L (R111) -/
  | extract (width : BitVec 6)
  /-- 0x24 FLUSH, format L (R112) -/
  | flush (width : BitVec 6)
  /-- 0x30 ENC.START, format B (R136) -/
  | encStart (bank : Bank)
  /-- 0x31 ENC.BYTE, format Y (R137) -/
  | encByte (byte : Byte)
  /-- 0x32 ENC.END, format Z (R138) -/
  | encEnd
  /-- 0x40 DEC.START, format M, operands in the order of R77 (R159) -/
  | decStart (radix : Bank) (strict : Bool)
  /-- 0x41 DEC.SYM, format S (R160) -/
  | decSym (scalar : Ch)
  /-- 0x42 DEC.END, format Z (R161) -/
  | decEnd
  /-- 0x50 NUM.START, format Z (R178) -/
  | numStart
  /-- 0x51 NUM.SCALAR, format S (R179) -/
  | numScalar (scalar : Ch)
  /-- 0x52 NUM.END, format Z (R180) -/
  | numEnd
  /-- 0x60 NUMD.START, format Z (R191) -/
  | numdStart
  /-- 0x61 NUMD.SYM, format S (R192) -/
  | numdSym (scalar : Ch)
  /-- 0x62 NUMD.END, format Z (R194) -/
  | numdEnd
  deriving DecidableEq, Repr

end Sys2Proof
end

