-- ==== Sys2Proof/Decode.lean ====
section
/-! DEFINITION. Decoding and encoding of command words (30_encoding.md R70 to R76), the opcode table of R75 with the
masks of R73, and `decodeTableWord`, the host's view of the decoder. The command port carries the 32-bit word whole, so
there is no byte order and no length to find (R70). -/

namespace Sys2Proof

/-! ### Banks (R72) -/

/-- The 2-bit code of a bank: 0 = radix 32, 1 = radix 64, 2 = radix 85, 3 = the 6-symbol alphabet (R27, R72). -/
def Bank.bits : Bank → BitVec 2
  | .r32 => 0#2
  | .r64 => 1#2
  | .r85 => 2#2
  | .six => 3#2

/-- The bank that a 2-bit code names; all four codes name one (R72). -/
def Bank.ofBits (b : BitVec 2) : Bank :=
  if b = 0#2 then .r32 else if b = 1#2 then .r64 else if b = 2#2 then .r85 else .six

/-! ### Decoding -/

/-- Why a word is no command (R76). Both make an unfaulted block raise `IllegalCommand`. -/
inductive IllegalWord where
  /-- `cmd[31:24]` is assigned to no command. -/
  | unassignedOpcode (op : BitVec 8)
  /-- The opcode is assigned and a bit its format marks `0` is 1 (R74). -/
  | nonzeroReserved (op : BitVec 8)
  deriving DecidableEq, Repr

/-- What decoding a word gives. -/
abbrev Decoded := Except IllegalWord Instr

/-- `cmd[31:24]` (R70). -/
def opcodeOf (cmd : Word) : BitVec 8 := cmd.extractLsb 31 24

/-- The command when its must-be-zero bits are zero, else the rejection of R74. -/
def whenReservedZero (cmd : Word) (zero : Bool) (i : Instr) : Decoded :=
  if zero then .ok i else .error (.nonzeroReserved (opcodeOf cmd))

/-- Format Z: `0`[23:0]. -/
def formatZ (cmd : Word) (i : Instr) : Decoded :=
  whenReservedZero cmd (cmd.extractLsb 23 0 == 0#24) i

/-- Format B: `0`[23:2], `bank`[1:0]. -/
def formatB (cmd : Word) (i : Bank → Instr) : Decoded :=
  whenReservedZero cmd (cmd.extractLsb 23 2 == 0#22) (i (Bank.ofBits (cmd.extractLsb 1 0)))

/-- Format M: `0`[23:3], `strict`[2], `radix`[1:0]. -/
def formatM (cmd : Word) (i : Bank → Bool → Instr) : Decoded :=
  whenReservedZero cmd (cmd.extractLsb 23 3 == 0#21)
    (i (Bank.ofBits (cmd.extractLsb 1 0)) (cmd.extractLsb 2 2 == 1#1))

/-- Format I: `0`[23:9], `bank`[8:7], `index`[6:0]. -/
def formatI (cmd : Word) (i : Bank → BitVec 7 → Instr) : Decoded :=
  whenReservedZero cmd (cmd.extractLsb 23 9 == 0#15)
    (i (Bank.ofBits (cmd.extractLsb 8 7)) (cmd.extractLsb 6 0))

/-- Format C: `0`[23], `bank`[22:21], `char`[20:0]. -/
def formatC (cmd : Word) (i : Bank → Ch → Instr) : Decoded :=
  whenReservedZero cmd (cmd.extractLsb 23 23 == 0#1)
    (i (Bank.ofBits (cmd.extractLsb 22 21)) (cmd.extractLsb 20 0))

/-- Format S: `0`[23:21], `scalar`[20:0]. -/
def formatS (cmd : Word) (i : Ch → Instr) : Decoded :=
  whenReservedZero cmd (cmd.extractLsb 23 21 == 0#3) (i (cmd.extractLsb 20 0))

/-- Format Y: `0`[23:8], `byte`[7:0]. -/
def formatY (cmd : Word) (i : Byte → Instr) : Decoded :=
  whenReservedZero cmd (cmd.extractLsb 23 8 == 0#16) (i (cmd.extractLsb 7 0))

/-- Format V: `0`[23:12], `width`[11:8], `value`[7:0]; the command takes `value` first (R77). -/
def formatV (cmd : Word) (i : BitVec 8 → BitVec 4 → Instr) : Decoded :=
  whenReservedZero cmd (cmd.extractLsb 23 12 == 0#12) (i (cmd.extractLsb 7 0) (cmd.extractLsb 11 8))

/-- Format L: `0`[23:6], `width`[5:0]. -/
def formatL (cmd : Word) (i : BitVec 6 → Instr) : Decoded :=
  whenReservedZero cmd (cmd.extractLsb 23 6 == 0#18) (i (cmd.extractLsb 5 0))

/-- The command a word stands for, or why it stands for none (R73, R74, R75, R76). -/
def decode (cmd : Word) : Decoded :=
  match (opcodeOf cmd).toNat with
  | 0x00 => formatZ cmd .nop
  | 0x01 => formatZ cmd .srst
  | 0x02 => formatZ cmd .rdstat
  | 0x03 => formatZ cmd .rderr
  | 0x04 => formatB cmd .rdlen
  | 0x10 => formatB cmd .lutclr
  | 0x11 => formatC cmd .lutapp
  | 0x12 => formatI cmd .lutrd
  | 0x20 => formatZ cmd .aclr
  | 0x21 => formatY cmd .pushbyte
  | 0x22 => formatV cmd .pushbits
  | 0x23 => formatL cmd .extract
  | 0x24 => formatL cmd .flush
  | 0x30 => formatB cmd .encStart
  | 0x31 => formatY cmd .encByte
  | 0x32 => formatZ cmd .encEnd
  | 0x40 => formatM cmd .decStart
  | 0x41 => formatS cmd .decSym
  | 0x42 => formatZ cmd .decEnd
  | 0x50 => formatZ cmd .numStart
  | 0x51 => formatS cmd .numScalar
  | 0x52 => formatZ cmd .numEnd
  | 0x60 => formatZ cmd .numdStart
  | 0x61 => formatS cmd .numdSym
  | 0x62 => formatZ cmd .numdEnd
  | _ => .error (.unassignedOpcode (opcodeOf cmd))

/-! ### Encoding -/

/-- A one-bit field (R72: `strict` is 1 for strict, 0 for permissive). -/
def bitOf (b : Bool) : BitVec 1 := if b then 1#1 else 0#1

/-- The word of a command, its fields laid out as R71 gives them. Every bit is fixed or a field, so the word that
raised a fault is the encoding of the command it decodes to (R74; log entry 12). -/
def encode : Instr → Word
  | .nop => 0x00#8 ++ 0#24
  | .srst => 0x01#8 ++ 0#24
  | .rdstat => 0x02#8 ++ 0#24
  | .rderr => 0x03#8 ++ 0#24
  | .rdlen b => 0x04#8 ++ 0#22 ++ b.bits
  | .lutclr b => 0x10#8 ++ 0#22 ++ b.bits
  | .lutapp b c => 0x11#8 ++ 0#1 ++ b.bits ++ c
  | .lutrd b i => 0x12#8 ++ 0#15 ++ b.bits ++ i
  | .aclr => 0x20#8 ++ 0#24
  | .pushbyte b => 0x21#8 ++ 0#16 ++ b
  | .pushbits v w => 0x22#8 ++ 0#12 ++ w ++ v
  | .extract w => 0x23#8 ++ 0#18 ++ w
  | .flush w => 0x24#8 ++ 0#18 ++ w
  | .encStart b => 0x30#8 ++ 0#22 ++ b.bits
  | .encByte b => 0x31#8 ++ 0#16 ++ b
  | .encEnd => 0x32#8 ++ 0#24
  | .decStart r strict => 0x40#8 ++ 0#21 ++ bitOf strict ++ r.bits
  | .decSym c => 0x41#8 ++ 0#3 ++ c
  | .decEnd => 0x42#8 ++ 0#24
  | .numStart => 0x50#8 ++ 0#24
  | .numScalar c => 0x51#8 ++ 0#3 ++ c
  | .numEnd => 0x52#8 ++ 0#24
  | .numdStart => 0x60#8 ++ 0#24
  | .numdSym c => 0x61#8 ++ 0#3 ++ c
  | .numdEnd => 0x62#8 ++ 0#24

/-! ### The opcode table (R73, R75) -/

/-- The mnemonic of a command, as the table of R75 spells it. -/
def Instr.mnemonic : Instr → String
  | .nop => "NOP"
  | .srst => "SRST"
  | .rdstat => "RDSTAT"
  | .rderr => "RDERR"
  | .rdlen _ => "RDLEN"
  | .lutclr _ => "LUTCLR"
  | .lutapp _ _ => "LUTAPP"
  | .lutrd _ _ => "LUTRD"
  | .aclr => "ACLR"
  | .pushbyte _ => "PUSHBYTE"
  | .pushbits _ _ => "PUSHBITS"
  | .extract _ => "EXTRACT"
  | .flush _ => "FLUSH"
  | .encStart _ => "ENC.START"
  | .encByte _ => "ENC.BYTE"
  | .encEnd => "ENC.END"
  | .decStart _ _ => "DEC.START"
  | .decSym _ => "DEC.SYM"
  | .decEnd => "DEC.END"
  | .numStart => "NUM.START"
  | .numScalar _ => "NUM.SCALAR"
  | .numEnd => "NUM.END"
  | .numdStart => "NUMD.START"
  | .numdSym _ => "NUMD.SYM"
  | .numdEnd => "NUMD.END"

/-- A row of the opcode table: a word selects it when `cmd & mask == pattern` (R73). -/
structure OpcodeRow where
  mnemonic : String
  mask : Word
  pattern : Word
  deriving DecidableEq, Repr

/-- `cmd & mask == pattern` (R73). -/
def OpcodeRow.selects (r : OpcodeRow) (cmd : Word) : Bool := (cmd &&& r.mask) == r.pattern

/-- The 25 rows: masks per format from R73, opcodes from R75. -/
def opcodeTable : List OpcodeRow := [
  ⟨"NOP", 0xFFFFFFFF#32, 0x00000000#32⟩,
  ⟨"SRST", 0xFFFFFFFF#32, 0x01000000#32⟩,
  ⟨"RDSTAT", 0xFFFFFFFF#32, 0x02000000#32⟩,
  ⟨"RDERR", 0xFFFFFFFF#32, 0x03000000#32⟩,
  ⟨"RDLEN", 0xFFFFFFFC#32, 0x04000000#32⟩,
  ⟨"LUTCLR", 0xFFFFFFFC#32, 0x10000000#32⟩,
  ⟨"LUTAPP", 0xFF800000#32, 0x11000000#32⟩,
  ⟨"LUTRD", 0xFFFFFE00#32, 0x12000000#32⟩,
  ⟨"ACLR", 0xFFFFFFFF#32, 0x20000000#32⟩,
  ⟨"PUSHBYTE", 0xFFFFFF00#32, 0x21000000#32⟩,
  ⟨"PUSHBITS", 0xFFFFF000#32, 0x22000000#32⟩,
  ⟨"EXTRACT", 0xFFFFFFC0#32, 0x23000000#32⟩,
  ⟨"FLUSH", 0xFFFFFFC0#32, 0x24000000#32⟩,
  ⟨"ENC.START", 0xFFFFFFFC#32, 0x30000000#32⟩,
  ⟨"ENC.BYTE", 0xFFFFFF00#32, 0x31000000#32⟩,
  ⟨"ENC.END", 0xFFFFFFFF#32, 0x32000000#32⟩,
  ⟨"DEC.START", 0xFFFFFFF8#32, 0x40000000#32⟩,
  ⟨"DEC.SYM", 0xFFE00000#32, 0x41000000#32⟩,
  ⟨"DEC.END", 0xFFFFFFFF#32, 0x42000000#32⟩,
  ⟨"NUM.START", 0xFFFFFFFF#32, 0x50000000#32⟩,
  ⟨"NUM.SCALAR", 0xFFE00000#32, 0x51000000#32⟩,
  ⟨"NUM.END", 0xFFFFFFFF#32, 0x52000000#32⟩,
  ⟨"NUMD.START", 0xFFFFFFFF#32, 0x60000000#32⟩,
  ⟨"NUMD.SYM", 0xFFE00000#32, 0x61000000#32⟩,
  ⟨"NUMD.END", 0xFFFFFFFF#32, 0x62000000#32⟩]

/-! ### The host's view of the decoder -/

/-- The 32-bit word whose low `nbits` bits are those of `w` and whose other bits are 0. Every command is one 32-bit
word (R70), so bits of `w` from 32 up belong to no command and are left out (log entry 13). -/
def tableWord (nbits w : Nat) : Word := BitVec.ofNat 32 (w % 2 ^ nbits)

/-- The command the decoder reads from the word numbered as spec/opcode_table.json numbers its bits. -/
def decodeTableWord (nbits w : Nat) : Option Instr :=
  match decode (tableWord nbits w) with
  | .ok i => some i
  | .error _ => none

end Sys2Proof
end

