-- ==== Sys2Proof/Machine/State.lean ====
section
/-! DEFINITION. The state of the block as plain data (10_state.md R20), the block beside its two ports, the values at
reset (R39), and the reasons a step of the model can stop. -/

namespace Sys2Proof.Machine

/-- `PHASE`, which stream is open (R26). The codes 5 to 7 never occur (log entry 9). -/
inductive Phase where
  | idle
  | enc
  | dec
  | num
  | numd
  deriving DecidableEq, Repr

/-- A fault cause, the content of `ERR` when it is not 0 (R220). The codes 10 to 15 never occur (log entry 9). -/
inductive Cause where
  | alphabetSizeMismatch
  | invalidSymbol
  | malformedLength
  | outOfRange
  | illegalCommand
  | illegalOperand
  | illegalSequence
  | accOverflow
  | accUnderdrained
  deriving DecidableEq, Repr

/-- The response to one command (R10, R221). -/
inductive Response where
  | ok
  | fault
  | refused
  deriving DecidableEq, Repr

/-- An output item: a tag and its value, each value as wide as R33 gives it before zero extension. -/
inductive Item where
  /-- `CHAR`: a character -/
  | char (c : Ch)
  /-- `INDEX`: a chunk index -/
  | index (v : Word)
  /-- `BYTE`: a byte -/
  | byte (b : Byte)
  /-- `SCALAR`: a scalar value -/
  | scalar (c : Ch)
  /-- `WORD`: a 32-bit register image -/
  | word (w : Word)
  deriving DecidableEq, Repr

/-- What the host does to the block between two commands: present a command word, or assert reset (R250, R262). -/
inductive HostInput where
  | command (w : Word)
  | reset
  deriving DecidableEq, Repr

/-- The LUT: (address, entry) pairs, addresses strictly rising. The addressable unit is one 21-bit entry (R51), so a
cell is not a byte. An address not listed holds an unwritten entry, which has no value (R35, R53; log entry 5). -/
abbrev Memory := List (Nat × Ch)

/-- The complete state of the block: exactly the components of R20, `LEN[0..3]` as four fields. Every command is a
function of this type alone (`onBlock`, Ops.lean). -/
structure Block where
  /-- the bits pushed and not yet taken, right-aligned (R21) -/
  buffer : BitVec 64
  /-- how many low-order bits of `buffer` are valid (R22) -/
  bitCount : BitVec 7
  /-- symbols counted in the current block (R29) -/
  blkCount : BitVec 3
  /-- a scalar has been encoded in this NUM stream (R30) -/
  numPend : Bool
  /-- value of the digits of the current NUMD group (R31) -/
  nval : BitVec 21
  /-- the current NUMD group has at least one digit (R31) -/
  nhave : Bool
  /-- which stream is open (R26) -/
  phase : Phase
  /-- bank and radix of the open or last stream (R27) -/
  radix : Bank
  /-- strict or permissive reverse look-up (R28) -/
  strict : Bool
  /-- the first fault since reset or SRST, `none` for the code 0 (R32) -/
  err : Option Cause
  /-- the word that raised it, 0 when there is none (R32) -/
  errcmd : Word
  /-- `LEN[0]` (R34) -/
  len32 : BitVec 8
  /-- `LEN[1]` (R34) -/
  len64 : BitVec 8
  /-- `LEN[2]` (R34) -/
  len85 : BitVec 8
  /-- `LEN[3]` (R34) -/
  len6 : BitVec 8
  /-- the four alphabets (R35) -/
  lut : Memory
  /-- everything the block has emitted since reset, oldest first (R33) -/
  out : List Item
  deriving DecidableEq, Repr

/-- The block and its two ports as the host's step function needs them: the block is `toBlock`, whose components R20
lists; the command sequence is the host's and no state of the block (R20), and neither is a response (R221), so neither
stands in `Block` (log entries 1 and 2). -/
structure State extends Block where
  /-- MODEL'S OWN, no state of the block: what the host does next, oldest first (log entry 1) -/
  input : List HostInput
  /-- MODEL'S OWN, no state of the block: the responses given since reset, oldest first (log entry 2) -/
  responses : List Response
  deriving DecidableEq, Repr

/-- Why the model stops. The block itself never stops (R259, R263): its own faults are written into `ERR` and are next
states. Each reason below stands where the spec says that something never happens, so no reachable state meets one
(safe: the model stops where the spec gives no effect). -/
inductive Fault where
  /-- A read of a LUT address that does not exist (R51). Raised by `memRead`; safe. -/
  | lutHole
  /-- A read of a LUT entry that nothing has written, which R53 says never happens. Raised by `memRead`; safe. -/
  | lutUnwritten
  /-- An accumulator function outside its precondition in a stream command, which R100 and R106 say never happens.
  Raised by `streamPush` and `streamFlush`; safe. -/
  | accPrecondition
  /-- A stream whose `RADIX` its START command refuses (3 in ENC, 2 or 3 in DEC), for which R137, R138, R160 and R161
  give no meaning. Raised by the data and END commands of the two families; safe. -/
  | radixNotOfStream
  deriving DecidableEq, Repr

/-- Why the model gives a command no meaning. -/
inductive Refusal where
  /-- The command has no meaning yet. Raised by an arm of `exec` alone; no arm does so now. Safe. -/
  | notModelled (mnemonic : String)
  deriving DecidableEq, Repr

/-- The block right after reset (R39, R250): every register and every `LEN` is 0, `out` is empty, no LUT entry is
written. -/
def Block.reset : Block where
  buffer := 0#64
  bitCount := 0#7
  blkCount := 0#3
  numPend := false
  nval := 0#21
  nhave := false
  phase := .idle
  radix := .r32
  strict := false
  err := none
  errcmd := 0#32
  len32 := 0#8
  len64 := 0#8
  len85 := 0#8
  len6 := 0#8
  lut := []
  out := []

/-- The block right after reset, nothing presented and nothing responded (log entries 1 and 2). -/
def State.reset : State where
  toBlock := Block.reset
  input := []
  responses := []

end Sys2Proof.Machine
end

