-- ==== Sys2Proof/Machine/Ops.lean ====
section
/-! DEFINITION. The named operations over the LUT, the accumulator and the output, taking a fault (R222), refusing
(R223), soft reset (R207), and the order of checks every command goes through (R234). -/

namespace Sys2Proof.Machine

/-! ### What a command body answers -/

/-- How the body of a command ends, after the checks that all commands share. -/
inductive Effect where
  /-- the command's rule was applied -/
  | done (s : Block)
  /-- the command raises a fault, none of its effects having happened -/
  | raise (c : Cause)
  /-- the spec says this never happens; the model stops -/
  | stuck (f : Fault)
  deriving DecidableEq, Repr

/-- Go on with a value that an operation gives, or stop where it stops. -/
def whenOk {α : Type} (r : Except Fault α) (k : α → Effect) : Effect :=
  match r with
  | .ok a => k a
  | .error f => .stuck f

/-- What a command answers: the new state of the block and, next to it, the response (R221); or the model stops. -/
abbrev Answer := Except Fault (Block × Response)

/-- A step's outcome in this model. -/
abbrev Result := Host.Outcome State Fault Refusal

/-- Deliver an answer at the ports: the block takes its new state and the response is given (R221). -/
def deliver (s : State) (a : Answer) : Result :=
  match a with
  | .ok (b, r) => .next { s with toBlock := b, responses := s.responses ++ [r] }
  | .error f => .fault f

/-- A command is a function of the state of the block alone: it sees neither the words still to come nor the responses
given before (R20, R221). -/
def onBlock (s : State) (command : Block → Answer) : Result := deliver s (command s.toBlock)

/-! ### Faults, refusals, soft reset -/

/-- Taking a fault (R222): `ERR` and `ERRCMD` are written, the response is `FAULT`, nothing else changes. -/
def raiseFault (c : Cause) (cmd : Word) (s : Block) : Block × Response :=
  ({ s with err := some c, errcmd := cmd }, .fault)

/-- Refusing (R223): nothing changes. -/
def refuse (s : Block) : Block × Response := (s, .refused)

/-- The block is faulted (R223); also the level a host may wire to its interrupt controller (R236). -/
def Block.faulted (s : Block) : Bool := s.err.isSome

/-- The registers that SRST clears, which is how a host returns from a fault (R207, R235): everything but `LEN`, the
LUT and `out`. -/
def softReset (s : Block) : Block :=
  { s with
    buffer := 0#64
    bitCount := 0#7
    blkCount := 0#3
    numPend := false
    nval := 0#21
    nhave := false
    phase := .idle
    radix := .r32
    strict := false
    err := none
    errcmd := 0#32 }

/-- The order of checks of R234 for a command that is not a system command: the faulted gate, the phase, then what its
body answers. `i` is the command, for `ERRCMD`; `p` the one phase it is legal in. -/
def runCommand (i : Instr) (p : Phase) (s : Block) (body : Effect) : Answer :=
  if s.faulted then .ok (refuse s)
  else if s.phase ≠ p then .ok (raiseFault .illegalSequence (encode i) s)
  else
    match body with
    | .done t => .ok (t, .ok)
    | .raise c => .ok (raiseFault c (encode i) s)
    | .stuck f => .error f

/-- A system command: legal in every phase and when faulted, and it raises nothing (R205). -/
def runSystem (t : Block) : Answer := .ok (t, .ok)

/-- A word that is no command: refused when the block is faulted, else `IllegalCommand` (R76, R229, R234). -/
def illegalWord (cmd : Word) (s : Block) : Answer :=
  .ok (if s.faulted then refuse s else raiseFault .illegalCommand cmd s)

/-! ### Output (R33) -/

/-- Append items to `out`, in order. -/
def emit (items : List Item) (s : Block) : Block := { s with out := s.out ++ items }

/-- Append characters to `out` as `CHAR` items. -/
def emitChars (cs : List Ch) (s : Block) : Block := emit (cs.map Item.char) s

/-! ### The LUT (20_memory.md) -/

/-- The LUT address of entry `i` of bank `b` (R51). -/
def lutAddr (b : Bank) (i : Nat) : Nat := 128 * b.bits.toNat + i

/-- The addresses that exist (the table of R51). -/
def addrExists (a : Nat) : Bool :=
  decide (a < 32) || (decide (128 ≤ a) && decide (a < 192)) || (decide (256 ≤ a) && decide (a < 341)) ||
    (decide (384 ≤ a) && decide (a < 390))

/-- The entry stored at an address, `none` where nothing is stored. -/
def Memory.read : Memory → Nat → Option Ch
  | [], _ => none
  | (a', c) :: m, a => if a = a' then some c else Memory.read m a

/-- Store an entry, keeping the addresses strictly rising. -/
def Memory.write : Memory → Nat → Ch → Memory
  | [], a, c => [(a, c)]
  | (a', c') :: m, a, c =>
    if a < a' then (a, c) :: (a', c') :: m
    else if a = a' then (a, c) :: m
    else (a', c') :: Memory.write m a c

/-- Every listed address lies above `lo`, each above the one before it. -/
def Memory.risingFrom (lo : Nat) : Memory → Bool
  | [] => true
  | (a, _) :: m => decide (lo ≤ a) && Memory.risingFrom (a + 1) m

/-- The one canonical form of the LUT: addresses strictly rising, every listed address existing. An unlisted address
has no value, so no entry can equal it. -/
def Memory.wf (m : Memory) : Bool := Memory.risingFrom 0 m && m.all (fun p => addrExists p.1)

/-- `MemRead(a, 1)` (R7, R51). -/
def memRead (m : Memory) (a : Nat) : Except Fault Ch :=
  if addrExists a then
    match Memory.read m a with
    | some c => .ok c
    | none => .error .lutUnwritten
  else .error .lutHole

/-- `LUT[b][i]` (R7). An index outside the bank names a hole, not an entry of the next bank. -/
def lutEntry (m : Memory) (b : Bank) (i : Nat) : Except Fault Ch :=
  if i < Config.bankLen b then memRead m (lutAddr b i) else .error .lutHole

/-- Forward look-up of a list of symbol indices (R54). -/
def lutEntries (m : Memory) (b : Bank) : List Nat → Except Fault (List Ch)
  | [] => .ok []
  | i :: is =>
    match lutEntry m b i with
    | .error f => .error f
    | .ok c =>
      match lutEntries m b is with
      | .error f => .error f
      | .ok cs => .ok (c :: cs)

/-- Linear scan of `n` entries of bank `b` from index `i` for the character `c`. -/
def revScan (m : Memory) (b : Bank) (c : Ch) : Nat → Nat → Except Fault (Option Nat)
  | 0, _ => .ok none
  | n + 1, i =>
    match lutEntry m b i with
    | .error f => .error f
    | .ok c' => if c' = c then .ok (some i) else revScan m b c n (i + 1)

/-- `rev(b, c)`: the least `i < N[b]` with `LUT[b][i] == c`, or `none` (R55). -/
def rev (m : Memory) (b : Bank) (c : Ch) : Except Fault (Option Nat) :=
  revScan m b c (Config.bankLen b) 0

/-- `LEN[b]` (R34). -/
def Block.len (s : Block) : Bank → BitVec 8
  | .r32 => s.len32
  | .r64 => s.len64
  | .r85 => s.len85
  | .six => s.len6

/-- `LEN[b] <- v`. -/
def Block.setLen (s : Block) (b : Bank) (v : BitVec 8) : Block :=
  match b with
  | .r32 => { s with len32 := v }
  | .r64 => { s with len64 := v }
  | .r85 => { s with len85 := v }
  | .six => { s with len6 := v }

/-- The bank is valid: `LEN[b] == N[b]` (R34). -/
def Block.bankValid (s : Block) (b : Bank) : Bool := (s.len b).toNat == Config.bankLen b

/-! ### The accumulator functions (40_accumulator.md, section 1) -/

/-- The pair `(buffer, bitCount)` as mathematical integers (R100). -/
structure Acc where
  buf : Nat
  cnt : Nat
  deriving DecidableEq, Repr

/-- The accumulator of a state. -/
def Block.acc (s : Block) : Acc := ⟨s.buffer.toNat, s.bitCount.toNat⟩

/-- `(buffer, bitCount) <- a`. -/
def Block.setAcc (s : Block) (a : Acc) : Block :=
  { s with buffer := BitVec.ofNat 64 a.buf, bitCount := BitVec.ofNat 7 a.cnt }

/-- `acc_push(buf, cnt, v, w)` (R101); precondition `1 <= w`, `v < 2^w`, `cnt + w <= W - 1`. -/
def accPush (a : Acc) (v w : Nat) : Acc :=
  ⟨((a.buf <<< w) ||| v) % 2 ^ Config.W, a.cnt + w⟩

/-- `acc_take(buf, cnt, w)` (R102): the oldest `w` of the held bits (R105), and what is left; precondition
`1 <= w <= cnt`. -/
def accTake (a : Acc) (w : Nat) : Nat × Acc :=
  ((a.buf >>> (a.cnt - w)) % 2 ^ w, ⟨a.buf % 2 ^ (a.cnt - w), a.cnt - w⟩)

/-- `acc_flush(buf, cnt, w)` (R103): the held bits left-aligned in a chunk of `w`, and the empty accumulator;
precondition `0 < cnt < w`. -/
def accFlush (a : Acc) (w : Nat) : Nat × Acc :=
  ((a.buf <<< (w - a.cnt)) % 2 ^ w, ⟨0, 0⟩)

/-- `acc_drain(buf, cnt, w)` (R104): take while `cnt >= w`, at most `fuel` times. -/
def accDrainLoop : Nat → Acc → Nat → List Nat × Acc
  | 0, a, _ => ([], a)
  | fuel + 1, a, w =>
    if w ≤ a.cnt then
      let r := accTake a w
      let rest := accDrainLoop fuel r.2 w
      (r.1 :: rest.1, rest.2)
    else ([], a)

/-- `acc_drain(buf, cnt, w)` for `w >= 1` (R104); each turn takes at least one bit, so `cnt` turns are enough. -/
def accDrain (a : Acc) (w : Nat) : List Nat × Acc := accDrainLoop a.cnt a w

/-- `acc_push` in a stream command, where the drain discipline keeps the precondition true (R106). -/
def streamPush (a : Acc) (v w : Nat) : Except Fault Acc :=
  if a.cnt + w ≤ Config.W - 1 then .ok (accPush a v w) else .error .accPrecondition

/-- The flush of an END command: nothing from an empty accumulator, else one index by `acc_flush` (R138). -/
def streamFlush (a : Acc) (w : Nat) : Except Fault (List Nat × Acc) :=
  if a.cnt = 0 then .ok ([], a)
  else if a.cnt < w then .ok ([(accFlush a w).1], (accFlush a w).2)
  else .error .accPrecondition

/-! ### Block counting and padding -/

/-- `blkCount <- (blkCount + 1) mod blk`, `n` times (R29). -/
def blkAdvance (blk : Nat) : Nat → Nat → Nat
  | 0, c => c
  | n + 1, c => blkAdvance blk n ((c + 1) % blk)

/-- How many pad characters `while blkCount != 0: emit CHAR(PAD); blkCount <- (blkCount + 1) mod blk` emits, and the
`blkCount` it leaves (R138), in at most `fuel` turns. -/
def padLoop (blk : Nat) : Nat → Nat → Nat × Nat
  | 0, c => (0, c)
  | fuel + 1, c =>
    if c = 0 then (0, 0)
    else
      let r := padLoop blk fuel ((c + 1) % blk)
      (r.1 + 1, r.2)

/-- `blkCount <- c`. -/
def Block.setBlk (s : Block) (c : Nat) : Block := { s with blkCount := BitVec.ofNat 3 c }

end Sys2Proof.Machine
end

