-- ==== Sys2Proof/Machine/Operands.lean ====
section
/-! DEFINITION. Operand checks and the digit functions: is_scalar (R8), the excluded field values of R230, base-85 and
base-5 digits (R141, R176). -/

namespace Sys2Proof.Machine

/-- `is_scalar(v)` (R8). -/
def isScalar (v : Nat) : Bool :=
  decide (v ≤ Config.maxScalar) && !(decide (Config.surrLo ≤ v) && decide (v ≤ Config.surrHi))

/-- A PUSHBITS operand pair that R110 allows. -/
def pushBitsLegal (value width : Nat) : Bool :=
  decide (1 ≤ width) && decide (width ≤ 8) && decide (value < 2 ^ width)

/-- An EXTRACT or FLUSH width that R111 and R112 allow. -/
def chunkWidthLegal (width : Nat) : Bool := decide (1 ≤ width) && decide (width ≤ 32)

/-- `digits85(v)`: the five base-85 digits, most significant first (R141). -/
def digits85 (v : Nat) : List Nat :=
  [v / 85 ^ 4 % 85, v / 85 ^ 3 % 85, v / 85 ^ 2 % 85, v / 85 ^ 1 % 85, v / 85 ^ 0 % 85]

/-- The least `k >= l` with `v < 5^k`, looking `fuel` times. -/
def numeralLenFrom : Nat → Nat → Nat → Nat
  | 0, l, _ => l
  | fuel + 1, l, v => if v < Config.numRadix ^ l then l else numeralLenFrom fuel (l + 1) v

/-- `L` of R176: 1 for 0, else the least `L >= 1` with `v < 5^L`. -/
def numeralLen (v : Nat) : Nat := numeralLenFrom v 1 v

/-- `digits5(v)`: base-5 digits, most significant first, no leading zeros, one digit for 0 (R176). -/
def digits5 (v : Nat) : List Nat :=
  (List.range (numeralLen v)).map fun i => v / Config.numRadix ^ (numeralLen v - 1 - i) % Config.numRadix

end Sys2Proof.Machine
end

