-- ==== Sys2Proof/Machine/Accumulator.lean ====
section
/-! DEFINITION. The accumulator commands (40_accumulator.md, section 2). -/

namespace Sys2Proof.Machine

/-- A chunk index as an `INDEX` item (R33). -/
def indexItem (idx : Nat) : Item := .index (BitVec.ofNat 32 idx)

/-- ACLR (R108). -/
def execAclr (st : State) : Result :=
  onBlock st fun s =>
    runCommand .aclr .idle s (.done (s.setAcc ⟨0, 0⟩))

/-- PUSHBYTE (R109). -/
def execPushbyte (byte : Byte) (st : State) : Result :=
  onBlock st fun s =>
    runCommand (.pushbyte byte) .idle s
      (if s.bitCount.toNat + 8 > Config.W - 1 then .raise .accOverflow
       else .done (s.setAcc (accPush s.acc byte.toNat 8)))

/-- PUSHBITS (R110). -/
def execPushbits (value : BitVec 8) (width : BitVec 4) (st : State) : Result :=
  onBlock st fun s =>
    runCommand (.pushbits value width) .idle s
      (if !pushBitsLegal value.toNat width.toNat then .raise .illegalOperand
       else if s.bitCount.toNat + width.toNat > Config.W - 1 then .raise .accOverflow
       else .done (s.setAcc (accPush s.acc value.toNat width.toNat)))

/-- EXTRACT (R111). -/
def execExtract (width : BitVec 6) (st : State) : Result :=
  onBlock st fun s =>
    runCommand (.extract width) .idle s
      (if !chunkWidthLegal width.toNat then .raise .illegalOperand
       else
        let r := accDrain s.acc width.toNat
        .done (emit (r.1.map indexItem) (s.setAcc r.2)))

/-- FLUSH (R112). -/
def execFlush (width : BitVec 6) (st : State) : Result :=
  onBlock st fun s =>
    runCommand (.flush width) .idle s
      (if !chunkWidthLegal width.toNat then .raise .illegalOperand
       else if s.bitCount.toNat ≥ width.toNat then .raise .accUnderdrained
       else if s.bitCount.toNat > 0 then
        let r := accFlush s.acc width.toNat
        .done (emit [indexItem r.1] (s.setAcc r.2))
       else .done s)

end Sys2Proof.Machine
end

