-- ==== Sys2Proof/Machine/Alphabet.lean ====
section
/-! DEFINITION. The alphabet look-up table commands (41_alphabet_lut.md). -/

namespace Sys2Proof.Machine

/-- LUTCLR (R121): the stored entries stay and become unwritten, since `LEN` no longer reaches them. -/
def execLutclr (bank : Bank) (st : State) : Result :=
  onBlock st fun s =>
    runCommand (.lutclr bank) .idle s (.done (s.setLen bank 0#8))

/-- The append of R122: stored while there is room, counted in any case up to 255. -/
def appendChar (bank : Bank) (char : Ch) (s : Block) : Block :=
  let n := (s.len bank).toNat
  let t := if n < Config.bankLen bank then { s with lut := Memory.write s.lut (lutAddr bank n) char } else s
  if n < Config.lenMax then t.setLen bank (BitVec.ofNat 8 (n + 1)) else t

/-- LUTAPP (R122). -/
def execLutapp (bank : Bank) (char : Ch) (st : State) : Result :=
  onBlock st fun s =>
    runCommand (.lutapp bank char) .idle s
      (if !isScalar char.toNat then .raise .illegalOperand else .done (appendChar bank char s))

/-- LUTRD (R123). -/
def execLutrd (bank : Bank) (index : BitVec 7) (st : State) : Result :=
  onBlock st fun s =>
    runCommand (.lutrd bank index) .idle s
      (if Config.bankLen bank ≤ index.toNat ∨ (s.len bank).toNat ≤ index.toNat then .raise .illegalOperand
       else whenOk (lutEntry s.lut bank index.toNat) fun c => .done (emitChars [c] s))

end Sys2Proof.Machine
end

