-- ==== Sys2Proof/Machine/NumeralDecoder.lean ====
section
/-! DEFINITION. The numeral decoder, the reverse direction of the numeral codec (45_numeral_decoder.md). -/

namespace Sys2Proof.Machine

/-- NUMD.START (R191). -/
def execNumdStart (st : State) : Result :=
  onBlock st fun s =>
    runCommand .numdStart .idle s
      (if !s.bankValid .six then .raise .alphabetSizeMismatch
       else .done { s with nval := 0#21, nhave := false, radix := .six, phase := .numd })

/-- `close_group` (R195): a group with digits yields its value unless that is a surrogate; an empty group yields
nothing. -/
def closeGroup (s : Block) : Effect :=
  if s.nhave ∧ Config.surrLo ≤ s.nval.toNat ∧ s.nval.toNat ≤ Config.surrHi then .raise .outOfRange
  else .done { emit (if s.nhave then [.scalar s.nval] else []) s with nval := 0#21, nhave := false }

/-- A digit: multiply and add, unless the value would pass 0x10FFFF (R192, R193). -/
def absorbDigit (i : Nat) (s : Block) : Effect :=
  if s.nval.toNat * Config.numRadix + i > Config.maxScalar then .raise .outOfRange
  else .done { s with nval := BitVec.ofNat 21 (s.nval.toNat * Config.numRadix + i), nhave := true }

/-- NUMD.SYM (R192). -/
def execNumdSym (scalar : Ch) (st : State) : Result :=
  onBlock st fun s =>
    runCommand (.numdSym scalar) .numd s
      (if !isScalar scalar.toNat then .raise .illegalOperand
       else whenOk (rev s.lut .six scalar) fun found =>
        match found with
        | none => .raise .invalidSymbol
        | some i => if i = Config.delim then closeGroup s else absorbDigit i s)

/-- NUMD.END (R194): the end of the stream closes the last group. -/
def execNumdEnd (st : State) : Result :=
  onBlock st fun s =>
    runCommand .numdEnd .numd s
      (match closeGroup s with
       | .done t => .done { t with phase := .idle }
       | .raise c => .raise c
       | .stuck f => .stuck f)

end Sys2Proof.Machine
end

