-- ==== Sys2Proof/Machine/NumeralEncoder.lean ====
section
/-! DEFINITION. The numeral encoder for Unicode scalar values (44_numeral_encoder.md). -/

namespace Sys2Proof.Machine

/-- NUM.START (R178). -/
def execNumStart (st : State) : Result :=
  onBlock st fun s =>
    runCommand .numStart .idle s
      (if !s.bankValid .six then .raise .alphabetSizeMismatch
       else .done { s with numPend := false, radix := .six, phase := .num })

/-- The symbol indices NUM.SCALAR emits: the delimiter before every scalar but the first, then the digits (R179). -/
def numeralIndices (pend : Bool) (v : Nat) : List Nat :=
  (if pend then [Config.delim] else []) ++ digits5 v

/-- NUM.SCALAR (R179). -/
def execNumScalar (scalar : Ch) (st : State) : Result :=
  onBlock st fun s =>
    runCommand (.numScalar scalar) .num s
      (if !isScalar scalar.toNat then .raise .illegalOperand
       else whenOk (lutEntries s.lut .six (numeralIndices s.numPend scalar.toNat)) fun cs =>
        .done { emitChars cs s with numPend := true })

/-- NUM.END (R180). -/
def execNumEnd (st : State) : Result :=
  onBlock st fun s =>
    runCommand .numEnd .num s (.done { s with numPend := false, phase := .idle })

end Sys2Proof.Machine
end

