-- ==== Sys2Proof/Machine/SymbolGenerator.lean ====
section
/-! DEFINITION. The variable-radix symbol generator (42_symbol_generator.md): radix 32, 64 and 85. -/

namespace Sys2Proof.Machine

/-- A fresh accumulator and block count, as every ENC.START and DEC.START makes them (R38). -/
def freshStream (s : Block) : Block := (s.setAcc ⟨0, 0⟩).setBlk 0

/-- ENC.START (R136). -/
def execEncStart (bank : Bank) (st : State) : Result :=
  onBlock st fun s =>
    runCommand (.encStart bank) .idle s
      (if bank = .six then .raise .illegalOperand
       else if !s.bankValid bank then .raise .alphabetSizeMismatch
       else .done { freshStream s with radix := bank, phase := .enc })

/-- ENC.BYTE in a radix-32 or radix-64 stream with chunk width `w` and block length `blk` (R137). -/
def encByteBlock (w blk : Nat) (byte : Byte) (s : Block) : Effect :=
  whenOk (streamPush s.acc byte.toNat 8) fun a =>
    let r := accDrain a w
    whenOk (lutEntries s.lut s.radix r.1) fun cs =>
      .done (emitChars cs ((s.setAcc r.2).setBlk (blkAdvance blk r.1.length s.blkCount.toNat)))

/-- ENC.BYTE in a radix-85 stream: five characters at the fourth byte of a group (R137, R142). -/
def encByte85 (byte : Byte) (s : Block) : Effect :=
  whenOk (streamPush s.acc byte.toNat 8) fun a =>
    if a.cnt = Config.chunk85 then
      let r := accTake a Config.chunk85
      whenOk (lutEntries s.lut .r85 (digits85 r.1)) fun cs => .done (emitChars cs (s.setAcc r.2))
    else .done (s.setAcc a)

/-- ENC.BYTE (R137). -/
def execEncByte (byte : Byte) (st : State) : Result :=
  onBlock st fun s =>
    runCommand (.encByte byte) .enc s
      (match s.radix with
       | .r32 => encByteBlock 5 8 byte s
       | .r64 => encByteBlock 6 4 byte s
       | .r85 => encByte85 byte s
       | .six => .stuck .radixNotOfStream)

/-- ENC.END in a radix-32 or radix-64 stream: flush, then pad to a whole block (R138). `blkCount` has 3 bits, so the
padding loop ends within 8 turns. -/
def encEndBlock (w blk : Nat) (s : Block) : Effect :=
  whenOk (streamFlush s.acc w) fun r =>
    whenOk (lutEntries s.lut s.radix r.1) fun cs =>
      let p := padLoop blk 8 (blkAdvance blk r.1.length s.blkCount.toNat)
      .done { emitChars (cs ++ List.replicate p.1 Config.pad) ((s.setAcc r.2).setBlk p.2) with phase := .idle }

/-- ENC.END in a radix-85 stream: a last group of `k` bytes gives `k + 1` characters (R138, R143). -/
def encEnd85 (s : Block) : Effect :=
  whenOk (streamFlush s.acc Config.chunk85) fun r =>
    whenOk (lutEntries s.lut .r85 (r.1.flatMap fun v => (digits85 v).take (s.acc.cnt / 8 + 1))) fun cs =>
      .done { emitChars cs (s.setAcc r.2) with phase := .idle }

/-- ENC.END (R138). -/
def execEncEnd (st : State) : Result :=
  onBlock st fun s =>
    runCommand .encEnd .enc s
      (match s.radix with
       | .r32 => encEndBlock 5 8 s
       | .r64 => encEndBlock 6 4 s
       | .r85 => encEnd85 s
       | .six => .stuck .radixNotOfStream)

end Sys2Proof.Machine
end

