-- ==== Sys2Proof/Machine/SymbolAbsorber.lean ====
section
/-! DEFINITION. The symbol absorber, the reverse direction for radix 32 and 64 (43_symbol_absorber.md). -/

namespace Sys2Proof.Machine

/-- DEC.START (R159). -/
def execDecStart (radix : Bank) (strict : Bool) (st : State) : Result :=
  onBlock st fun s =>
    runCommand (.decStart radix strict) .idle s
      (if (Config.blockParams radix).isNone then .raise .illegalOperand
       else if !s.bankValid radix then .raise .alphabetSizeMismatch
       else .done { freshStream s with radix := radix, strict := strict, phase := .dec })

/-- A data symbol of index `i`: its `w` bits are pushed, it is counted, and a whole byte leaves if there is one (R160). -/
def absorbSymbol (w blk i : Nat) (s : Block) : Effect :=
  whenOk (streamPush s.acc i w) fun a =>
    let t := s.setBlk (blkAdvance blk 1 s.blkCount.toNat)
    if 8 ≤ a.cnt then
      let r := accTake a 8
      .done (emit [.byte (BitVec.ofNat 8 r.1)] (t.setAcc r.2))
    else .done (t.setAcc a)

/-- A character of the text, looked up in the alphabet before the pad test (R160). -/
def absorbChar (w blk : Nat) (c : Ch) (s : Block) : Effect :=
  whenOk (rev s.lut s.radix c) fun found =>
    match found with
    | some i => absorbSymbol w blk i s
    | none =>
      if c = Config.pad then .done (s.setBlk (blkAdvance blk 1 s.blkCount.toNat))
      else if s.strict then .raise .invalidSymbol
      else .done s

/-- DEC.SYM (R160). -/
def execDecSym (scalar : Ch) (st : State) : Result :=
  onBlock st fun s =>
    runCommand (.decSym scalar) .dec s
      (if !isScalar scalar.toNat then .raise .illegalOperand
       else
        match Config.blockParams s.radix with
        | some (w, blk) => absorbChar w blk scalar s
        | none => .stuck .radixNotOfStream)

/-- DEC.END (R161, R163). -/
def execDecEnd (st : State) : Result :=
  onBlock st fun s =>
    runCommand .decEnd .dec s
      (match Config.blockParams s.radix with
       | some (w, _) =>
        if s.bitCount.toNat ≥ w ∨ s.blkCount.toNat ≠ 0 then .raise .malformedLength
        else .done { s.setAcc ⟨0, 0⟩ with phase := .idle }
       | none => .stuck .radixNotOfStream)

end Sys2Proof.Machine
end

