-- ==== Sys2Proof/Machine/Flags.lean ====
section
/-! DEFINITION. The block has no flags (R25). What it has instead are numeric codes: of phases, causes, responses and
item tags, the STATUS image (R36) and the 36-bit wire form of an item (R33). -/

namespace Sys2Proof.Machine

/-- The 3-bit code of a phase (R26). -/
def Phase.code : Phase → BitVec 3
  | .idle => 0#3
  | .enc => 1#3
  | .dec => 2#3
  | .num => 3#3
  | .numd => 4#3

/-- The 4-bit code of a cause (R220). -/
def Cause.code : Cause → BitVec 4
  | .alphabetSizeMismatch => 1#4
  | .invalidSymbol => 2#4
  | .malformedLength => 3#4
  | .outOfRange => 4#4
  | .illegalCommand => 5#4
  | .illegalOperand => 6#4
  | .illegalSequence => 7#4
  | .accOverflow => 8#4
  | .accUnderdrained => 9#4

/-- The content of `ERR`: 0 when the block is not faulted (R32, R220). -/
def errCode : Option Cause → BitVec 4
  | none => 0#4
  | some c => c.code

/-- The code of a response (R221). -/
def Response.code : Response → Nat
  | .ok => 0
  | .fault => 1
  | .refused => 2

/-- The tag code of an item (R33). -/
def Item.tag : Item → BitVec 4
  | .char _ => 0#4
  | .index _ => 1#4
  | .byte _ => 2#4
  | .scalar _ => 3#4
  | .word _ => 4#4

/-- The value of an item, zero-extended to 32 bits (R33). -/
def Item.value : Item → Word
  | .char c => c.setWidth 32
  | .index v => v
  | .byte b => b.setWidth 32
  | .scalar c => c.setWidth 32
  | .word w => w

/-- An item on the wire: a 36-bit word, the tag code above the value (R33). -/
def Item.wire (i : Item) : BitVec 36 := i.tag ++ i.value

/-- `STATUS`, from bit 31 down: reserved 31:23, BITCOUNT, reserved 15, BLKCOUNT, NHAVE, NUMPEND, STRICT, RADIX, PHASE,
ERR (R36). -/
def Block.status (s : Block) : Word :=
  0#9 ++ s.bitCount ++ 0#1 ++ s.blkCount ++ bitOf s.nhave ++ bitOf s.numPend ++ bitOf s.strict ++ s.radix.bits ++
    s.phase.code ++ errCode s.err

end Sys2Proof.Machine
end

