-- ==== Sys2Proof/Machine/System.lean ====
section
/-! DEFINITION. The system commands (46_system.md): legal in every phase and when faulted. -/

namespace Sys2Proof.Machine

/-- NOP (R206). -/
def execNop (st : State) : Result :=
  onBlock st fun s => runSystem s

/-- SRST (R207). -/
def execSrst (st : State) : Result :=
  onBlock st fun s => runSystem (softReset s)

/-- RDSTAT (R208). -/
def execRdstat (st : State) : Result :=
  onBlock st fun s => runSystem (emit [.word s.status] s)

/-- RDERR (R209). -/
def execRderr (st : State) : Result :=
  onBlock st fun s => runSystem (emit [.word s.errcmd] s)

/-- RDLEN (R210). -/
def execRdlen (bank : Bank) (st : State) : Result :=
  onBlock st fun s => runSystem (emit [.word ((s.len bank).setWidth 32)] s)

end Sys2Proof.Machine
end

