-- ==== Sys2Proof/Machine/Dispatch.lean ====
section
/-! DEFINITION. One arm per command, each a direct call of its meaning. -/

namespace Sys2Proof.Machine

def exec (i : Instr) (s : State) : Host.Outcome State Fault Refusal :=
  match i with
  -- system commands (46_system.md)
  | .nop => Sys2Proof.Machine.execNop s
  | .srst => Sys2Proof.Machine.execSrst s
  | .rdstat => Sys2Proof.Machine.execRdstat s
  | .rderr => Sys2Proof.Machine.execRderr s
  | .rdlen bank => Sys2Proof.Machine.execRdlen bank s
  -- alphabet look-up table (41_alphabet_lut.md)
  | .lutclr bank => Sys2Proof.Machine.execLutclr bank s
  | .lutapp bank char => Sys2Proof.Machine.execLutapp bank char s
  | .lutrd bank index => Sys2Proof.Machine.execLutrd bank index s
  -- accumulator (40_accumulator.md)
  | .aclr => Sys2Proof.Machine.execAclr s
  | .pushbyte byte => Sys2Proof.Machine.execPushbyte byte s
  | .pushbits value width => Sys2Proof.Machine.execPushbits value width s
  | .extract width => Sys2Proof.Machine.execExtract width s
  | .flush width => Sys2Proof.Machine.execFlush width s
  -- symbol generator (42_symbol_generator.md)
  | .encStart bank => Sys2Proof.Machine.execEncStart bank s
  | .encByte byte => Sys2Proof.Machine.execEncByte byte s
  | .encEnd => Sys2Proof.Machine.execEncEnd s
  -- symbol absorber (43_symbol_absorber.md)
  | .decStart radix strict => Sys2Proof.Machine.execDecStart radix strict s
  | .decSym scalar => Sys2Proof.Machine.execDecSym scalar s
  | .decEnd => Sys2Proof.Machine.execDecEnd s
  -- numeral encoder (44_numeral_encoder.md)
  | .numStart => Sys2Proof.Machine.execNumStart s
  | .numScalar scalar => Sys2Proof.Machine.execNumScalar scalar s
  | .numEnd => Sys2Proof.Machine.execNumEnd s
  -- numeral decoder (45_numeral_decoder.md)
  | .numdStart => Sys2Proof.Machine.execNumdStart s
  | .numdSym scalar => Sys2Proof.Machine.execNumdSym scalar s
  | .numdEnd => Sys2Proof.Machine.execNumdEnd s

end Sys2Proof.Machine
end

