-- ==== Sys2Proof/Machine/Fetch.lean ====
section
/-! DEFINITION. What stands in for fetching: the next word is whatever the host presents next (10_state.md R24), so the
model takes it from the front of `input` (log entry 1). -/

namespace Sys2Proof.Machine

/-- What the host does next, and the state with that taken; `none` when the host does nothing. -/
def takeInput (s : State) : Option (HostInput × State) :=
  match s.input with
  | [] => none
  | h :: rest => some (h, { s with input := rest })

/-- The host asserts reset between two commands (R250): every piece of the block's state takes its reset value and no
response is given. What the host does afterwards is untouched (log entry 4). -/
def assertReset (s : State) : State := { State.reset with input := s.input }

/-- Present a word so that it is the next one taken. -/
def presentNext (cmd : Word) (s : State) : State := { s with input := .command cmd :: s.input }

end Sys2Proof.Machine
end

