-- ==== Sys2Proof/Machine/Step.lean ====
section
/-! DEFINITION. One step of the block: it takes what the host does next and executes it completely (00_scope.md R9). -/

namespace Sys2Proof.Machine

/-- One step. A word that decodes is executed by `exec`; a word that does not is an illegal word (R229); a reset gives
the reset state (R250); with nothing presented the block keeps its state (R245). -/
def step (s : State) : Host.Outcome State Fault Refusal :=
  match takeInput s with
  | none => .next s
  | some (.reset, t) => .next (assertReset t)
  | some (.command cmd, t) =>
    match decode cmd with
    | .ok i => exec i t
    | .error _ => onBlock t (illegalWord cmd)

/-- The state in which the host presents, next of all, the word that spec/opcode_table.json numbers `w` (R9; log
entries 1 and 13). -/
def State.withFetchWord (s : State) (nbits w : Nat) : State := presentNext (tableWord nbits w) s

end Sys2Proof.Machine
end

