-- ==== Sys2Proof/Machine/Assembly.lean ====
section
/-! DEFINITION. The pseudo-instructions as the commands they expand to (30_encoding.md R78), and a command written in the
assembler syntax (R77). No step uses this file: it is the notation of the spec's programs. -/

namespace Sys2Proof

/-! ### Pseudo-instructions (R78) -/

/-- `LUTLOAD bank, c0, c1, ...` (R78). -/
def pseudoLutload (b : Bank) (cs : List Ch) : List Instr := .lutclr b :: cs.map (Instr.lutapp b)

/-- `ENC.BYTES b0, b1, ...` (R78). -/
def pseudoEncBytes (bs : List Byte) : List Instr := bs.map Instr.encByte

/-- `DEC.TEXT "c0c1.."` (R78). -/
def pseudoDecText (cs : List Ch) : List Instr := cs.map Instr.decSym

/-- `NUM.SCALARS s0, s1, ...` (R78). -/
def pseudoNumScalars (ss : List Ch) : List Instr := ss.map Instr.numScalar

/-- `NUMD.TEXT U+A, U+B, ...` (R78). -/
def pseudoNumdText (cs : List Ch) : List Instr := cs.map Instr.numdSym

/-! ### Assembler syntax (R77) -/

/-- A bank or radix as R77 writes it. -/
def Bank.asm : Bank → String
  | .r32 => "32"
  | .r64 => "64"
  | .r85 => "85"
  | .six => "6"

/-- The hexadecimal digits of a number, capitals, at least `least` of them. -/
def hexText (least n : Nat) : String :=
  let ds := (Nat.toDigits 16 n).map Char.toUpper
  String.ofList (List.replicate (least - ds.length) '0' ++ ds)

/-- A number written `0x..`. -/
def hexNumber (n : Nat) : String := "0x" ++ hexText 2 n

/-- A number written in decimal. -/
def decNumber (n : Nat) : String := String.ofList (Nat.toDigits 10 n)

/-- A character or scalar written `U+XXXX`. -/
def scalarText (c : Ch) : String := "U+" ++ hexText 4 c.toNat

/-- The operands of a command in the order of R75, as R77 writes them; of the spellings R77 allows, `byte` and `value`
are in hexadecimal, `width` and `index` in decimal, characters as `U+XXXX` (log entry 14). -/
def Instr.asmOperands : Instr → List String
  | .nop => []
  | .srst => []
  | .rdstat => []
  | .rderr => []
  | .rdlen b => [b.asm]
  | .lutclr b => [b.asm]
  | .lutapp b c => [b.asm, scalarText c]
  | .lutrd b i => [b.asm, decNumber i.toNat]
  | .aclr => []
  | .pushbyte b => [hexNumber b.toNat]
  | .pushbits v w => [hexNumber v.toNat, decNumber w.toNat]
  | .extract w => [decNumber w.toNat]
  | .flush w => [decNumber w.toNat]
  | .encStart b => [b.asm]
  | .encByte b => [hexNumber b.toNat]
  | .encEnd => []
  | .decStart r strict => [r.asm, if strict then "strict" else "permissive"]
  | .decSym c => [scalarText c]
  | .decEnd => []
  | .numStart => []
  | .numScalar c => [scalarText c]
  | .numEnd => []
  | .numdStart => []
  | .numdSym c => [scalarText c]
  | .numdEnd => []

/-- A command in assembler syntax: the mnemonic, then its operands separated by commas (R77). -/
def Instr.asm (i : Instr) : String :=
  match i.asmOperands with
  | [] => i.mnemonic
  | o :: os => os.foldl (fun t p => t ++ ", " ++ p) (i.mnemonic ++ " " ++ o)

end Sys2Proof
end

