-- ==== Sys2Proof/Safety.lean ====
section
/-! DEFINITION. What claims about the block use: the invariant of its reachable states, what it is for a run never to
stop, and the run of a list of commands. -/

namespace Sys2Proof.Machine

/-! ### The invariant -/

/-- The accumulator (R23): `0 <= bitCount < W` and `buffer < 2^bitCount`. -/
abbrev AccInv (s : Block) : Prop :=
  s.bitCount.toNat < Config.W ∧ s.buffer.toNat < 2 ^ s.bitCount.toNat

/-- An item carries a Unicode scalar value where it is a character or a scalar (R8, R33). -/
def Item.scalarOnly : Item → Bool
  | .char c => isScalar c.toNat
  | .index _ => true
  | .byte _ => true
  | .scalar c => isScalar c.toNat
  | .word _ => true

/-- The LUT is in canonical form and holds scalar values, and every entry below `min(LEN[b], N[b])` is written (R53,
R122). -/
abbrev LutInv (s : Block) : Prop :=
  Memory.wf s.lut = true ∧ (∀ p ∈ s.lut, isScalar p.2.toNat = true) ∧
    ∀ b ∈ Bank.all, ∀ i < min (s.len b).toNat (Config.bankLen b), (Memory.read s.lut (lutAddr b i)).isSome = true

/-- An open ENC stream: its bank is valid, its radix is 32, 64 or 85, and the accumulator is drained to the bits the
table of R137 lists. In radix 32 and 64 the symbols counted and the bits held make whole bytes. -/
abbrev EncInv (s : Block) : Prop :=
  s.bankValid s.radix = true ∧
    ((s.radix = .r32 ∧ s.bitCount.toNat < 5 ∧ (5 * s.blkCount.toNat + s.bitCount.toNat) % 8 = 0) ∨
     (s.radix = .r64 ∧ s.bitCount.toNat < 6 ∧ s.blkCount.toNat < 4 ∧
       (6 * s.blkCount.toNat + s.bitCount.toNat) % 8 = 0) ∨
     (s.radix = .r85 ∧ s.bitCount.toNat ∈ [0, 8, 16, 24] ∧ s.blkCount.toNat = 0))

/-- An open DEC stream: its bank is valid, its radix is 32 or 64, and fewer than 8 bits are held, an even number of
them in radix 64 (R106, R155). -/
abbrev DecInv (s : Block) : Prop :=
  s.bankValid s.radix = true ∧ s.bitCount.toNat < 8 ∧
    (s.radix = .r32 ∨ (s.radix = .r64 ∧ s.blkCount.toNat < 4 ∧ s.bitCount.toNat % 2 = 0))

/-- The stream registers, by the open stream: what R29, R30 and R31 say of each outside its own stream, and the bank of
an open stream. -/
abbrev StreamInv (s : Block) : Prop :=
  (s.phase = .enc → EncInv s) ∧ (s.phase = .dec → DecInv s) ∧
    (s.phase = .num ∨ s.phase = .numd → s.radix = .six ∧ s.bankValid .six = true) ∧
    (s.phase ≠ .enc → s.phase ≠ .dec → s.blkCount = 0#3) ∧
    (s.phase ≠ .num → s.numPend = false) ∧
    (s.phase ≠ .numd → s.nhave = false)

/-- The numeral accumulator (R31): at most 0x10FFFF, and 0 when the group has no digit. -/
abbrev NumeralInv (s : Block) : Prop :=
  s.nval.toNat ≤ Config.maxScalar ∧ (s.nhave = false → s.nval = 0#21)

/-- `ERRCMD` is 0 exactly when `ERR` is (R32, R209). -/
abbrev ErrInv (s : Block) : Prop := s.err = none ↔ s.errcmd = 0#32

/-- What holds in every reachable state. -/
abbrev BlockInv (s : Block) : Prop :=
  AccInv s ∧ LutInv s ∧ StreamInv s ∧ NumeralInv s ∧ ErrInv s ∧ ∀ it ∈ s.out, it.scalarOnly = true

/-! ### Runs -/

/-- A run of `n` steps never stops, however long (R259, R263). -/
def NeverStops (s : State) : Prop := ∀ n, ∃ t, Host.Core.run Sys2Proof.core n s = .next t

/-- Execute a list of commands in order, stopping where the model stops (R263). -/
def execAll : List Instr → State → Host.Outcome State Fault Refusal
  | [], s => .next s
  | i :: is, s =>
    match exec i s with
    | .next t => execAll is t
    | .fault f => .fault f
    | .refused r => .refused r

/-- The unfaulted block in a phase: a command legal in `p` is past the first three checks of R234. -/
abbrev ReadyIn (p : Phase) (s : State) : Prop := s.err = none ∧ s.phase = p

/-- A response appended, as every command appends one (R221). -/
abbrev responded (s : State) (r : Response) : List Response := s.responses ++ [r]

/-- The state after a command `i` that raises the cause `c` (R222). -/
def faultState (c : Cause) (i : Instr) (s : State) : State :=
  { s with err := some c, errcmd := encode i, responses := responded s .fault }

/-- The one phase a command is legal in, `none` for the system commands, which are legal in every phase and when faulted
(the column "legal in phase" of R75). -/
def legalPhase : Instr → Option Phase
  | .nop => none
  | .srst => none
  | .rdstat => none
  | .rderr => none
  | .rdlen _ => none
  | .lutclr _ => some .idle
  | .lutapp _ _ => some .idle
  | .lutrd _ _ => some .idle
  | .aclr => some .idle
  | .pushbyte _ => some .idle
  | .pushbits _ _ => some .idle
  | .extract _ => some .idle
  | .flush _ => some .idle
  | .encStart _ => some .idle
  | .encByte _ => some .enc
  | .encEnd => some .enc
  | .decStart _ _ => some .idle
  | .decSym _ => some .dec
  | .decEnd => some .dec
  | .numStart => some .idle
  | .numScalar _ => some .num
  | .numEnd => some .num
  | .numdStart => some .idle
  | .numdSym _ => some .numd
  | .numdEnd => some .numd

/-- Outside the phase `p` an unfaulted block answers the command with `IllegalSequence` (R231). -/
abbrev OutOfPhase (i : Instr) (p : Phase) (s : State) : Prop :=
  s.phase ≠ p → exec i s = .next (faultState .illegalSequence i s)

/-- `LUT[b][i]`, for an entry that is written (R53); 0 stands where nothing is written, and no claim looks there. -/
def lutAt (s : Block) (b : Bank) (i : Nat) : Ch := (Memory.read s.lut (lutAddr b i)).getD 0#21

end Sys2Proof.Machine
end

