-- ==== Sys2Proof/Safety/Reference.lean ====
section
/-! DEFINITION. The spec's whole-stream functions, written from its laws and not from the commands: the bit-string view
(R113), the texts of R139, R142, R143 and R181, the bytes of R162, the inverse of R150, the groups of R197. -/

namespace Sys2Proof.Machine

/-! ### Bit strings, oldest bit first (R58, R113) -/

/-- The `w` bits of `v`, most significant first. -/
def bitsOf (w v : Nat) : List Bool := (List.range w).map fun k => v.testBit (w - 1 - k)

/-- The number a bit string is, its first bit most significant. -/
def valueOf (bs : List Bool) : Nat := bs.foldl (fun n b => 2 * n + b.toNat) 0

/-- The held bits of an accumulator as a string: `buf[cnt-1], ..., buf[0]`. -/
def Acc.held (a : Acc) : List Bool := bitsOf a.cnt a.buf

/-- The first `n` successive `w`-bit pieces of a string, each as a number. -/
def pieces (w n : Nat) (bs : List Bool) : List Nat :=
  (List.range n).map fun k => valueOf ((bs.drop (k * w)).take w)

/-- Push each value in turn, draining by `w` after each push: the indices yielded, and what is left (R113). -/
def pushAllDraining (w : Nat) : List (Nat × Nat) → Acc → List Nat × Acc
  | [], a => ([], a)
  | (v, n) :: ps, a =>
    let r := accDrain (accPush a v n) w
    let rest := pushAllDraining w ps r.2
    (r.1 ++ rest.1, rest.2)

/-! ### Radix 32 and 64 -/

/-- Each byte most significant bit first. -/
def byteBits (bs : List Byte) : List Bool := bs.flatMap fun b => bitsOf 8 b.toNat

/-- `ceil(8n / w)`, the number of data symbols of `n` bytes (R139). -/
def symbolCount (w n : Nat) : Nat := (8 * n + w - 1) / w

/-- The indices of R139: the bits of the bytes, padded on the right with zero bits to whole chunks, cut into chunks. -/
def blockIndices (w : Nat) (bs : List Byte) : List Nat :=
  let m := symbolCount w bs.length
  pieces w m (byteBits bs ++ List.replicate (m * w - 8 * bs.length) false)

/-- The text of R139 for chunk width `w`, block length `blk` and the alphabet `sym`. -/
def blockText (w blk : Nat) (sym : Nat → Ch) (bs : List Byte) : List Ch :=
  let m := symbolCount w bs.length
  (blockIndices w bs).map sym ++ List.replicate ((blk - m % blk) % blk) Config.pad

/-- The bytes of R162 for the indices of the data symbols of a text. -/
def blockBytes (w : Nat) (is : List Nat) : List Byte :=
  (pieces 8 (w * is.length / 8) (is.flatMap (bitsOf w))).map (BitVec.ofNat 8)

/-! ### Radix 85 -/

/-- The value of a group of four bytes, the first in the highest place (R142). -/
def groupValue (b0 b1 b2 b3 : Nat) : Nat := b0 * 2 ^ 24 + b1 * 2 ^ 16 + b2 * 2 ^ 8 + b3

/-- The base-85 digits emitted for a byte string: five for each group of four bytes, `k + 1` for a last group of `k`
(R142, R143). -/
def text85 : List Byte → List Nat
  | b0 :: b1 :: b2 :: b3 :: rest => digits85 (groupValue b0.toNat b1.toNat b2.toNat b3.toNat) ++ text85 rest
  | [b0, b1, b2] => (digits85 (groupValue b0.toNat b1.toNat b2.toNat 0)).take 4
  | [b0, b1] => (digits85 (groupValue b0.toNat b1.toNat 0 0)).take 3
  | [b0] => (digits85 (groupValue b0.toNat 0 0 0)).take 2
  | [] => []

/-- The value of five base-85 digits (R150). -/
def value85 (d0 d1 d2 d3 d4 : Nat) : Nat := d0 * 85 ^ 4 + d1 * 85 ^ 3 + d2 * 85 ^ 2 + d3 * 85 + d4

/-- A 32-bit value as four bytes, highest first (R150). -/
def bytesOf (v : Nat) : List Byte :=
  [BitVec.ofNat 8 (v / 2 ^ 24), BitVec.ofNat 8 (v / 2 ^ 16), BitVec.ofNat 8 (v / 2 ^ 8), BitVec.ofNat 8 v]

/-- The first `k` bytes of a group value, which has no meaning from 2^32 up (R150). -/
def groupBytes (k v : Nat) : Option (List Byte) := if v < 2 ^ 32 then some ((bytesOf v).take k) else none

/-- `dec85_ref`, the reference inverse of radix 85 (R150): groups of five digits, a last group of two, three or four
extended with digits of value 84. It is not hardware and no command computes it. -/
def dec85Ref : List Nat → Option (List Byte)
  | d0 :: d1 :: d2 :: d3 :: d4 :: rest =>
    match groupBytes 4 (value85 d0 d1 d2 d3 d4), dec85Ref rest with
    | some bs, some cs => some (bs ++ cs)
    | _, _ => none
  | [d0, d1, d2, d3] => groupBytes 3 (value85 d0 d1 d2 d3 84)
  | [d0, d1, d2] => groupBytes 2 (value85 d0 d1 d2 84 84)
  | [d0, d1] => groupBytes 1 (value85 d0 d1 84 84 84)
  | [_] => none
  | [] => some []

/-! ### Numerals -/

/-- The indices of a payload: the numerals with one delimiter between every two neighbours (R181). -/
def payloadIndices : List Nat → List Nat
  | [] => []
  | [v] => digits5 v
  | v :: vs => digits5 v ++ [Config.delim] ++ payloadIndices vs

/-- The value of a string of base-5 digits, most significant first (R197). -/
def numeralValue (ds : List Nat) : Nat := ds.foldl (fun n d => n * 5 + d) 0

/-- A string of symbol indices split at every delimiter (R197). -/
def splitGroups : List Nat → List (List Nat)
  | [] => [[]]
  | i :: is =>
    if i = Config.delim then [] :: splitGroups is
    else
      match splitGroups is with
      | [] => [[i]]
      | g :: gs => (i :: g) :: gs

/-- The pieces that are not empty, each as its value (R197). -/
def groupValues (is : List Nat) : List Nat := ((splitGroups is).filter fun g => !g.isEmpty).map numeralValue

/-! ### Alphabets -/

/-- Every symbol of bank `b` stands at one index only (R56 (a)). -/
def DistinctBank (s : Block) (b : Bank) : Prop :=
  ∀ i < Config.bankLen b, ∀ j < Config.bankLen b, lutAt s b i = lutAt s b j → i = j

/-- Bank `b` does not contain the pad character (R56 (b)). -/
def PadFree (s : Block) (b : Bank) : Prop := ∀ i < Config.bankLen b, lutAt s b i ≠ Config.pad

/-! ### Streams -/

/-- An ENC stream of a byte string. -/
def encStream (b : Bank) (bs : List Byte) : List Instr := .encStart b :: pseudoEncBytes bs ++ [.encEnd]

/-- A DEC stream of a text. -/
def decStream (b : Bank) (strict : Bool) (cs : List Ch) : List Instr :=
  .decStart b strict :: pseudoDecText cs ++ [.decEnd]

/-- A NUM stream of a payload. -/
def numStream (ss : List Ch) : List Instr := .numStart :: pseudoNumScalars ss ++ [.numEnd]

/-- A NUMD stream of a text. -/
def numdStream (cs : List Ch) : List Instr := .numdStart :: pseudoNumdText cs ++ [.numdEnd]

/-- `n` commands, each of which responded `OK`. -/
def allOk (n : Nat) : List Response := List.replicate n .ok

end Sys2Proof.Machine
end

