-- ==== Sys2Proof/WellFormed.lean ====
section
/-! DEFINITION. Which field values a command's rule allows, judged from the word alone: the conditions of
60_exceptions.md R230 but for LUTRD's comparison with `LEN`, which depends on the state. An ill-formed command still has
a word and still decodes; executed in its phase it raises `IllegalOperand` (log entry 11). -/

namespace Sys2Proof

/-- `c` is a Unicode scalar value (R8). -/
def scalarValue (c : Ch) : Bool :=
  decide (c.toNat ≤ Config.maxScalar) && !(decide (Config.surrLo ≤ c.toNat) && decide (c.toNat ≤ Config.surrHi))

/-- No field of the command holds a value its rule excludes whatever the state (R230). -/
def Instr.wellFormed : Instr → Bool
  | .nop => true
  | .srst => true
  | .rdstat => true
  | .rderr => true
  | .rdlen _ => true
  | .lutclr _ => true
  | .lutapp _ c => scalarValue c
  | .lutrd b i => decide (i.toNat < Config.bankLen b)
  | .aclr => true
  | .pushbyte _ => true
  | .pushbits v w => decide (1 ≤ w.toNat) && decide (w.toNat ≤ 8) && decide (v.toNat < 2 ^ w.toNat)
  | .extract w => decide (1 ≤ w.toNat) && decide (w.toNat ≤ 32)
  | .flush w => decide (1 ≤ w.toNat) && decide (w.toNat ≤ 32)
  | .encStart b => decide (b ≠ .six)
  | .encByte _ => true
  | .encEnd => true
  | .decStart r _ => decide (r = .r32 ∨ r = .r64)
  | .decSym c => scalarValue c
  | .decEnd => true
  | .numStart => true
  | .numScalar c => scalarValue c
  | .numEnd => true
  | .numdStart => true
  | .numdSym c => scalarValue c
  | .numdEnd => true

end Sys2Proof
end

