-- ==== Sys2Proof/Certificates/Slice0/Obligations.lean ====
section
/-! DEFINITION. The statements about the block for the provers. A statement names the rule of spec/ it formalises. The
block is `toBlock`; `input` and `responses` beside it are the model's own ports (log entries 1 and 2). -/

open Sys2Proof Sys2Proof.Machine

/-! ### Reset and the step -/

/-- R39: the value of every piece of state after reset. Every register and every `LEN` is 0, `out` is empty, every bank
is invalid. (What an unwritten LUT entry holds is unspecified and not said here.) -/
def Obligations.ResetGivesEveryRegisterItsValue : Prop :=
  let s := State.reset
  s.buffer = 0#64 ∧ s.bitCount = 0#7 ∧ s.blkCount = 0#3 ∧ s.numPend = false ∧ s.nval = 0#21 ∧ s.nhave = false ∧
    s.phase = .idle ∧ s.radix = .r32 ∧ s.strict = false ∧ s.err = none ∧ s.errcmd = 0#32 ∧
    (∀ b, s.len b = 0#8 ∧ s.bankValid b = false) ∧ s.out = [] ∧ s.status = 0#32

/-- The invariant holds at reset. -/
def Obligations.ResetMeetsInvariant : Prop := BlockInv Block.reset

/-- R9: a step takes the word presented and executes it. When it decodes to a command, step is exec of that command on
the state with the word taken; the step adds nothing around it. -/
def Obligations.StepExecutesTheDecodedCommand : Prop :=
  ∀ (s : State) (cmd : Word) (rest : List HostInput) (i : Instr),
    s.input = .command cmd :: rest → decode cmd = .ok i → step s = exec i { s with input := rest }

/-- R229: a word that matches no row of the opcode table raises `IllegalCommand` in an unfaulted block, in every phase;
R223, R234: a faulted block refuses it and changes nothing. -/
def Obligations.StepOnIllegalWord : Prop :=
  ∀ (s : State) (cmd : Word) (rest : List HostInput),
    s.input = .command cmd :: rest → (∀ r ∈ opcodeTable, r.selects cmd = false) →
      (s.err = none → step s = .next
        { s with input := rest, err := some .illegalCommand, errcmd := cmd, responses := responded s .fault }) ∧
      (s.err ≠ none → step s = .next { s with input := rest, responses := responded s .refused })

/-- R250, R245: a reset gives the reset state and no response, with what the host does next untouched (the model's
choice, log entry 4); with nothing presented the block keeps its state. -/
def Obligations.StepOnResetAndOnNothing : Prop :=
  ∀ s : State,
    (∀ rest, s.input = .reset :: rest → step s = .next { State.reset with input := rest }) ∧
      (s.input = [] → step s = .next s)

/-! ### Decoding and encoding -/

/-- Words of the spec (R77 and the vectors of 95_test_vectors.md) and what they decode to. -/
def Obligations.DecodeReadsTheWordsOfTheSpec : Prop :=
  decode 0x30000001#32 = .ok (.encStart .r64) ∧ decode 0x3100004D#32 = .ok (.encByte 0x4D#8) ∧
    decode 0x40000004#32 = .ok (.decStart .r32 true) ∧ decode 0x1160200E#32 = .ok (.lutapp .six 0x200E#21) ∧
    decode 0x22000513#32 = .ok (.pushbits 0x13#8 5#4) ∧ decode 0x12000154#32 = .ok (.lutrd .r85 84#7) ∧
    decode 0x6100FEFF#32 = .ok (.numdSym 0xFEFF#21) ∧ decode 0x00000000#32 = .ok .nop ∧
    decode 0x01000001#32 = .error (.nonzeroReserved 0x01#8) ∧
    decode 0xFFFFFFFF#32 = .error (.unassignedOpcode 0xFF#8)

/-- Decoding the word of a command gives the command back, for every command and every value of every field. -/
def Obligations.DecodeOfEncodeIsTheCommand : Prop := ∀ i : Instr, decode (encode i) = .ok i

/-- R74: no bit of a word is ignored. A word that decodes to a command is the encoding of that command, so two words
never stand for one command, and `ERRCMD` (the encoding of the faulting command) is the word presented. -/
def Obligations.EncodeOfDecodeIsTheWord : Prop :=
  ∀ (cmd : Word) (i : Instr), decode cmd = .ok i → encode i = cmd

/-- R73: a word decodes to a command of a row of the table exactly when `cmd & mask == match`; it is illegal exactly
when no row matches; the rows are pairwise disjoint. -/
def Obligations.DecodeSelectsTheRowOfTheTable : Prop :=
  (∀ cmd : Word, ∀ r ∈ opcodeTable, (∃ i, decode cmd = .ok i ∧ i.mnemonic = r.mnemonic) ↔ r.selects cmd = true) ∧
    (∀ cmd : Word, (∃ e, decode cmd = .error e) ↔ ∀ r ∈ opcodeTable, r.selects cmd = false) ∧
    opcodeTable.Pairwise fun r r' => ∀ cmd : Word, ¬(r.selects cmd = true ∧ r'.selects cmd = true)

/-! ### The accumulator functions -/

/-- R101, R102, R103 (and the bounds of R100): within their preconditions the three functions keep `cnt' < W` and
`buf' < 2^cnt'`, the `mod 2^W` of a push and the `mod 2^w` of a flush change nothing, and an index fits its chunk. -/
def Obligations.AccumulatorFunctionsKeepTheBounds : Prop :=
  ∀ a : Acc, a.cnt < Config.W → a.buf < 2 ^ a.cnt →
    (∀ v w, 1 ≤ w → v < 2 ^ w → a.cnt + w ≤ Config.W - 1 →
      accPush a v w = ⟨a.buf * 2 ^ w + v, a.cnt + w⟩ ∧ a.buf * 2 ^ w + v < 2 ^ (a.cnt + w)) ∧
    (∀ w, 1 ≤ w → w ≤ a.cnt →
      (accTake a w).1 < 2 ^ w ∧ (accTake a w).2.cnt = a.cnt - w ∧ (accTake a w).2.buf < 2 ^ (a.cnt - w) ∧
        a.buf = (accTake a w).1 * 2 ^ (a.cnt - w) + (accTake a w).2.buf) ∧
    (∀ w, 0 < a.cnt → a.cnt < w →
      accFlush a w = (a.buf * 2 ^ (w - a.cnt), ⟨0, 0⟩) ∧ a.buf * 2 ^ (w - a.cnt) < 2 ^ w)

/-- R104: a drain yields exactly `cnt div w` indices, the first holding the oldest bits, and leaves `cnt mod w` bits. -/
def Obligations.DrainYieldsTheChunksInOrder : Prop :=
  ∀ (a : Acc) (w : Nat), 1 ≤ w → a.buf < 2 ^ a.cnt →
    accDrain a w =
      ((List.range (a.cnt / w)).map fun k => a.buf / 2 ^ (a.cnt - (k + 1) * w) % 2 ^ w,
        ⟨a.buf % 2 ^ (a.cnt % w), a.cnt % w⟩)

/-- R113: the bit-string view. A push appends the bits of its value; a take removes the first `w` bits and returns
them; a flush returns the whole string followed by zero bits and leaves the empty string; and for pushes each followed
by a drain, from an empty accumulator, the indices are the successive `w`-bit pieces of everything pushed and what
remains is its last `total mod w` bits. -/
def Obligations.AccumulatorIsABitString : Prop :=
  (∀ (a : Acc) (v w : Nat), a.buf < 2 ^ a.cnt → 1 ≤ w → v < 2 ^ w → a.cnt + w ≤ Config.W - 1 →
    (accPush a v w).held = a.held ++ bitsOf w v) ∧
  (∀ (a : Acc) (w : Nat), a.buf < 2 ^ a.cnt → 1 ≤ w → w ≤ a.cnt →
    (accTake a w).1 = valueOf (a.held.take w) ∧ (accTake a w).2.held = a.held.drop w) ∧
  (∀ (a : Acc) (w : Nat), a.buf < 2 ^ a.cnt → 0 < a.cnt → a.cnt < w →
    (accFlush a w).1 = valueOf (a.held ++ List.replicate (w - a.cnt) false) ∧ (accFlush a w).2.held = []) ∧
  (∀ (w : Nat) (ps : List (Nat × Nat)), 1 ≤ w →
    (∀ p ∈ ps, 1 ≤ p.2 ∧ p.1 < 2 ^ p.2 ∧ w - 1 + p.2 ≤ Config.W - 1) →
    let all := ps.flatMap fun p => bitsOf p.2 p.1
    (pushAllDraining w ps ⟨0, 0⟩).1 = pieces w (all.length / w) all ∧
      (pushAllDraining w ps ⟨0, 0⟩).2.held = all.drop (all.length / w * w))

/-! ### Accumulator commands -/

/-- R108. -/
def Obligations.AclrEmptiesTheAccumulator : Prop :=
  (encode .aclr).toNat = 0x20000000 ∧
  ∀ s : State, s.err = none →
    OutOfPhase .aclr .idle s ∧
      (s.phase = .idle →
        exec .aclr s = .next { s with buffer := 0#64, bitCount := 0#7, responses := responded s .ok })

/-- R109: the byte enters below the held bits, or `AccOverflow` and nothing else. -/
def Obligations.PushbyteAppendsEightBits : Prop :=
  (∀ byte, (encode (.pushbyte byte)).toNat = 0x21000000 + byte.toNat) ∧
  ∀ (s : State) (byte : Byte), s.err = none →
    OutOfPhase (.pushbyte byte) .idle s ∧
      (s.phase = .idle → Config.W - 1 < s.bitCount.toNat + 8 →
        exec (.pushbyte byte) s = .next (faultState .accOverflow (.pushbyte byte) s)) ∧
      (s.phase = .idle → s.bitCount.toNat + 8 ≤ Config.W - 1 →
        exec (.pushbyte byte) s = .next
          { s with
            buffer := BitVec.ofNat 64 (s.buffer.toNat * 256 + byte.toNat)
            bitCount := BitVec.ofNat 7 (s.bitCount.toNat + 8)
            responses := responded s .ok })

/-- R110: the operand check comes before the overflow check. -/
def Obligations.PushbitsAppendsItsBits : Prop :=
  (∀ value width, (encode (.pushbits value width)).toNat = 0x22000000 + width.toNat * 2 ^ 8 + value.toNat) ∧
  ∀ (s : State) (value : BitVec 8) (width : BitVec 4), s.err = none →
    let i := Instr.pushbits value width
    let w := width.toNat
    let legal := 1 ≤ w ∧ w ≤ 8 ∧ value.toNat < 2 ^ w
    OutOfPhase i .idle s ∧
      (s.phase = .idle → ¬legal → exec i s = .next (faultState .illegalOperand i s)) ∧
      (s.phase = .idle → legal → Config.W - 1 < s.bitCount.toNat + w →
        exec i s = .next (faultState .accOverflow i s)) ∧
      (s.phase = .idle → legal → s.bitCount.toNat + w ≤ Config.W - 1 →
        exec i s = .next
          { s with
            buffer := BitVec.ofNat 64 (s.buffer.toNat * 2 ^ w + value.toNat)
            bitCount := BitVec.ofNat 7 (s.bitCount.toNat + w)
            responses := responded s .ok })

/-- R111: `bitCount div width` indices leave, oldest bits first, possibly none. -/
def Obligations.ExtractEmitsTheChunks : Prop :=
  (∀ width, (encode (.extract width)).toNat = 0x23000000 + width.toNat) ∧
  ∀ (s : State) (width : BitVec 6), s.err = none →
    let i := Instr.extract width
    let w := width.toNat
    let buf := s.buffer.toNat
    let cnt := s.bitCount.toNat
    OutOfPhase i .idle s ∧
      (s.phase = .idle → ¬(1 ≤ w ∧ w ≤ 32) → exec i s = .next (faultState .illegalOperand i s)) ∧
      (s.phase = .idle → 1 ≤ w ∧ w ≤ 32 → AccInv s.toBlock →
        exec i s = .next
          { s with
            buffer := BitVec.ofNat 64 (buf % 2 ^ (cnt % w))
            bitCount := BitVec.ofNat 7 (cnt % w)
            out := s.out ++ (List.range (cnt / w)).map fun k =>
              .index (BitVec.ofNat 32 (buf / 2 ^ (cnt - (k + 1) * w) % 2 ^ w))
            responses := responded s .ok })

/-- R112: the held bits left-aligned in one final index; nothing from an empty accumulator; `AccUnderdrained` when a
whole chunk is still held. -/
def Obligations.FlushEmitsTheRemainder : Prop :=
  (∀ width, (encode (.flush width)).toNat = 0x24000000 + width.toNat) ∧
  ∀ (s : State) (width : BitVec 6), s.err = none →
    let i := Instr.flush width
    let w := width.toNat
    let cnt := s.bitCount.toNat
    OutOfPhase i .idle s ∧
      (s.phase = .idle → ¬(1 ≤ w ∧ w ≤ 32) → exec i s = .next (faultState .illegalOperand i s)) ∧
      (s.phase = .idle → 1 ≤ w ∧ w ≤ 32 → w ≤ cnt → exec i s = .next (faultState .accUnderdrained i s)) ∧
      (s.phase = .idle → 1 ≤ w ∧ w ≤ 32 → cnt = 0 → exec i s = .next { s with responses := responded s .ok }) ∧
      (s.phase = .idle → 1 ≤ w ∧ w ≤ 32 → 0 < cnt → cnt < w → AccInv s.toBlock →
        exec i s = .next
          { s with
            buffer := 0#64
            bitCount := 0#7
            out := s.out ++ [.index (BitVec.ofNat 32 (s.buffer.toNat * 2 ^ (w - cnt)))]
            responses := responded s .ok })

/-! ### The alphabet look-up table -/

/-- R121: `LEN[bank]` becomes 0; the stored entries and the other banks are untouched. -/
def Obligations.LutclrEmptiesTheBank : Prop :=
  (∀ bank, (encode (.lutclr bank)).toNat = 0x10000000 + bank.bits.toNat) ∧
  ∀ (s : State) (bank : Bank), s.err = none →
    OutOfPhase (.lutclr bank) .idle s ∧
      (s.phase = .idle → ∃ t, exec (.lutclr bank) s = .next t ∧
        (∀ b, t.len b = if b = bank then 0#8 else s.len b) ∧
        t = { s with
              len32 := t.len32, len64 := t.len64, len85 := t.len85, len6 := t.len6
              responses := responded s .ok })

/-- R122: the character is stored at `128*bank + LEN[bank]` while there is room and counted up to 255; every other LUT
address reads as before. -/
def Obligations.LutappStoresAndCounts : Prop :=
  (∀ bank char, (encode (.lutapp bank char)).toNat = 0x11000000 + bank.bits.toNat * 2 ^ 21 + char.toNat) ∧
  ∀ (s : State) (bank : Bank) (char : Ch), s.err = none →
    let i := Instr.lutapp bank char
    let n := (s.len bank).toNat
    OutOfPhase i .idle s ∧
      (s.phase = .idle → scalarValue char = false → exec i s = .next (faultState .illegalOperand i s)) ∧
      (s.phase = .idle → scalarValue char = true → ∃ t, exec i s = .next t ∧
        (∀ a, Memory.read t.lut a =
          if a = lutAddr bank n ∧ n < Config.bankLen bank then some char else Memory.read s.lut a) ∧
        (∀ b, (t.len b).toNat = if b = bank then min (n + 1) 255 else (s.len b).toNat) ∧
        t = { s with
              lut := t.lut
              len32 := t.len32, len64 := t.len64, len85 := t.len85, len6 := t.len6
              responses := responded s .ok })

/-- R123: a written entry leaves as a `CHAR` item; a hole or an unwritten entry is `IllegalOperand`. -/
def Obligations.LutrdEmitsTheEntry : Prop :=
  (∀ bank index, (encode (.lutrd bank index)).toNat = 0x12000000 + bank.bits.toNat * 2 ^ 7 + index.toNat) ∧
  ∀ (s : State) (bank : Bank) (index : BitVec 7), s.err = none →
    let i := Instr.lutrd bank index
    let bad := Config.bankLen bank ≤ index.toNat ∨ (s.len bank).toNat ≤ index.toNat
    OutOfPhase i .idle s ∧
      (s.phase = .idle → bad → exec i s = .next (faultState .illegalOperand i s)) ∧
      (s.phase = .idle → ¬bad → LutInv s.toBlock → ∃ c, Memory.read s.lut (lutAddr bank index.toNat) = some c ∧
        exec i s = .next { s with out := s.out ++ [.char c], responses := responded s .ok })

/-- R124: supplying an alphabet of `k` characters leaves `LEN = min(k, 255)` and the first `min(k, N)` of them in the
bank in order; the bank is valid exactly when `k = N`. The other banks and every register are untouched. -/
def Obligations.LutloadSuppliesTheAlphabet : Prop :=
  ∀ (s : State) (b : Bank) (cs : List Ch), ReadyIn .idle s → (∀ c ∈ cs, scalarValue c = true) →
    ∃ t, execAll (pseudoLutload b cs) s = .next t ∧
      (t.len b).toNat = min cs.length 255 ∧
      (∀ i < min cs.length (Config.bankLen b), Memory.read t.lut (lutAddr b i) = cs[i]?) ∧
      (t.bankValid b = true ↔ cs.length = Config.bankLen b) ∧
      (∀ b', b' ≠ b → t.len b' = s.len b' ∧
        ∀ i < Config.bankLen b', Memory.read t.lut (lutAddr b' i) = Memory.read s.lut (lutAddr b' i)) ∧
      t = { s with
            lut := t.lut
            len32 := t.len32, len64 := t.len64, len85 := t.len85, len6 := t.len6
            responses := s.responses ++ allOk (cs.length + 1) }

/-- R52, R120: the LUT is written by LUTAPP alone, at `128*bank + LEN[bank]`, and `LEN` by LUTAPP and LUTCLR alone, both
only in phase IDLE; every other command leaves the whole LUT and every `LEN` as they were. -/
def Obligations.OnlyLutCommandsWriteTheLut : Prop :=
  ∀ (i : Instr) (s t : State), exec i s = .next t →
    ((∀ b c, i ≠ .lutapp b c) → t.lut = s.lut) ∧
    (∀ b c, i = .lutapp b c → ∀ a, a ≠ lutAddr b (s.len b).toNat → Memory.read t.lut a = Memory.read s.lut a) ∧
    ((∀ b c, i ≠ .lutapp b c) → (∀ b, i ≠ .lutclr b) → ∀ b, t.len b = s.len b) ∧
    (s.phase ≠ .idle → t.lut = s.lut ∧ ∀ b, t.len b = s.len b)

/-- R55: the reverse look-up in a valid bank answers the least index of the character, and `none` exactly when it
stands at no index. -/
def Obligations.ReverseLookupFindsTheLeastIndex : Prop :=
  ∀ (s : State) (b : Bank) (c : Ch), LutInv s.toBlock → s.bankValid b = true →
    (∀ i < Config.bankLen b, lutAt s.toBlock b i = c → (∀ j < i, lutAt s.toBlock b j ≠ c) →
        rev s.lut b c = .ok (some i)) ∧
      ((∀ i < Config.bankLen b, lutAt s.toBlock b i ≠ c) → rev s.lut b c = .ok none)

/-! ### The symbol generator -/

/-- R136. -/
def Obligations.EncStartOpensTheStream : Prop :=
  (∀ bank, (encode (.encStart bank)).toNat = 0x30000000 + bank.bits.toNat) ∧
  ∀ (s : State) (bank : Bank), s.err = none →
    let i := Instr.encStart bank
    OutOfPhase i .idle s ∧
      (s.phase = .idle → bank = .six → exec i s = .next (faultState .illegalOperand i s)) ∧
      (s.phase = .idle → bank ≠ .six → (s.len bank).toNat ≠ Config.bankLen bank →
        exec i s = .next (faultState .alphabetSizeMismatch i s)) ∧
      (s.phase = .idle → bank ≠ .six → (s.len bank).toNat = Config.bankLen bank →
        exec i s = .next
          { s with
            buffer := 0#64, bitCount := 0#7, blkCount := 0#3, radix := bank, phase := .enc
            responses := responded s .ok })

/-- R137: the byte is pushed and whole chunks leave as characters; in radix 85 five characters leave at the fourth byte
of a group. -/
def Obligations.EncByteEmitsTheChunks : Prop :=
  (∀ byte, (encode (.encByte byte)).toNat = 0x31000000 + byte.toNat) ∧
  ∀ (s : State) (byte : Byte), s.err = none →
    let i := Instr.encByte byte
    let v := s.buffer.toNat * 256 + byte.toNat
    let n := s.bitCount.toNat + 8
    OutOfPhase i .enc s ∧
      (s.phase = .enc → BlockInv s.toBlock → ∀ w blk, Config.blockParams s.radix = some (w, blk) →
        exec i s = .next
          { s with
            buffer := BitVec.ofNat 64 (v % 2 ^ (n % w))
            bitCount := BitVec.ofNat 7 (n % w)
            blkCount := BitVec.ofNat 3 ((s.blkCount.toNat + n / w) % blk)
            out := s.out ++ (List.range (n / w)).map fun k =>
              .char (lutAt s.toBlock s.radix (v / 2 ^ (n - (k + 1) * w) % 2 ^ w))
            responses := responded s .ok }) ∧
      (s.phase = .enc → BlockInv s.toBlock → s.radix = .r85 → n < 32 →
        exec i s = .next
          { s with
            buffer := BitVec.ofNat 64 v, bitCount := BitVec.ofNat 7 n, responses := responded s .ok }) ∧
      (s.phase = .enc → BlockInv s.toBlock → s.radix = .r85 → n = 32 →
        exec i s = .next
          { s with
            buffer := 0#64
            bitCount := 0#7
            out := s.out ++ (digits85 v).map fun d => .char (lutAt s.toBlock .r85 d)
            responses := responded s .ok })

/-- R138: the remainder is flushed as one symbol and the block is padded; in radix 85 a last group of `k` bytes gives
`k + 1` characters and no padding. -/
def Obligations.EncEndFlushesAndPads : Prop :=
  (encode .encEnd).toNat = 0x32000000 ∧
  ∀ s : State, s.err = none →
    let cnt := s.bitCount.toNat
    let ended := { s with
      buffer := 0#64, bitCount := 0#7, blkCount := 0#3, phase := .idle, responses := responded s .ok }
    OutOfPhase .encEnd .enc s ∧
      (s.phase = .enc → BlockInv s.toBlock → ∀ w blk, Config.blockParams s.radix = some (w, blk) →
        let tail := if cnt = 0 then [] else [Item.char (lutAt s.toBlock s.radix (s.buffer.toNat * 2 ^ (w - cnt)))]
        let pads := (blk - (s.blkCount.toNat + tail.length) % blk) % blk
        exec .encEnd s = .next
          { ended with out := s.out ++ tail ++ List.replicate pads (.char Config.pad) }) ∧
      (s.phase = .enc → BlockInv s.toBlock → s.radix = .r85 →
        let ds := if cnt = 0 then [] else (digits85 (s.buffer.toNat * 2 ^ (32 - cnt))).take (cnt / 8 + 1)
        exec .encEnd s = .next { ended with out := s.out ++ ds.map fun d => .char (lutAt s.toBlock .r85 d) })

/-- R141: `digits85(v)` is the five base-85 digits of a 32-bit value, most significant first, the first at most 82. -/
def Obligations.Digits85AreTheBase85Digits : Prop :=
  ∀ v < 2 ^ 32,
    (digits85 v).length = 5 ∧ (∀ d ∈ digits85 v, d < 85) ∧ (∀ d ∈ (digits85 v).head?, d ≤ 82) ∧
      (∀ i < 5, (digits85 v)[i]? = some (v / 85 ^ (4 - i) % 85)) ∧
      (digits85 v).foldl (fun n d => n * 85 + d) 0 = v

/-- R139: the text of a whole stream, radix 32 and 64. -/
def Obligations.EncStreamEmitsTheText : Prop :=
  ∀ (s : State) (b : Bank) (w blk : Nat) (bs : List Byte), BlockInv s.toBlock → ReadyIn .idle s →
    Config.blockParams b = some (w, blk) → s.bankValid b = true →
      ∃ t, execAll (encStream b bs) s = .next t ∧ t.err = none ∧ t.phase = .idle ∧
        t.out = s.out ++ (blockText w blk (lutAt s.toBlock b) bs).map Item.char ∧
        t.responses = s.responses ++ allOk (bs.length + 2)

/-- R142, R143: the text of a whole stream, radix 85: five characters for each group of four bytes, `k + 1` for a last
group of `k`, no padding. -/
def Obligations.EncStream85EmitsTheText : Prop :=
  ∀ (s : State) (bs : List Byte), BlockInv s.toBlock → ReadyIn .idle s → s.bankValid .r85 = true →
    ∃ t, execAll (encStream .r85 bs) s = .next t ∧ t.err = none ∧ t.phase = .idle ∧
      t.out = s.out ++ (text85 bs).map (fun d => Item.char (lutAt s.toBlock .r85 d)) ∧
      t.responses = s.responses ++ allOk (bs.length + 2)

/-- R140, R144: the number of characters a whole stream emits for `n` bytes. -/
def Obligations.EncStreamHasTheStatedLength : Prop :=
  ∀ (s : State) (b : Bank) (bs : List Byte), BlockInv s.toBlock → ReadyIn .idle s → b ≠ .six → s.bankValid b = true →
    let n := bs.length
    ∃ t, execAll (encStream b bs) s = .next t ∧
      (b = .r64 → t.out.length = s.out.length + (n + 2) / 3 * 4) ∧
      (b = .r32 → t.out.length = s.out.length + (n + 4) / 5 * 8) ∧
      (b = .r85 → t.out.length = s.out.length + (5 * (n / 4) + if n % 4 = 0 then 0 else n % 4 + 1))

/-- R150: the round-trip law of radix 85. The reference inverse of the digits a stream emits is its input. -/
def Obligations.Radix85RoundTrip : Prop :=
  ∀ (s : State) (bs : List Byte), BlockInv s.toBlock → ReadyIn .idle s → s.bankValid .r85 = true →
    ∃ t ds, execAll (encStream .r85 bs) s = .next t ∧
      t.out = s.out ++ ds.map (fun d => Item.char (lutAt s.toBlock .r85 d)) ∧ (∀ d ∈ ds, d < 85) ∧ dec85Ref ds = some bs

/-! ### The symbol absorber -/

/-- R159. -/
def Obligations.DecStartOpensTheStream : Prop :=
  (∀ radix strict, (encode (.decStart radix strict)).toNat = 0x40000000 + strict.toNat * 2 ^ 2 + radix.bits.toNat) ∧
  ∀ (s : State) (radix : Bank) (strict : Bool), s.err = none →
    let i := Instr.decStart radix strict
    let legal := radix = .r32 ∨ radix = .r64
    OutOfPhase i .idle s ∧
      (s.phase = .idle → ¬legal → exec i s = .next (faultState .illegalOperand i s)) ∧
      (s.phase = .idle → legal → (s.len radix).toNat ≠ Config.bankLen radix →
        exec i s = .next (faultState .alphabetSizeMismatch i s)) ∧
      (s.phase = .idle → legal → (s.len radix).toNat = Config.bankLen radix →
        exec i s = .next
          { s with
            buffer := 0#64, bitCount := 0#7, blkCount := 0#3, radix := radix, strict := strict, phase := .dec
            responses := responded s .ok })

/-- R160: a data symbol pushes its index and may yield a byte; a pad character is counted; any other character is
`InvalidSymbol` in a strict stream and changes nothing in a permissive one. -/
def Obligations.DecSymAbsorbsTheCharacter : Prop :=
  (∀ c, (encode (.decSym c)).toNat = 0x41000000 + c.toNat) ∧
  ∀ (s : State) (c : Ch), s.err = none →
    let x := Instr.decSym c
    let absent := ∀ i < Config.bankLen s.radix, lutAt s.toBlock s.radix i ≠ c
    OutOfPhase x .dec s ∧
      (s.phase = .dec → scalarValue c = false → exec x s = .next (faultState .illegalOperand x s)) ∧
      (s.phase = .dec → scalarValue c = true → BlockInv s.toBlock → ∀ w blk,
        Config.blockParams s.radix = some (w, blk) →
        (∀ i < Config.bankLen s.radix, lutAt s.toBlock s.radix i = c →
          (∀ j < i, lutAt s.toBlock s.radix j ≠ c) →
          let v := s.buffer.toNat * 2 ^ w + i
          let n := s.bitCount.toNat + w
          let m := if 8 ≤ n then n - 8 else n
          exec x s = .next
            { s with
              buffer := BitVec.ofNat 64 (v % 2 ^ m)
              bitCount := BitVec.ofNat 7 m
              blkCount := BitVec.ofNat 3 ((s.blkCount.toNat + 1) % blk)
              out := s.out ++ if 8 ≤ n then [.byte (BitVec.ofNat 8 (v / 2 ^ (n - 8)))] else []
              responses := responded s .ok }) ∧
        (absent → c = Config.pad →
          exec x s = .next
            { s with
              blkCount := BitVec.ofNat 3 ((s.blkCount.toNat + 1) % blk), responses := responded s .ok }) ∧
        (absent → c ≠ Config.pad → s.strict = true → exec x s = .next (faultState .invalidSymbol x s)) ∧
        (absent → c ≠ Config.pad → s.strict = false → exec x s = .next { s with responses := responded s .ok }))

/-- R161, R163: `MalformedLength` when a whole symbol is left over or the count is not a multiple of the block length;
else the held bits are dropped and the stream closes. -/
def Obligations.DecEndChecksTheLength : Prop :=
  (encode .decEnd).toNat = 0x42000000 ∧
  ∀ s : State, s.err = none →
    OutOfPhase .decEnd .dec s ∧
      (s.phase = .dec → ∀ w blk, Config.blockParams s.radix = some (w, blk) →
        (w ≤ s.bitCount.toNat ∨ s.blkCount ≠ 0#3 →
          exec .decEnd s = .next (faultState .malformedLength .decEnd s)) ∧
        (s.bitCount.toNat < w → s.blkCount = 0#3 →
          exec .decEnd s = .next
            { s with buffer := 0#64, bitCount := 0#7, phase := .idle, responses := responded s .ok }))

/-- R162, R163: when a whole DEC stream ends `OK`, and the bytes it then has emitted. `idx` is the index of each data
symbol of the text. -/
def Obligations.DecStreamEmitsTheBytes : Prop :=
  ∀ (s : State) (b : Bank) (w blk : Nat) (strict : Bool) (cs : List Ch), BlockInv s.toBlock → ReadyIn .idle s →
    Config.blockParams b = some (w, blk) → s.bankValid b = true → (∀ c ∈ cs, scalarValue c = true) →
      let find := fun c => (List.range (Config.bankLen b)).find? fun i => lutAt s.toBlock b i == c
      let idx := cs.filterMap find
      let counted := (cs.filter fun c => (find c).isSome || c == Config.pad).length
      ∃ t, execAll (decStream b strict cs) s = .next t ∧
        (t.err = none ↔
          (strict = true → ∀ c ∈ cs, (find c).isSome = true ∨ c = Config.pad) ∧
            w * idx.length % 8 < w ∧ counted % blk = 0) ∧
        (t.err = none → t.phase = .idle ∧ t.out = s.out ++ (blockBytes w idx).map Item.byte)

/-- R164: the round trip of radix 32 and 64. The characters an ENC stream emits, sent to a DEC stream of the same radix,
strict or permissive, make every command respond `OK` and give the bytes back. -/
def Obligations.DecOfEncIsTheInput : Prop :=
  ∀ (s : State) (b : Bank) (strict : Bool) (bs : List Byte), BlockInv s.toBlock → ReadyIn .idle s →
    b = .r32 ∨ b = .r64 →
    s.bankValid b = true → DistinctBank s.toBlock b → PadFree s.toBlock b →
      ∃ t cs u, execAll (encStream b bs) s = .next t ∧ t.out = s.out ++ cs.map Item.char ∧
        execAll (decStream b strict cs) t = .next u ∧ u.out = t.out ++ bs.map Item.byte ∧
        u.responses = t.responses ++ allOk (cs.length + 2)

/-! ### The numeral encoder -/

/-- R176: `digits5(v)` is the base-5 digits of `v`, most significant first, without leading zeros, one digit for 0; at
most nine for a scalar. -/
def Obligations.Digits5AreTheBase5Digits : Prop :=
  ∀ v : Nat,
    (∀ d ∈ digits5 v, d < 5) ∧ numeralValue (digits5 v) = v ∧ 1 ≤ (digits5 v).length ∧
      v < 5 ^ (digits5 v).length ∧ (∀ l, 1 ≤ l → v < 5 ^ l → (digits5 v).length ≤ l) ∧
      (v ≠ 0 → (digits5 v).head? ≠ some 0) ∧ digits5 0 = [0] ∧ (v ≤ Config.maxScalar → (digits5 v).length ≤ 9)

/-- R178. -/
def Obligations.NumStartOpensTheStream : Prop :=
  (encode .numStart).toNat = 0x50000000 ∧
  ∀ s : State, s.err = none →
    OutOfPhase .numStart .idle s ∧
      (s.phase = .idle → (s.len .six).toNat ≠ 6 → exec .numStart s = .next (faultState .alphabetSizeMismatch .numStart s)) ∧
      (s.phase = .idle → (s.len .six).toNat = 6 →
        exec .numStart s = .next
          { s with numPend := false, radix := .six, phase := .num, responses := responded s .ok })

/-- R179: the delimiter before every scalar but the first, then the digits; the accumulator is untouched. -/
def Obligations.NumScalarEmitsTheNumeral : Prop :=
  (∀ c, (encode (.numScalar c)).toNat = 0x51000000 + c.toNat) ∧
  ∀ (s : State) (c : Ch), s.err = none →
    let i := Instr.numScalar c
    OutOfPhase i .num s ∧
      (s.phase = .num → scalarValue c = false → exec i s = .next (faultState .illegalOperand i s)) ∧
      (s.phase = .num → scalarValue c = true → BlockInv s.toBlock →
        exec i s = .next
          { s with
            numPend := true
            out := s.out ++ ((if s.numPend then [5] else []) ++ digits5 c.toNat).map fun d => .char (lutAt s.toBlock .six d)
            responses := responded s .ok })

/-- R180: nothing is emitted; the trailing delimiter never was. -/
def Obligations.NumEndClosesTheStream : Prop :=
  (encode .numEnd).toNat = 0x52000000 ∧
  ∀ s : State, s.err = none →
    OutOfPhase .numEnd .num s ∧
      (s.phase = .num →
        exec .numEnd s = .next { s with numPend := false, phase := .idle, responses := responded s .ok })

/-- R181: the text of a whole payload: a delimiter between every two neighbours, none at the end. -/
def Obligations.NumStreamEmitsThePayload : Prop :=
  ∀ (s : State) (ss : List Ch), BlockInv s.toBlock → ReadyIn .idle s → s.bankValid .six = true →
    (∀ c ∈ ss, scalarValue c = true) →
      ∃ t, execAll (numStream ss) s = .next t ∧ t.err = none ∧ t.phase = .idle ∧
        t.out = s.out ++ (payloadIndices (ss.map BitVec.toNat)).map (fun d => Item.char (lutAt s.toBlock .six d)) ∧
        t.responses = s.responses ++ allOk (ss.length + 2)

/-- R182: the round trip of the numeral codec. -/
def Obligations.NumdOfNumIsTheInput : Prop :=
  ∀ (s : State) (ss : List Ch), BlockInv s.toBlock → ReadyIn .idle s → s.bankValid .six = true →
    DistinctBank s.toBlock .six →
    (∀ c ∈ ss, scalarValue c = true) →
      ∃ t cs u, execAll (numStream ss) s = .next t ∧ t.out = s.out ++ cs.map Item.char ∧
        execAll (numdStream cs) t = .next u ∧ u.out = t.out ++ ss.map Item.scalar ∧
        u.responses = t.responses ++ allOk (cs.length + 2)

/-! ### The numeral decoder -/

/-- R191. -/
def Obligations.NumdStartOpensTheStream : Prop :=
  (encode .numdStart).toNat = 0x60000000 ∧
  ∀ s : State, s.err = none →
    OutOfPhase .numdStart .idle s ∧
      (s.phase = .idle → (s.len .six).toNat ≠ 6 →
        exec .numdStart s = .next (faultState .alphabetSizeMismatch .numdStart s)) ∧
      (s.phase = .idle → (s.len .six).toNat = 6 →
        exec .numdStart s = .next
          { s with nval := 0#21, nhave := false, radix := .six, phase := .numd, responses := responded s .ok })

/-- R192, R193, R195: a digit is multiplied and added in unless the value would pass 0x10FFFF; the delimiter closes the
group, which yields its value unless it is a surrogate, and nothing when it is empty. -/
def Obligations.NumdSymAbsorbsTheCharacter : Prop :=
  (∀ c, (encode (.numdSym c)).toNat = 0x61000000 + c.toNat) ∧
  ∀ (s : State) (c : Ch), s.err = none →
    let x := Instr.numdSym c
    let surrogate := s.nhave = true ∧ 0xD800 ≤ s.nval.toNat ∧ s.nval.toNat ≤ 0xDFFF
    OutOfPhase x .numd s ∧
      (s.phase = .numd → scalarValue c = false → exec x s = .next (faultState .illegalOperand x s)) ∧
      (s.phase = .numd → scalarValue c = true → BlockInv s.toBlock →
        ((∀ i < 6, lutAt s.toBlock .six i ≠ c) → exec x s = .next (faultState .invalidSymbol x s)) ∧
        (∀ i < 6, lutAt s.toBlock .six i = c → (∀ j < i, lutAt s.toBlock .six j ≠ c) →
          (i = 5 → surrogate → exec x s = .next (faultState .outOfRange x s)) ∧
          (i = 5 → ¬surrogate →
            exec x s = .next
              { s with
                nval := 0#21
                nhave := false
                out := s.out ++ if s.nhave then [.scalar s.nval] else []
                responses := responded s .ok }) ∧
          (i < 5 → 0x10FFFF < s.nval.toNat * 5 + i → exec x s = .next (faultState .outOfRange x s)) ∧
          (i < 5 → s.nval.toNat * 5 + i ≤ 0x10FFFF →
            exec x s = .next
              { s with
                nval := BitVec.ofNat 21 (s.nval.toNat * 5 + i), nhave := true, responses := responded s .ok })))

/-- R194, R195: the end of the stream closes the last group. -/
def Obligations.NumdEndClosesTheLastGroup : Prop :=
  (encode .numdEnd).toNat = 0x62000000 ∧
  ∀ s : State, s.err = none →
    let surrogate := s.nhave = true ∧ 0xD800 ≤ s.nval.toNat ∧ s.nval.toNat ≤ 0xDFFF
    OutOfPhase .numdEnd .numd s ∧
      (s.phase = .numd → surrogate → exec .numdEnd s = .next (faultState .outOfRange .numdEnd s)) ∧
      (s.phase = .numd → ¬surrogate →
        exec .numdEnd s = .next
          { s with
            nval := 0#21
            nhave := false
            phase := .idle
            out := s.out ++ if s.nhave then [.scalar s.nval] else []
            responses := responded s .ok })

/-- R197: a whole NUMD stream ends `OK` exactly when every character is one of the six and the value of every piece
that is not empty is a scalar value; its scalars are then those values in order. -/
def Obligations.NumdStreamEmitsTheScalars : Prop :=
  ∀ (s : State) (cs : List Ch), BlockInv s.toBlock → ReadyIn .idle s → s.bankValid .six = true →
    (∀ c ∈ cs, scalarValue c = true) →
      let find := fun c => (List.range 6).find? fun i => lutAt s.toBlock .six i == c
      let vs := groupValues (cs.filterMap find)
      ∃ t, execAll (numdStream cs) s = .next t ∧
        (t.err = none ↔
          (∀ c ∈ cs, (find c).isSome = true) ∧ ∀ v ∈ vs, v ≤ 0x10FFFF ∧ ¬(0xD800 ≤ v ∧ v ≤ 0xDFFF)) ∧
        (t.err = none → t.phase = .idle ∧ t.out = s.out ++ vs.map fun v => .scalar (BitVec.ofNat 21 v))

/-! ### System commands -/

/-- R206: NOP changes nothing, in any phase, faulted or not. -/
def Obligations.NopChangesNothing : Prop :=
  (encode .nop).toNat = 0 ∧
  ∀ s : State, exec .nop s = .next { s with responses := responded s .ok }

/-- R207: after SRST the state is the reset state but for `LEN`, the LUT and `out`, in any phase, faulted or not. -/
def Obligations.SrstClearsTheRegisters : Prop :=
  (encode .srst).toNat = 0x01000000 ∧
  ∀ s : State, exec .srst s = .next
    { State.reset with
      len32 := s.len32, len64 := s.len64, len85 := s.len85, len6 := s.len6
      lut := s.lut, out := s.out, input := s.input, responses := responded s .ok }

/-- R208, R209, R210: the read commands emit STATUS, ERRCMD and `LEN[bank]` and change nothing, in any phase, faulted or
not. STATUS is the sum R208 writes. -/
def Obligations.ReadCommandsEmitTheRegisters : Prop :=
  ((encode .rdstat).toNat = 0x02000000 ∧ (encode .rderr).toNat = 0x03000000 ∧
      ∀ bank, (encode (.rdlen bank)).toNat = 0x04000000 + bank.bits.toNat) ∧
  ∀ s : State,
    exec .rdstat s = .next { s with
      out := s.out ++ [.word (BitVec.ofNat 32
        ((errCode s.err).toNat + s.phase.code.toNat * 2 ^ 4 + s.radix.bits.toNat * 2 ^ 7 + s.strict.toNat * 2 ^ 9 +
          s.numPend.toNat * 2 ^ 10 + s.nhave.toNat * 2 ^ 11 + s.blkCount.toNat * 2 ^ 12 + s.bitCount.toNat * 2 ^ 16))]
      responses := responded s .ok } ∧
    exec .rderr s = .next { s with out := s.out ++ [.word s.errcmd], responses := responded s .ok } ∧
    ∀ bank, exec (.rdlen bank) s = .next { s with
      out := s.out ++ [.word (BitVec.ofNat 32 (s.len bank).toNat)], responses := responded s .ok }

/-- R36: the fields of STATUS by their bits, the reserved bits zero; the codes that stand in `PHASE` (R26), `RADIX`
(R27) and `ERR` (R220). -/
def Obligations.StatusHasTheStatedLayout : Prop :=
  [Phase.idle, .enc, .dec, .num, .numd].map Phase.code = [0#3, 1#3, 2#3, 3#3, 4#3] ∧
  [Bank.r32, .r64, .r85, .six].map Bank.bits = [0#2, 1#2, 2#2, 3#2] ∧
  [none, some .alphabetSizeMismatch, some .invalidSymbol, some .malformedLength, some .outOfRange,
      some .illegalCommand, some .illegalOperand, some .illegalSequence, some .accOverflow,
      some .accUnderdrained].map errCode =
    [0#4, 1#4, 2#4, 3#4, 4#4, 5#4, 6#4, 7#4, 8#4, 9#4] ∧
  ∀ s : State,
    s.status.extractLsb 3 0 = errCode s.err ∧ s.status.extractLsb 6 4 = s.phase.code ∧
      s.status.extractLsb 8 7 = s.radix.bits ∧ s.status.getLsbD 9 = s.strict ∧ s.status.getLsbD 10 = s.numPend ∧
      s.status.getLsbD 11 = s.nhave ∧ s.status.extractLsb 14 12 = s.blkCount ∧ s.status.getLsbD 15 = false ∧
      s.status.extractLsb 22 16 = s.bitCount ∧ s.status.extractLsb 31 23 = 0#9

/-! ### Faults, refusals, and rules over every command -/

/-- R222: a command that responds `FAULT` writes `ERR` (which was 0) and `ERRCMD` and changes nothing else. -/
def Obligations.FaultChangesOnlyErrAndErrcmd : Prop :=
  ∀ (i : Instr) (s t : State), exec i s = .next t → t.responses = responded s .fault →
    s.err = none ∧ ∃ c, t = { s with err := some c, errcmd := encode i, responses := responded s .fault }

/-- R223: a faulted block refuses every word but those of the five system commands and changes nothing, and only SRST
or reset ends the faulted condition or changes what `ERR` and `ERRCMD` record. -/
def Obligations.FaultedBlockRefuses : Prop :=
  ∀ s : State, s.err ≠ none →
    (∀ cmd rest, s.input = .command cmd :: rest → (∀ i, decode cmd = .ok i → legalPhase i ≠ none) →
      step s = .next { s with input := rest, responses := responded s .refused }) ∧
    (∀ t, step s = .next t → t.err ≠ s.err ∨ t.errcmd ≠ s.errcmd →
      ∃ rest, s.input = .reset :: rest ∨ s.input = .command 0x01000000#32 :: rest)

/-- R221: every command produces exactly one response, of code 0, 1 or 2. R10, R223: it is `REFUSED` exactly when the
block was faulted and the command is no system command. R10, R222: it is `FAULT` exactly when the command raised a
fault. The last clause is about the model's choice of two ports beside the block (log entries 1 and 2, DESIGN CHOICE):
whatever stands at `input` and `responses`, the same command takes the same block to the same block with the same
response, and it leaves `input` as it is. -/
def Obligations.EveryCommandRespondsOnce : Prop :=
  [Response.ok, .fault, .refused].map Response.code = [0, 1, 2] ∧
  ∀ (i : Instr) (s t : State), exec i s = .next t →
    ∃ r, t = { s with toBlock := t.toBlock, responses := s.responses ++ [r] } ∧
      (r = .refused ↔ s.err ≠ none ∧ legalPhase i ≠ none) ∧ (r = .fault ↔ s.err = none ∧ t.err ≠ none) ∧
      ∀ input responses,
        exec i { toBlock := s.toBlock, input := input, responses := responses } =
          .next { toBlock := t.toBlock, input := input, responses := responses ++ [r] }

/-- R33, R261: items are only appended, none unless the response is `OK`, at most 63 by one command; the 36-bit wire
form of each item is its tag code above its value. -/
def Obligations.OutputIsOnlyAppendedTo : Prop :=
  ((∀ c, (Item.char c).wire.toNat = c.toNat) ∧ (∀ v, (Item.index v).wire.toNat = 1 * 2 ^ 32 + v.toNat) ∧
    (∀ b, (Item.byte b).wire.toNat = 2 * 2 ^ 32 + b.toNat) ∧
    (∀ c, (Item.scalar c).wire.toNat = 3 * 2 ^ 32 + c.toNat) ∧
    ∀ w, (Item.word w).wire.toNat = 4 * 2 ^ 32 + w.toNat) ∧
  ∀ (i : Instr) (s t : State), AccInv s.toBlock → exec i s = .next t →
    ∃ items, t.out = s.out ++ items ∧ items.length ≤ 63 ∧ (t.responses ≠ responded s .ok → items = [])

/-- R231: a command outside its phase raises `IllegalSequence`. -/
def Obligations.CommandOutsideItsPhaseFaults : Prop :=
  ∀ (i : Instr) (p : Phase) (s : State), legalPhase i = some p → s.err = none → s.phase ≠ p →
    exec i s = .next (faultState .illegalSequence i s)

/-- R230: in its phase, a command raises `IllegalOperand` exactly when one of its fields holds a value its rule
excludes; for LUTRD also an index not below `LEN[bank]`. -/
def Obligations.IllegalOperandExactlyWhenExcluded : Prop :=
  ∀ (i : Instr) (p : Phase) (s : State), legalPhase i = some p → ReadyIn p s →
    (exec i s = .next (faultState .illegalOperand i s) ↔
      i.wellFormed = false ∨ ∃ b x, i = .lutrd b x ∧ (s.len b).toNat ≤ x.toNat)

/-- R26: PHASE changes only by a START command in IDLE, by the END command of the open stream, or by SRST, and only
with the response `OK`. -/
def Obligations.PhaseChangesOnlyByStartEndAndSrst : Prop :=
  ∀ (i : Instr) (s t : State), exec i s = .next t → t.phase ≠ s.phase →
    t.responses = responded s .ok ∧
      (i = .srst ∧ t.phase = .idle ∨
       s.phase = .idle ∧ ((∃ b, i = .encStart b) ∧ t.phase = .enc ∨ (∃ b x, i = .decStart b x) ∧ t.phase = .dec ∨
          i = .numStart ∧ t.phase = .num ∨ i = .numdStart ∧ t.phase = .numd) ∨
       t.phase = .idle ∧ (i = .encEnd ∧ s.phase = .enc ∨ i = .decEnd ∧ s.phase = .dec ∨
          i = .numEnd ∧ s.phase = .num ∨ i = .numdEnd ∧ s.phase = .numd))

/-- R38: no stream's result depends on any earlier stream or on earlier accumulator commands. Two unfaulted idle blocks
with the same alphabets answer a START and any commands of its stream with the same items and the same responses. -/
def Obligations.StreamsAreIndependentOfThePast : Prop :=
  ∀ (s s' : State) (start : Instr) (p : Phase) (is : List Instr), BlockInv s.toBlock → BlockInv s'.toBlock →
    ReadyIn .idle s → ReadyIn .idle s' →
    s.lut = s'.lut → (∀ b, s.len b = s'.len b) →
    ((∃ b, start = .encStart b) ∧ p = .enc ∨ (∃ b x, start = .decStart b x) ∧ p = .dec ∨
      start = .numStart ∧ p = .num ∨ start = .numdStart ∧ p = .numd) →
    (∀ i ∈ is, legalPhase i = some p) →
      ∃ t t' items rs, execAll (start :: is) s = .next t ∧ execAll (start :: is) s' = .next t' ∧
        t.out = s.out ++ items ∧ t'.out = s'.out ++ items ∧
        t.responses = s.responses ++ rs ∧ t'.responses = s'.responses ++ rs

/-- Every step keeps the invariant: R23, R27, R29, R30, R31, R32, R53, R106 in every state that meets it. -/
def Obligations.EveryStepKeepsTheInvariant : Prop :=
  ∀ s t : State, BlockInv s.toBlock → step s = .next t → BlockInv t.toBlock

/-- R259: no sequence of words is undefined. From every state that meets the invariant, whatever the host does, the
model never stops: it meets no unwritten or absent LUT entry (R53, R54) and applies no accumulator function outside its
precondition (R100, R106). -/
def Obligations.TheBlockNeverStops : Prop := ∀ s : State, BlockInv s.toBlock → NeverStops s
end

