-- ==== Sys2Proof/Laws/Memory.lean ====
section
/-! SUPPORT. The LUT: a read after a write, and the canonical form that every memory operation keeps. -/

namespace Sys2Proof.Machine

theorem Memory.read_write_same (m : Memory) (a : Nat) (c : Ch) : Memory.read (Memory.write m a c) a = some c := by
  induction m with
  | nil => simp [Memory.write, Memory.read]
  | cons p m ih =>
    obtain ⟨a', c'⟩ := p
    unfold Memory.write
    split_ifs with h1 h2
    · simp [Memory.read]
    · simp [Memory.read]
    · simp [Memory.read, h2, ih]

theorem Memory.read_write_other (m : Memory) {a b : Nat} (c : Ch) (h : b ≠ a) :
    Memory.read (Memory.write m a c) b = Memory.read m b := by
  induction m with
  | nil => simp [Memory.write, Memory.read, h]
  | cons p m ih =>
    obtain ⟨a', c'⟩ := p
    unfold Memory.write
    split_ifs with h1 h2
    · simp [Memory.read, h]
    · subst h2; simp [Memory.read, h]
    · by_cases hb : b = a'
      · simp [Memory.read, hb]
      · simp [Memory.read, hb, ih]

/-- What the LUT reads after a write. -/
theorem Memory.read_write (m : Memory) (a b : Nat) (c : Ch) :
    Memory.read (Memory.write m a c) b = if b = a then some c else Memory.read m b := by
  split_ifs with h
  · rw [h, Memory.read_write_same]
  · exact Memory.read_write_other m c h

theorem Memory.risingFrom_mono {lo lo' : Nat} {m : Memory} (h : Memory.risingFrom lo m = true) (hl : lo' ≤ lo) :
    Memory.risingFrom lo' m = true := by
  cases m with
  | nil => rfl
  | cons p m =>
    simp only [Memory.risingFrom, Bool.and_eq_true, decide_eq_true_eq] at h ⊢
    exact ⟨hl.trans h.1, h.2⟩

/-- A write at or above `lo` keeps the addresses rising from `lo`. -/
theorem Memory.risingFrom_write {lo a : Nat} (c : Ch) {m : Memory} (h : Memory.risingFrom lo m = true) (ha : lo ≤ a) :
    Memory.risingFrom lo (Memory.write m a c) = true := by
  induction m generalizing lo with
  | nil => simp [Memory.write, Memory.risingFrom, ha]
  | cons p m ih =>
    obtain ⟨a', c'⟩ := p
    simp only [Memory.risingFrom, Bool.and_eq_true, decide_eq_true_eq] at h
    unfold Memory.write
    split_ifs with h1 h2
    · simp only [Memory.risingFrom, Bool.and_eq_true, decide_eq_true_eq]
      exact ⟨ha, h1, h.2⟩
    · subst h2
      simp only [Memory.risingFrom, Bool.and_eq_true, decide_eq_true_eq]
      exact ⟨ha, h.2⟩
    · simp only [Memory.risingFrom, Bool.and_eq_true, decide_eq_true_eq]
      exact ⟨h.1, ih h.2 (by omega)⟩

/-- Every entry of a written LUT is the one written or one that stood there. -/
theorem Memory.mem_write {m : Memory} {a : Nat} {c : Ch} {p : Nat × Ch} (h : p ∈ Memory.write m a c) :
    p = (a, c) ∨ p ∈ m := by
  induction m with
  | nil => simpa [Memory.write] using h
  | cons q m ih =>
    obtain ⟨a', c'⟩ := q
    unfold Memory.write at h
    split_ifs at h with h1 h2
    · simpa using h
    · rcases List.mem_cons.1 h with h | h
      · exact .inl h
      · exact .inr (List.mem_cons_of_mem _ h)
    · rcases List.mem_cons.1 h with h | h
      · exact .inr (h ▸ List.mem_cons_self)
      · exact (ih h).imp_right (List.mem_cons_of_mem _)

/-- A write to an address that exists keeps the canonical form. -/
theorem Memory.wf_write {m : Memory} {a : Nat} (c : Ch) (h : Memory.wf m = true) (ha : addrExists a = true) :
    Memory.wf (Memory.write m a c) = true := by
  simp only [Memory.wf, Bool.and_eq_true, List.all_eq_true] at h ⊢
  refine ⟨Memory.risingFrom_write c h.1 (Nat.zero_le a), fun p hp => ?_⟩
  rcases Memory.mem_write hp with rfl | hp
  · exact ha
  · exact h.2 p hp

theorem Memory.wf_reset : Memory.wf State.reset.lut = true := rfl

/-- A listed address reads as an entry that is listed. -/
theorem Memory.mem_of_read {m : Memory} {a : Nat} {c : Ch} (h : Memory.read m a = some c) : (a, c) ∈ m := by
  induction m with
  | nil => simp [Memory.read] at h
  | cons p m ih =>
    obtain ⟨a', c'⟩ := p
    unfold Memory.read at h
    split_ifs at h with h1
    · subst h1; simp only [Option.some.injEq] at h; simp [h]
    · exact List.mem_cons_of_mem _ (ih h)

/-! ### Addresses (R51) -/

/-- Entry `i` of bank `b` exists when `i < N[b]`. -/
theorem addrExists_lutAddr {b : Bank} {i : Nat} (h : i < Config.bankLen b) : addrExists (lutAddr b i) = true := by
  cases b <;> simp [Config.bankLen] at h <;> simp [addrExists, lutAddr, Bank.bits] <;> omega

/-- Distinct entries have distinct addresses. -/
theorem lutAddr_inj {b b' : Bank} {i i' : Nat} (h : i < Config.bankLen b) (h' : i' < Config.bankLen b')
    (e : lutAddr b i = lutAddr b' i') : b = b' ∧ i = i' := by
  cases b <;> cases b' <;> simp [Config.bankLen] at h h' <;> simp [lutAddr, Bank.bits] at e ⊢ <;> omega

/-- `LUT[b][i]` of a written entry. -/
theorem lutEntry_of_read {m : Memory} {b : Bank} {i : Nat} {c : Ch} (h : i < Config.bankLen b)
    (hr : Memory.read m (lutAddr b i) = some c) : lutEntry m b i = .ok c := by
  simp [lutEntry, h, memRead, addrExists_lutAddr h, hr]

end Sys2Proof.Machine
end

