-- ==== Sys2Proof/Laws/State.lean ====
section
/-! SUPPORT. One lemma per field and update of the state, each true by rfl, so that no proof unfolds an update. -/

namespace Sys2Proof.Machine

section Updates

variable (s : Block)

/-! ### softReset -/

@[simp] theorem softReset_buffer : (softReset s).buffer = 0#64 := rfl
@[simp] theorem softReset_bitCount : (softReset s).bitCount = 0#7 := rfl
@[simp] theorem softReset_blkCount : (softReset s).blkCount = 0#3 := rfl
@[simp] theorem softReset_numPend : (softReset s).numPend = false := rfl
@[simp] theorem softReset_nval : (softReset s).nval = 0#21 := rfl
@[simp] theorem softReset_nhave : (softReset s).nhave = false := rfl
@[simp] theorem softReset_phase : (softReset s).phase = .idle := rfl
@[simp] theorem softReset_radix : (softReset s).radix = .r32 := rfl
@[simp] theorem softReset_strict : (softReset s).strict = false := rfl
@[simp] theorem softReset_err : (softReset s).err = none := rfl
@[simp] theorem softReset_errcmd : (softReset s).errcmd = 0#32 := rfl
@[simp] theorem softReset_len32 : (softReset s).len32 = s.len32 := rfl
@[simp] theorem softReset_len64 : (softReset s).len64 = s.len64 := rfl
@[simp] theorem softReset_len85 : (softReset s).len85 = s.len85 := rfl
@[simp] theorem softReset_len6 : (softReset s).len6 = s.len6 := rfl
@[simp] theorem softReset_lut : (softReset s).lut = s.lut := rfl
@[simp] theorem softReset_out : (softReset s).out = s.out := rfl

/-! ### raiseFault -/

@[simp] theorem raiseFault_buffer (c : Cause) (w : Word) : ((raiseFault c w s).1).buffer = s.buffer := rfl
@[simp] theorem raiseFault_bitCount (c : Cause) (w : Word) : ((raiseFault c w s).1).bitCount = s.bitCount := rfl
@[simp] theorem raiseFault_blkCount (c : Cause) (w : Word) : ((raiseFault c w s).1).blkCount = s.blkCount := rfl
@[simp] theorem raiseFault_numPend (c : Cause) (w : Word) : ((raiseFault c w s).1).numPend = s.numPend := rfl
@[simp] theorem raiseFault_nval (c : Cause) (w : Word) : ((raiseFault c w s).1).nval = s.nval := rfl
@[simp] theorem raiseFault_nhave (c : Cause) (w : Word) : ((raiseFault c w s).1).nhave = s.nhave := rfl
@[simp] theorem raiseFault_phase (c : Cause) (w : Word) : ((raiseFault c w s).1).phase = s.phase := rfl
@[simp] theorem raiseFault_radix (c : Cause) (w : Word) : ((raiseFault c w s).1).radix = s.radix := rfl
@[simp] theorem raiseFault_strict (c : Cause) (w : Word) : ((raiseFault c w s).1).strict = s.strict := rfl
@[simp] theorem raiseFault_err (c : Cause) (w : Word) : ((raiseFault c w s).1).err = some c := rfl
@[simp] theorem raiseFault_errcmd (c : Cause) (w : Word) : ((raiseFault c w s).1).errcmd = w := rfl
@[simp] theorem raiseFault_len32 (c : Cause) (w : Word) : ((raiseFault c w s).1).len32 = s.len32 := rfl
@[simp] theorem raiseFault_len64 (c : Cause) (w : Word) : ((raiseFault c w s).1).len64 = s.len64 := rfl
@[simp] theorem raiseFault_len85 (c : Cause) (w : Word) : ((raiseFault c w s).1).len85 = s.len85 := rfl
@[simp] theorem raiseFault_len6 (c : Cause) (w : Word) : ((raiseFault c w s).1).len6 = s.len6 := rfl
@[simp] theorem raiseFault_lut (c : Cause) (w : Word) : ((raiseFault c w s).1).lut = s.lut := rfl
@[simp] theorem raiseFault_out (c : Cause) (w : Word) : ((raiseFault c w s).1).out = s.out := rfl
@[simp] theorem raiseFault_response (c : Cause) (w : Word) : (raiseFault c w s).2 = .fault := rfl

/-! ### emit -/

@[simp] theorem emit_buffer (is : List Item) : (emit is s).buffer = s.buffer := rfl
@[simp] theorem emit_bitCount (is : List Item) : (emit is s).bitCount = s.bitCount := rfl
@[simp] theorem emit_blkCount (is : List Item) : (emit is s).blkCount = s.blkCount := rfl
@[simp] theorem emit_numPend (is : List Item) : (emit is s).numPend = s.numPend := rfl
@[simp] theorem emit_nval (is : List Item) : (emit is s).nval = s.nval := rfl
@[simp] theorem emit_nhave (is : List Item) : (emit is s).nhave = s.nhave := rfl
@[simp] theorem emit_phase (is : List Item) : (emit is s).phase = s.phase := rfl
@[simp] theorem emit_radix (is : List Item) : (emit is s).radix = s.radix := rfl
@[simp] theorem emit_strict (is : List Item) : (emit is s).strict = s.strict := rfl
@[simp] theorem emit_err (is : List Item) : (emit is s).err = s.err := rfl
@[simp] theorem emit_errcmd (is : List Item) : (emit is s).errcmd = s.errcmd := rfl
@[simp] theorem emit_len32 (is : List Item) : (emit is s).len32 = s.len32 := rfl
@[simp] theorem emit_len64 (is : List Item) : (emit is s).len64 = s.len64 := rfl
@[simp] theorem emit_len85 (is : List Item) : (emit is s).len85 = s.len85 := rfl
@[simp] theorem emit_len6 (is : List Item) : (emit is s).len6 = s.len6 := rfl
@[simp] theorem emit_lut (is : List Item) : (emit is s).lut = s.lut := rfl
@[simp] theorem emit_out (is : List Item) : (emit is s).out = s.out ++ is := rfl

/-! ### emitChars -/

@[simp] theorem emitChars_buffer (cs : List Ch) : (emitChars cs s).buffer = s.buffer := rfl
@[simp] theorem emitChars_bitCount (cs : List Ch) : (emitChars cs s).bitCount = s.bitCount := rfl
@[simp] theorem emitChars_blkCount (cs : List Ch) : (emitChars cs s).blkCount = s.blkCount := rfl
@[simp] theorem emitChars_numPend (cs : List Ch) : (emitChars cs s).numPend = s.numPend := rfl
@[simp] theorem emitChars_nval (cs : List Ch) : (emitChars cs s).nval = s.nval := rfl
@[simp] theorem emitChars_nhave (cs : List Ch) : (emitChars cs s).nhave = s.nhave := rfl
@[simp] theorem emitChars_phase (cs : List Ch) : (emitChars cs s).phase = s.phase := rfl
@[simp] theorem emitChars_radix (cs : List Ch) : (emitChars cs s).radix = s.radix := rfl
@[simp] theorem emitChars_strict (cs : List Ch) : (emitChars cs s).strict = s.strict := rfl
@[simp] theorem emitChars_err (cs : List Ch) : (emitChars cs s).err = s.err := rfl
@[simp] theorem emitChars_errcmd (cs : List Ch) : (emitChars cs s).errcmd = s.errcmd := rfl
@[simp] theorem emitChars_len32 (cs : List Ch) : (emitChars cs s).len32 = s.len32 := rfl
@[simp] theorem emitChars_len64 (cs : List Ch) : (emitChars cs s).len64 = s.len64 := rfl
@[simp] theorem emitChars_len85 (cs : List Ch) : (emitChars cs s).len85 = s.len85 := rfl
@[simp] theorem emitChars_len6 (cs : List Ch) : (emitChars cs s).len6 = s.len6 := rfl
@[simp] theorem emitChars_lut (cs : List Ch) : (emitChars cs s).lut = s.lut := rfl
@[simp] theorem emitChars_out (cs : List Ch) : (emitChars cs s).out = s.out ++ cs.map Item.char := rfl

/-! ### Block.setAcc -/

@[simp] theorem Block.setAcc_buffer (a : Acc) : (s.setAcc a).buffer = BitVec.ofNat 64 a.buf := rfl
@[simp] theorem Block.setAcc_bitCount (a : Acc) : (s.setAcc a).bitCount = BitVec.ofNat 7 a.cnt := rfl
@[simp] theorem Block.setAcc_blkCount (a : Acc) : (s.setAcc a).blkCount = s.blkCount := rfl
@[simp] theorem Block.setAcc_numPend (a : Acc) : (s.setAcc a).numPend = s.numPend := rfl
@[simp] theorem Block.setAcc_nval (a : Acc) : (s.setAcc a).nval = s.nval := rfl
@[simp] theorem Block.setAcc_nhave (a : Acc) : (s.setAcc a).nhave = s.nhave := rfl
@[simp] theorem Block.setAcc_phase (a : Acc) : (s.setAcc a).phase = s.phase := rfl
@[simp] theorem Block.setAcc_radix (a : Acc) : (s.setAcc a).radix = s.radix := rfl
@[simp] theorem Block.setAcc_strict (a : Acc) : (s.setAcc a).strict = s.strict := rfl
@[simp] theorem Block.setAcc_err (a : Acc) : (s.setAcc a).err = s.err := rfl
@[simp] theorem Block.setAcc_errcmd (a : Acc) : (s.setAcc a).errcmd = s.errcmd := rfl
@[simp] theorem Block.setAcc_len32 (a : Acc) : (s.setAcc a).len32 = s.len32 := rfl
@[simp] theorem Block.setAcc_len64 (a : Acc) : (s.setAcc a).len64 = s.len64 := rfl
@[simp] theorem Block.setAcc_len85 (a : Acc) : (s.setAcc a).len85 = s.len85 := rfl
@[simp] theorem Block.setAcc_len6 (a : Acc) : (s.setAcc a).len6 = s.len6 := rfl
@[simp] theorem Block.setAcc_lut (a : Acc) : (s.setAcc a).lut = s.lut := rfl
@[simp] theorem Block.setAcc_out (a : Acc) : (s.setAcc a).out = s.out := rfl

/-! ### Block.setBlk -/

@[simp] theorem Block.setBlk_buffer (n : Nat) : (s.setBlk n).buffer = s.buffer := rfl
@[simp] theorem Block.setBlk_bitCount (n : Nat) : (s.setBlk n).bitCount = s.bitCount := rfl
@[simp] theorem Block.setBlk_blkCount (n : Nat) : (s.setBlk n).blkCount = BitVec.ofNat 3 n := rfl
@[simp] theorem Block.setBlk_numPend (n : Nat) : (s.setBlk n).numPend = s.numPend := rfl
@[simp] theorem Block.setBlk_nval (n : Nat) : (s.setBlk n).nval = s.nval := rfl
@[simp] theorem Block.setBlk_nhave (n : Nat) : (s.setBlk n).nhave = s.nhave := rfl
@[simp] theorem Block.setBlk_phase (n : Nat) : (s.setBlk n).phase = s.phase := rfl
@[simp] theorem Block.setBlk_radix (n : Nat) : (s.setBlk n).radix = s.radix := rfl
@[simp] theorem Block.setBlk_strict (n : Nat) : (s.setBlk n).strict = s.strict := rfl
@[simp] theorem Block.setBlk_err (n : Nat) : (s.setBlk n).err = s.err := rfl
@[simp] theorem Block.setBlk_errcmd (n : Nat) : (s.setBlk n).errcmd = s.errcmd := rfl
@[simp] theorem Block.setBlk_len32 (n : Nat) : (s.setBlk n).len32 = s.len32 := rfl
@[simp] theorem Block.setBlk_len64 (n : Nat) : (s.setBlk n).len64 = s.len64 := rfl
@[simp] theorem Block.setBlk_len85 (n : Nat) : (s.setBlk n).len85 = s.len85 := rfl
@[simp] theorem Block.setBlk_len6 (n : Nat) : (s.setBlk n).len6 = s.len6 := rfl
@[simp] theorem Block.setBlk_lut (n : Nat) : (s.setBlk n).lut = s.lut := rfl
@[simp] theorem Block.setBlk_out (n : Nat) : (s.setBlk n).out = s.out := rfl

/-! ### freshStream -/

@[simp] theorem freshStream_buffer : (freshStream s).buffer = 0#64 := rfl
@[simp] theorem freshStream_bitCount : (freshStream s).bitCount = 0#7 := rfl
@[simp] theorem freshStream_blkCount : (freshStream s).blkCount = 0#3 := rfl
@[simp] theorem freshStream_numPend : (freshStream s).numPend = s.numPend := rfl
@[simp] theorem freshStream_nval : (freshStream s).nval = s.nval := rfl
@[simp] theorem freshStream_nhave : (freshStream s).nhave = s.nhave := rfl
@[simp] theorem freshStream_phase : (freshStream s).phase = s.phase := rfl
@[simp] theorem freshStream_radix : (freshStream s).radix = s.radix := rfl
@[simp] theorem freshStream_strict : (freshStream s).strict = s.strict := rfl
@[simp] theorem freshStream_err : (freshStream s).err = s.err := rfl
@[simp] theorem freshStream_errcmd : (freshStream s).errcmd = s.errcmd := rfl
@[simp] theorem freshStream_len32 : (freshStream s).len32 = s.len32 := rfl
@[simp] theorem freshStream_len64 : (freshStream s).len64 = s.len64 := rfl
@[simp] theorem freshStream_len85 : (freshStream s).len85 = s.len85 := rfl
@[simp] theorem freshStream_len6 : (freshStream s).len6 = s.len6 := rfl
@[simp] theorem freshStream_lut : (freshStream s).lut = s.lut := rfl
@[simp] theorem freshStream_out : (freshStream s).out = s.out := rfl

/-! ### Block.setLen -/

@[simp] theorem Block.setLen_buffer (b : Bank) (v : BitVec 8) : (s.setLen b v).buffer = s.buffer := by cases b <;> rfl
@[simp] theorem Block.setLen_bitCount (b : Bank) (v : BitVec 8) : (s.setLen b v).bitCount = s.bitCount := by cases b <;> rfl
@[simp] theorem Block.setLen_blkCount (b : Bank) (v : BitVec 8) : (s.setLen b v).blkCount = s.blkCount := by cases b <;> rfl
@[simp] theorem Block.setLen_numPend (b : Bank) (v : BitVec 8) : (s.setLen b v).numPend = s.numPend := by cases b <;> rfl
@[simp] theorem Block.setLen_nval (b : Bank) (v : BitVec 8) : (s.setLen b v).nval = s.nval := by cases b <;> rfl
@[simp] theorem Block.setLen_nhave (b : Bank) (v : BitVec 8) : (s.setLen b v).nhave = s.nhave := by cases b <;> rfl
@[simp] theorem Block.setLen_phase (b : Bank) (v : BitVec 8) : (s.setLen b v).phase = s.phase := by cases b <;> rfl
@[simp] theorem Block.setLen_radix (b : Bank) (v : BitVec 8) : (s.setLen b v).radix = s.radix := by cases b <;> rfl
@[simp] theorem Block.setLen_strict (b : Bank) (v : BitVec 8) : (s.setLen b v).strict = s.strict := by cases b <;> rfl
@[simp] theorem Block.setLen_err (b : Bank) (v : BitVec 8) : (s.setLen b v).err = s.err := by cases b <;> rfl
@[simp] theorem Block.setLen_errcmd (b : Bank) (v : BitVec 8) : (s.setLen b v).errcmd = s.errcmd := by cases b <;> rfl
@[simp] theorem Block.setLen_lut (b : Bank) (v : BitVec 8) : (s.setLen b v).lut = s.lut := by cases b <;> rfl
@[simp] theorem Block.setLen_out (b : Bank) (v : BitVec 8) : (s.setLen b v).out = s.out := by cases b <;> rfl

/-- What `LEN` reads after `LEN[b] <- v`. -/
@[simp] theorem Block.len_setLen (b b' : Bank) (v : BitVec 8) :
    (s.setLen b v).len b' = if b' = b then v else s.len b' := by cases b <;> cases b' <;> rfl

/-! ### Block.len and Block.acc through the updates that do not touch them -/

@[simp] theorem softReset_len (b : Bank) : (softReset s).len b = s.len b := by cases b <;> rfl
@[simp] theorem raiseFault_len (c : Cause) (w : Word) (b : Bank) : ((raiseFault c w s).1).len b = s.len b := by cases b <;> rfl
@[simp] theorem raiseFault_acc (c : Cause) (w : Word) : ((raiseFault c w s).1).acc = s.acc := rfl
@[simp] theorem emit_len (is : List Item) (b : Bank) : (emit is s).len b = s.len b := by cases b <;> rfl
@[simp] theorem emit_acc (is : List Item) : (emit is s).acc = s.acc := rfl
@[simp] theorem emitChars_len (cs : List Ch) (b : Bank) : (emitChars cs s).len b = s.len b := by cases b <;> rfl
@[simp] theorem emitChars_acc (cs : List Ch) : (emitChars cs s).acc = s.acc := rfl
@[simp] theorem Block.setAcc_len (a : Acc) (b : Bank) : (s.setAcc a).len b = s.len b := by cases b <;> rfl
@[simp] theorem Block.setBlk_len (n : Nat) (b : Bank) : (s.setBlk n).len b = s.len b := by cases b <;> rfl
@[simp] theorem Block.setBlk_acc (n : Nat) : (s.setBlk n).acc = s.acc := rfl
@[simp] theorem freshStream_len (b : Bank) : (freshStream s).len b = s.len b := by cases b <;> rfl

@[simp] theorem Block.acc_buf : s.acc.buf = s.buffer.toNat := rfl
@[simp] theorem Block.acc_cnt : s.acc.cnt = s.bitCount.toNat := rfl

/-- The block is faulted exactly when `ERR` is not 0 (R223). -/
@[simp] theorem Block.faulted_eq_false : s.faulted = false ↔ s.err = none := by
  simp [Block.faulted]

@[simp] theorem Block.faulted_eq_true : s.faulted = true ↔ s.err ≠ none := by
  cases h : s.err <;> simp [Block.faulted, h]

/-- A bank is valid exactly when its count is its length (R34). -/
@[simp] theorem Block.bankValid_eq_true (b : Bank) :
    s.bankValid b = true ↔ (s.len b).toNat = Config.bankLen b := by simp [Block.bankValid]

end Updates

/-! ### The ports -/

/-- Two states are equal when their blocks and their ports are. -/
theorem State.eq_of_parts {s t : State} (hb : s.toBlock = t.toBlock) (hi : s.input = t.input)
    (hr : s.responses = t.responses) : s = t := by
  cases s; cases t; subst hb; subst hi; subst hr; rfl

@[simp] theorem deliver_ok (s : State) (b : Block) (r : Response) :
    deliver s (.ok (b, r)) = .next { s with toBlock := b, responses := s.responses ++ [r] } := rfl

@[simp] theorem deliver_error (s : State) (f : Fault) : deliver s (.error f) = .fault f := rfl

/-- Everything a delivered answer can be when it is a next state: the answer's block and response, `input` as it was. -/
theorem deliver_next {s t : State} {a : Answer} (h : deliver s a = .next t) :
    ∃ b r, a = .ok (b, r) ∧ t = { s with toBlock := b, responses := s.responses ++ [r] } := by
  match a, h with
  | .ok (b, r), h => exact ⟨b, r, rfl, (Host.Outcome.next.inj h).symm⟩

@[simp] theorem onBlock_eq (s : State) (command : Block → Answer) :
    onBlock s command = deliver s (command s.toBlock) := rfl

/-- Every command is a function of the block alone, the same at all ports (R20, R221). -/
theorem exec_eq_onBlock (i : Instr) : ∃ command : Block → Answer, ∀ s, exec i s = onBlock s command := by
  cases i
  all_goals
    apply Exists.intro
    intro s
    simp only [exec, execNop, execSrst, execRdstat, execRderr, execRdlen, execLutclr, execLutapp, execLutrd, execAclr,
      execPushbyte, execPushbits, execExtract, execFlush, execEncStart, execEncByte, execEncEnd, execDecStart, execDecSym,
      execDecEnd, execNumStart, execNumScalar, execNumEnd, execNumdStart, execNumdSym, execNumdEnd]
    rfl

@[simp] theorem presentNext_toBlock (w : Word) (s : State) : (presentNext w s).toBlock = s.toBlock := rfl
@[simp] theorem presentNext_input (w : Word) (s : State) : (presentNext w s).input = .command w :: s.input := rfl
@[simp] theorem presentNext_responses (w : Word) (s : State) : (presentNext w s).responses = s.responses := rfl

/-! ### The reset state (R39) -/

@[simp] theorem Block.reset_buffer : Block.reset.buffer = 0#64 := rfl
@[simp] theorem Block.reset_bitCount : Block.reset.bitCount = 0#7 := rfl
@[simp] theorem Block.reset_blkCount : Block.reset.blkCount = 0#3 := rfl
@[simp] theorem Block.reset_numPend : Block.reset.numPend = false := rfl
@[simp] theorem Block.reset_nval : Block.reset.nval = 0#21 := rfl
@[simp] theorem Block.reset_nhave : Block.reset.nhave = false := rfl
@[simp] theorem Block.reset_phase : Block.reset.phase = .idle := rfl
@[simp] theorem Block.reset_radix : Block.reset.radix = .r32 := rfl
@[simp] theorem Block.reset_strict : Block.reset.strict = false := rfl
@[simp] theorem Block.reset_err : Block.reset.err = none := rfl
@[simp] theorem Block.reset_errcmd : Block.reset.errcmd = 0#32 := rfl
@[simp] theorem Block.reset_len32 : Block.reset.len32 = 0#8 := rfl
@[simp] theorem Block.reset_len64 : Block.reset.len64 = 0#8 := rfl
@[simp] theorem Block.reset_len85 : Block.reset.len85 = 0#8 := rfl
@[simp] theorem Block.reset_len6 : Block.reset.len6 = 0#8 := rfl
@[simp] theorem Block.reset_lut : Block.reset.lut = [] := rfl
@[simp] theorem Block.reset_out : Block.reset.out = [] := rfl
@[simp] theorem State.reset_toBlock : State.reset.toBlock = Block.reset := rfl
@[simp] theorem State.reset_input : State.reset.input = [] := rfl
@[simp] theorem State.reset_responses : State.reset.responses = [] := rfl

/-- Reset keeps what the host does next (log entry 4). -/
theorem assertReset_eq (s : State) : assertReset s = { State.reset with input := s.input } := rfl

end Sys2Proof.Machine
end

