-- ==== Sys2Proof/Laws/Ops.lean ====
section
/-! SUPPORT. What the shared operations can do: the order of checks said once, values that operations give, and the
pieces of the invariant by name. -/

namespace Sys2Proof.Machine

/-! ### The order of checks (R234) -/

theorem runCommand_faulted {i : Instr} {p : Phase} {s : Block} {body : Effect} (h : s.err ≠ none) :
    runCommand i p s body = .ok (s, .refused) := by
  simp [runCommand, refuse, (Block.faulted_eq_true s).2 h]

theorem runCommand_wrong_phase {i : Instr} {p : Phase} {s : Block} {body : Effect} (h : s.err = none)
    (hp : s.phase ≠ p) : runCommand i p s body = .ok (raiseFault .illegalSequence (encode i) s) := by
  simp [runCommand, (Block.faulted_eq_false s).2 h, hp]

/-- Past the shared checks, the body decides. -/
theorem runCommand_ready {i : Instr} {p : Phase} {s : Block} {body : Effect} (h : s.err = none) (hp : s.phase = p) :
    runCommand i p s body =
      match body with
      | .done t => .ok (t, .ok)
      | .raise c => .ok (raiseFault c (encode i) s)
      | .stuck f => .error f := by
  cases body <;> simp [runCommand, (Block.faulted_eq_false s).2 h, hp]

/-- Everything a command that is not a system command can answer when the model does not stop. -/
theorem runCommand_ok {i : Instr} {p : Phase} {s : Block} {a : Block × Response} {body : Effect}
    (h : runCommand i p s body = .ok a) :
    (s.err ≠ none ∧ a = (s, .refused)) ∨
      (s.err = none ∧ ∃ c, a = raiseFault c (encode i) s ∧ (s.phase ≠ p ∧ c = .illegalSequence ∨
        s.phase = p ∧ body = .raise c)) ∨
      (s.err = none ∧ s.phase = p ∧ ∃ u, body = .done u ∧ a = (u, .ok)) := by
  by_cases he : s.err = none
  · right
    by_cases hp : s.phase = p
    · rw [runCommand_ready he hp] at h
      cases body with
      | done u => simp only [Except.ok.injEq] at h; exact .inr ⟨he, hp, u, rfl, h.symm⟩
      | raise c => simp only [Except.ok.injEq] at h; exact .inl ⟨he, c, h.symm, .inr ⟨hp, rfl⟩⟩
      | stuck f => simp at h
    · rw [runCommand_wrong_phase he hp] at h
      exact .inl ⟨he, _, (Except.ok.inj h).symm, .inl ⟨hp, rfl⟩⟩
  · rw [runCommand_faulted he] at h
    exact .inl ⟨he, (Except.ok.inj h).symm⟩

/-- A command stops only where its body is stuck. -/
theorem runCommand_not_stuck {i : Instr} {p : Phase} {s : Block} {body : Effect}
    (h : s.err = none → s.phase = p → ∀ f, body ≠ .stuck f) : ∃ a, runCommand i p s body = .ok a := by
  by_cases he : s.err = none
  · by_cases hp : s.phase = p
    · rw [runCommand_ready he hp]
      cases body with
      | done u => exact ⟨_, rfl⟩
      | raise c => exact ⟨_, rfl⟩
      | stuck f => exact absurd rfl (h he hp f)
    · exact ⟨_, runCommand_wrong_phase he hp⟩
  · exact ⟨_, runCommand_faulted he⟩

@[simp] theorem whenOk_ok {α : Type} (a : α) (k : α → Effect) : whenOk (.ok a) k = k a := rfl

@[simp] theorem whenOk_error {α : Type} (f : Fault) (k : α → Effect) : whenOk (.error f) k = .stuck f := rfl

/-- A body that goes on with a value: it ends as the rest does, or the operation gave none. -/
theorem whenOk_done {α : Type} {r : Except Fault α} {k : α → Effect} {u : Block} (h : whenOk r k = .done u) :
    ∃ a, r = .ok a ∧ k a = .done u := by
  cases r with
  | ok a => exact ⟨a, rfl, h⟩
  | error f => simp at h

/-! ### Values that operations give -/

/-- Forward look-up of written entries gives one character each. -/
theorem lutEntries_ok {s : Block} {b : Bank} {is : List Nat}
    (h : ∀ i ∈ is, i < Config.bankLen b ∧ (Memory.read s.lut (lutAddr b i)).isSome = true) :
    lutEntries s.lut b is = .ok (is.map (lutAt s b)) := by
  induction is with
  | nil => rfl
  | cons i is ih =>
    obtain ⟨hi, hr⟩ := h i List.mem_cons_self
    obtain ⟨c, hc⟩ := Option.isSome_iff_exists.1 hr
    simp only [lutEntries, lutEntry_of_read hi hc, ih fun j hj => h j (List.mem_cons_of_mem _ hj), List.map_cons]
    simp [lutAt, hc]

/-- An entry below `min(LEN[b], N[b])` is written (R53). -/
theorem LutInv.written {s : Block} (h : LutInv s) {b : Bank} {i : Nat} (hl : i < (s.len b).toNat)
    (hn : i < Config.bankLen b) : (Memory.read s.lut (lutAddr b i)).isSome = true :=
  h.2.2 b (by cases b <;> decide) i (lt_min hl hn)

/-- Every entry of a valid bank is written. -/
theorem LutInv.written_of_valid {s : Block} (h : LutInv s) {b : Bank} (hv : s.bankValid b = true) {i : Nat}
    (hn : i < Config.bankLen b) : (Memory.read s.lut (lutAddr b i)).isSome = true :=
  h.written (by rw [(Block.bankValid_eq_true s b).1 hv]; exact hn) hn

/-- The operand checks of the meanings are those of `Instr.wellFormed` (R230). -/
theorem isScalar_eq_scalarValue (c : Ch) : isScalar c.toNat = scalarValue c := rfl

/-- A scalar value has at most 21 bits, as `isScalar` reads them (R8). -/
theorem isScalar_iff (v : Nat) : isScalar v = true ↔ v ≤ 0x10FFFF ∧ ¬(0xD800 ≤ v ∧ v ≤ 0xDFFF) := by
  simp only [isScalar, Bool.and_eq_true, decide_eq_true_eq, Bool.not_eq_true', Bool.and_eq_false_iff,
    decide_eq_false_iff_not]
  simp only [Config.maxScalar, Config.surrLo, Config.surrHi]
  omega

/-- A digit of base 85 is below 85 (R141). -/
theorem digits85_lt {v d : Nat} (h : d ∈ digits85 v) : d < 85 := by
  simp only [digits85, List.mem_cons, List.not_mem_nil, or_false] at h
  omega

/-- A digit of base 5 is below 5 (R176). -/
theorem digits5_lt {v d : Nat} (h : d ∈ digits5 v) : d < 5 := by
  simp only [digits5, List.mem_map] at h
  obtain ⟨i, -, rfl⟩ := h
  exact Nat.mod_lt _ (by decide)

end Sys2Proof.Machine
end

