-- ==== Sys2Proof/Laws/PerInstr.lean ====
section
/-! SUPPORT. Laws stated per command. The family RowOfTable: the word of a command matches its own row of the opcode
table (30_encoding.md R73), one lemma per constructor. -/

namespace Sys2Proof.Laws.RowOfTable

/-- The encoding of the command is selected by the row that has its mnemonic. -/
def Statement (i : Instr) : Prop := ∃ r ∈ opcodeTable, r.mnemonic = i.mnemonic ∧ r.selects (encode i) = true

theorem nop : Statement .nop := ⟨⟨"NOP", 0xFFFFFFFF#32, 0x00000000#32⟩, by decide⟩

theorem srst : Statement .srst := ⟨⟨"SRST", 0xFFFFFFFF#32, 0x01000000#32⟩, by decide⟩

theorem rdstat : Statement .rdstat := ⟨⟨"RDSTAT", 0xFFFFFFFF#32, 0x02000000#32⟩, by decide⟩

theorem rderr : Statement .rderr := ⟨⟨"RDERR", 0xFFFFFFFF#32, 0x03000000#32⟩, by decide⟩

theorem aclr : Statement .aclr := ⟨⟨"ACLR", 0xFFFFFFFF#32, 0x20000000#32⟩, by decide⟩

theorem encEnd : Statement .encEnd := ⟨⟨"ENC.END", 0xFFFFFFFF#32, 0x32000000#32⟩, by decide⟩

theorem decEnd : Statement .decEnd := ⟨⟨"DEC.END", 0xFFFFFFFF#32, 0x42000000#32⟩, by decide⟩

theorem numStart : Statement .numStart := ⟨⟨"NUM.START", 0xFFFFFFFF#32, 0x50000000#32⟩, by decide⟩

theorem numEnd : Statement .numEnd := ⟨⟨"NUM.END", 0xFFFFFFFF#32, 0x52000000#32⟩, by decide⟩

theorem numdStart : Statement .numdStart := ⟨⟨"NUMD.START", 0xFFFFFFFF#32, 0x60000000#32⟩, by decide⟩

theorem numdEnd : Statement .numdEnd := ⟨⟨"NUMD.END", 0xFFFFFFFF#32, 0x62000000#32⟩, by decide⟩

theorem rdlen (b : Bank) : Statement (.rdlen b) :=
  ⟨⟨"RDLEN", 0xFFFFFFFC#32, 0x04000000#32⟩, by cases b <;> decide⟩

theorem lutclr (b : Bank) : Statement (.lutclr b) :=
  ⟨⟨"LUTCLR", 0xFFFFFFFC#32, 0x10000000#32⟩, by cases b <;> decide⟩

theorem encStart (b : Bank) : Statement (.encStart b) :=
  ⟨⟨"ENC.START", 0xFFFFFFFC#32, 0x30000000#32⟩, by cases b <;> decide⟩

theorem decStart (r : Bank) (strict : Bool) : Statement (.decStart r strict) :=
  ⟨⟨"DEC.START", 0xFFFFFFF8#32, 0x40000000#32⟩, by cases r <;> cases strict <;> decide⟩

theorem pushbyte (b : Byte) : Statement (.pushbyte b) := by
  refine ⟨⟨"PUSHBYTE", 0xFFFFFF00#32, 0x21000000#32⟩, by decide, rfl, ?_⟩
  simp only [OpcodeRow.selects, beq_iff_eq, encode]
  rw [show 0xFFFFFF00#32 = 0xFFFFFF#24 ++ 0#8 from rfl, BitVec.and_append, BitVec.and_zero]
  rfl

theorem encByte (b : Byte) : Statement (.encByte b) := by
  refine ⟨⟨"ENC.BYTE", 0xFFFFFF00#32, 0x31000000#32⟩, by decide, rfl, ?_⟩
  simp only [OpcodeRow.selects, beq_iff_eq, encode]
  rw [show 0xFFFFFF00#32 = 0xFFFFFF#24 ++ 0#8 from rfl, BitVec.and_append, BitVec.and_zero]
  rfl

theorem extract (w : BitVec 6) : Statement (.extract w) := by
  refine ⟨⟨"EXTRACT", 0xFFFFFFC0#32, 0x23000000#32⟩, by decide, rfl, ?_⟩
  simp only [OpcodeRow.selects, beq_iff_eq, encode]
  rw [show 0xFFFFFFC0#32 = 0x3FFFFFF#26 ++ 0#6 from rfl, BitVec.and_append, BitVec.and_zero]
  rfl

theorem flush (w : BitVec 6) : Statement (.flush w) := by
  refine ⟨⟨"FLUSH", 0xFFFFFFC0#32, 0x24000000#32⟩, by decide, rfl, ?_⟩
  simp only [OpcodeRow.selects, beq_iff_eq, encode]
  rw [show 0xFFFFFFC0#32 = 0x3FFFFFF#26 ++ 0#6 from rfl, BitVec.and_append, BitVec.and_zero]
  rfl

theorem decSym (c : Ch) : Statement (.decSym c) := by
  refine ⟨⟨"DEC.SYM", 0xFFE00000#32, 0x41000000#32⟩, by decide, rfl, ?_⟩
  simp only [OpcodeRow.selects, beq_iff_eq, encode]
  rw [show 0xFFE00000#32 = 0x7FF#11 ++ 0#21 from rfl, BitVec.and_append, BitVec.and_zero]
  rfl

theorem numScalar (c : Ch) : Statement (.numScalar c) := by
  refine ⟨⟨"NUM.SCALAR", 0xFFE00000#32, 0x51000000#32⟩, by decide, rfl, ?_⟩
  simp only [OpcodeRow.selects, beq_iff_eq, encode]
  rw [show 0xFFE00000#32 = 0x7FF#11 ++ 0#21 from rfl, BitVec.and_append, BitVec.and_zero]
  rfl

theorem numdSym (c : Ch) : Statement (.numdSym c) := by
  refine ⟨⟨"NUMD.SYM", 0xFFE00000#32, 0x61000000#32⟩, by decide, rfl, ?_⟩
  simp only [OpcodeRow.selects, beq_iff_eq, encode]
  rw [show 0xFFE00000#32 = 0x7FF#11 ++ 0#21 from rfl, BitVec.and_append, BitVec.and_zero]
  rfl

theorem lutapp (b : Bank) (c : Ch) : Statement (.lutapp b c) := by
  refine ⟨⟨"LUTAPP", 0xFF800000#32, 0x11000000#32⟩, by decide, rfl, ?_⟩
  simp only [OpcodeRow.selects, beq_iff_eq, encode]
  rw [show 0xFF800000#32 = 0x7FC#11 ++ 0#21 from rfl, BitVec.and_append, BitVec.and_zero]
  cases b <;> rfl

theorem lutrd (b : Bank) (i : BitVec 7) : Statement (.lutrd b i) := by
  refine ⟨⟨"LUTRD", 0xFFFFFE00#32, 0x12000000#32⟩, by decide, rfl, ?_⟩
  simp only [OpcodeRow.selects, beq_iff_eq, encode]
  rw [show 0xFFFFFE00#32 = 0x1FFFFFC#25 ++ 0#7 from rfl, BitVec.and_append, BitVec.and_zero]
  cases b <;> rfl

theorem pushbits (v : BitVec 8) (w : BitVec 4) : Statement (.pushbits v w) := by
  refine ⟨⟨"PUSHBITS", 0xFFFFF000#32, 0x22000000#32⟩, by decide, rfl, ?_⟩
  simp only [OpcodeRow.selects, beq_iff_eq, encode]
  rw [show 0xFFFFF000#32 = 0xFFFFF#20 ++ 0#4 ++ 0#8 from rfl, BitVec.and_append, BitVec.and_append, BitVec.and_zero,
    BitVec.and_zero]
  rfl

end Sys2Proof.Laws.RowOfTable
end

