-- ==== Sys2Proof/Tests/Slice0.lean ====
section
/-! SUPPORT. The model's own tests. Expected values come from spec/ (30_encoding.md, 95_test_vectors.md and the examples
of the command rules), worked by hand where the spec gives none. The last part shows, for every statement with
hypotheses, a state and operands that meet them, clause by clause. -/

namespace Sys2Proof.Tests

open Sys2Proof Sys2Proof.Machine

/-! ### The alphabets of 95_test_vectors.md section 1, and small states -/

/-- `n` characters in code order from `c`. -/
def codes (c n : Nat) : List Ch := (List.range n).map fun k => BitVec.ofNat 21 (c + k)

/-- The radix-32 alphabet of the vectors. -/
def alpha32 : List Ch := codes 0x41 26 ++ codes 0x32 6

/-- The radix-64 alphabet of the vectors. -/
def alpha64 : List Ch := codes 0x41 26 ++ codes 0x61 26 ++ codes 0x30 10 ++ [0x2B#21, 0x2F#21]

/-- The radix-85 alphabet of the vectors. -/
def alpha85 : List Ch := codes 0x21 85

/-- The LUT cells of a bank that holds these characters from index 0. -/
def cells (b : Bank) (cs : List Ch) : Memory := (List.range cs.length).zipWith (fun i c => (lutAddr b i, c)) cs

/-- Reset, then one bank loaded. -/
def with32 : State := { State.reset with len32 := 32#8, lut := cells .r32 alpha32 }
def with64 : State := { State.reset with len64 := 64#8, lut := cells .r64 alpha64 }
def with85 : State := { State.reset with len85 := 85#8, lut := cells .r85 alpha85 }
def with6 : State := { State.reset with len6 := 6#8, lut := cells .six Config.standardSix }

/-- An open stream on a loaded bank, nothing held. -/
def enc32 : State := { with32 with phase := .enc, radix := .r32 }
def enc64 : State := { with64 with phase := .enc, radix := .r64 }
def enc85 : State := { with85 with phase := .enc, radix := .r85 }
def dec32 : State := { with32 with phase := .dec, radix := .r32, strict := true }
def dec64 : State := { with64 with phase := .dec, radix := .r64, strict := true }
def num6 : State := { with6 with phase := .num, radix := .six }
def numd6 : State := { with6 with phase := .numd, radix := .six }

/-- A state with these bits held. -/
def holding (buf : BitVec 64) (cnt : BitVec 7) (s : State) : State := { s with buffer := buf, bitCount := cnt }

/-- The next state of a command, if there is one. -/
def after (i : Instr) (s : State) : Option State :=
  match exec i s with
  | .next t => some t
  | .fault _ => none
  | .refused _ => none

/-- A view of the next state. -/
def view {α : Type} (f : State → α) (i : Instr) (s : State) : Option α := (after i s).map f

/-- The accumulator and the items. -/
def accOut (s : State) : Nat × Nat × List Item := (s.buffer.toNat, s.bitCount.toNat, s.out)

/-- `ERR`, `ERRCMD` and the responses. -/
def failure (s : State) : Option Cause × Word × List Response := (s.err, s.errcmd, s.responses)

/-- `CHAR` items. -/
def chars (cs : List Nat) : List Item := cs.map fun c => .char (BitVec.ofNat 21 c)

/-! ### Decoding: one word for each command, bit by bit from R71 and R75 -/

theorem test_decode_nop : decode 0b00000000000000000000000000000000#32 = .ok .nop := by decide
theorem test_decode_srst : decode 0b00000001000000000000000000000000#32 = .ok .srst := by decide
theorem test_decode_rdstat : decode 0b00000010000000000000000000000000#32 = .ok .rdstat := by decide
theorem test_decode_rderr : decode 0b00000011000000000000000000000000#32 = .ok .rderr := by decide
theorem test_decode_rdlen : decode 0b00000100000000000000000000000011#32 = .ok (.rdlen .six) := by decide
theorem test_decode_lutclr : decode 0b00010000000000000000000000000001#32 = .ok (.lutclr .r64) := by decide
theorem test_decode_lutapp :
    decode 0b00010001011000000010000000001110#32 = .ok (.lutapp .six 0x200E#21) := by decide
theorem test_decode_lutrd :
    decode 0b00010010000000000000000101010100#32 = .ok (.lutrd .r85 84#7) := by decide
theorem test_decode_aclr : decode 0b00100000000000000000000000000000#32 = .ok .aclr := by decide
theorem test_decode_pushbyte :
    decode 0b00100001000000000000000001001101#32 = .ok (.pushbyte 0x4D#8) := by decide
theorem test_decode_pushbits :
    decode 0b00100010000000000000010100010011#32 = .ok (.pushbits 0x13#8 5#4) := by decide
theorem test_decode_extract : decode 0b00100011000000000000000000100000#32 = .ok (.extract 32#6) := by decide
theorem test_decode_flush : decode 0b00100100000000000000000000000110#32 = .ok (.flush 6#6) := by decide
theorem test_decode_encStart : decode 0b00110000000000000000000000000010#32 = .ok (.encStart .r85) := by decide
theorem test_decode_encByte :
    decode 0b00110001000000000000000001001101#32 = .ok (.encByte 0x4D#8) := by decide
theorem test_decode_encEnd : decode 0b00110010000000000000000000000000#32 = .ok .encEnd := by decide
theorem test_decode_decStart :
    decode 0b01000000000000000000000000000101#32 = .ok (.decStart .r64 true) := by decide
theorem test_decode_decSym :
    decode 0b01000001000100001111111111111111#32 = .ok (.decSym 0x10FFFF#21) := by decide
theorem test_decode_decEnd : decode 0b01000010000000000000000000000000#32 = .ok .decEnd := by decide
theorem test_decode_numStart : decode 0b01010000000000000000000000000000#32 = .ok .numStart := by decide
theorem test_decode_numScalar :
    decode 0b01010001000000011111011000000000#32 = .ok (.numScalar 0x1F600#21) := by decide
theorem test_decode_numEnd : decode 0b01010010000000000000000000000000#32 = .ok .numEnd := by decide
theorem test_decode_numdStart : decode 0b01100000000000000000000000000000#32 = .ok .numdStart := by decide
theorem test_decode_numdSym :
    decode 0b01100001000000001111111011111111#32 = .ok (.numdSym 0xFEFF#21) := by decide
theorem test_decode_numdEnd : decode 0b01100010000000000000000000000000#32 = .ok .numdEnd := by decide

/-- 95_test_vectors.md 3.1: unassigned opcodes. -/
theorem test_decode_unassigned :
    ∀ w ∈ [0x05000000, 0x13000000, 0x25000000, 0x33000000, 0x43000000, 0x53000000, 0x63000000, 0x70000000,
      0x80000000, 0xFFFFFFFF], decodeTableWord 32 w = none := by decide

/-- 95_test_vectors.md 3.1: a must-be-zero bit set. -/
theorem test_decode_reserved :
    ∀ w ∈ [0x00000001, 0x01000001, 0x02000100, 0x20000001, 0x32000001, 0x50000001, 0x04000004, 0x30000004,
      0x40000008, 0x12000200, 0x11800041, 0x41200000, 0x51200000, 0x21000100, 0x22001001, 0x23000040],
      decodeTableWord 32 w = none := by decide

/-- The host's view, and the words of R77's examples. -/
theorem test_decodeTableWord : decodeTableWord 32 0x40000004 = some (.decStart .r32 true) := by decide
theorem test_encode_examples :
    encode (.encStart .r64) = 0x30000001#32 ∧ encode (.lutapp .six 0x200E#21) = 0x1160200E#32 ∧
      encode (.pushbits 0x13#8 5#4) = 0x22000513#32 ∧ encode (.lutrd .r85 84#7) = 0x12000154#32 := by decide
theorem test_asm_examples :
    (Instr.encStart .r64).asm = "ENC.START 64" ∧ (Instr.decStart .r32 true).asm = "DEC.START 32, strict" ∧
      (Instr.lutapp .six 0x200E#21).asm = "LUTAPP 6, U+200E" ∧
      (Instr.pushbits 0x13#8 5#4).asm = "PUSHBITS 0x13, 5" := by decide

/-! ### Well-formedness: an ill-formed term for each check (95_test_vectors.md 3.1, R230) -/

theorem test_wf_lutapp_surrogate : (Instr.lutapp .r64 0xD800#21).wellFormed = false := by decide
theorem test_wf_lutapp_surrogate_top : (Instr.lutapp .r64 0xDFFF#21).wellFormed = false := by decide
theorem test_wf_lutapp_large : (Instr.lutapp .r64 0x110000#21).wellFormed = false := by decide
theorem test_wf_lutrd_hole :
    (Instr.lutrd .r32 32#7).wellFormed = false ∧ (Instr.lutrd .r64 64#7).wellFormed = false ∧
      (Instr.lutrd .r85 85#7).wellFormed = false ∧ (Instr.lutrd .six 6#7).wellFormed = false := by decide
theorem test_wf_pushbits_zero : (Instr.pushbits 0#8 0#4).wellFormed = false := by decide
theorem test_wf_pushbits_nine : (Instr.pushbits 0#8 9#4).wellFormed = false := by decide
theorem test_wf_pushbits_wide : (Instr.pushbits 0x20#8 3#4).wellFormed = false := by decide
theorem test_wf_extract :
    (Instr.extract 0#6).wellFormed = false ∧ (Instr.extract 33#6).wellFormed = false := by decide
theorem test_wf_flush : (Instr.flush 0#6).wellFormed = false ∧ (Instr.flush 63#6).wellFormed = false := by decide
theorem test_wf_encStart : (Instr.encStart .six).wellFormed = false := by decide
theorem test_wf_decStart :
    (Instr.decStart .r85 false).wellFormed = false ∧ (Instr.decStart .six true).wellFormed = false := by decide
theorem test_wf_decSym : (Instr.decSym 0x110000#21).wellFormed = false := by decide
theorem test_wf_numScalar : (Instr.numScalar 0xDFFF#21).wellFormed = false := by decide
theorem test_wf_numdSym : (Instr.numdSym 0xD800#21).wellFormed = false := by decide
theorem test_wf_accepts :
    (Instr.pushbits 0xFF#8 8#4).wellFormed = true ∧ (Instr.extract 32#6).wellFormed = true ∧
      (Instr.decSym 0x10FFFF#21).wellFormed = true ∧ (Instr.numScalar 0xD7FF#21).wellFormed = true ∧
      (Instr.numScalar 0xE000#21).wellFormed = true := by decide

/-! ### One step of each command -/

/-- 95_test_vectors.md 3.2: the faulted block of the eighth row. -/
def faulted : State :=
  { holding 0x4D#64 8#7 State.reset with err := some .illegalOperand, errcmd := 0x23000000#32 }

theorem test_nop_faulted : view failure .nop faulted = some (faulted.err, faulted.errcmd, [.ok]) := by decide
theorem test_srst : view (fun t => (t.status, t.errcmd, t.buffer)) .srst faulted = some (0#32, 0#32, 0#64) := by
  decide
theorem test_srst_keeps_len : view (fun t => (t.len64, t.radix, t.strict)) .srst dec64 =
    some (64#8, .r32, false) := by decide
theorem test_rdstat_faulted : view (fun t => t.out) .rdstat faulted = some [.word 0x00080006#32] := by decide
/-- R208: a radix-64 ENC stream after one byte. -/
theorem test_rdstat_stream :
    view (fun t => t.out) .rdstat { holding 1#64 2#7 enc64 with blkCount := 1#3 } = some [.word 0x00021090#32] := by decide
theorem test_rderr : view (fun t => t.out) .rderr faulted = some [.word 0x23000000#32] := by decide
theorem test_rdlen : view (fun t => t.out) (.rdlen .r85) with85 = some [.word 0x55#32] := by decide
theorem test_status_num : { num6 with numPend := true }.status = 0x000005B0#32 := by decide
theorem test_status_numd : { numd6 with nhave := true }.status = 0x000009C0#32 := by decide

theorem test_lutclr : view (fun t => (t.len64, t.len32)) (.lutclr .r64) with64 = some (0#8, 0#8) := by decide
theorem test_lutclr_in_stream :
    view failure (.lutclr .r32) enc64 = some (some .illegalSequence, 0x10000000#32, [.fault]) := by decide
theorem test_lutapp :
    view (fun t => (t.lut, t.len6)) (.lutapp .six 0x200E#21) State.reset = some ([(384, 0x200E#21)], 1#8) := by
  decide
/-- 95_test_vectors.md 3.3: the seventh character of bank 3 is counted and not stored; `LEN` stays 255. -/
theorem test_lutapp_full :
    view (fun t => (decide (t.lut = with6.lut), t.len6)) (.lutapp .six 0x41#21) with6 = some (true, 7#8) ∧
      view (fun t => t.len6) (.lutapp .six 0x41#21) { with6 with len6 := 255#8 } = some 255#8 := by decide
theorem test_lutrd : view (fun t => t.out) (.lutrd .six 5#7) with6 = some (chars [0x200B]) := by decide
theorem test_lutrd_unwritten :
    view failure (.lutrd .r64 0#7) State.reset = some (some .illegalOperand, 0x12000080#32, [.fault]) := by decide

theorem test_aclr : view accOut .aclr (holding 1#64 2#7 State.reset) = some (0, 0, []) := by decide
theorem test_pushbyte : view accOut (.pushbyte 0x61#8) (holding 1#64 2#7 State.reset) = some (0x161, 10, []) := by
  decide
theorem test_pushbyte_overflow :
    view failure (.pushbyte 0xFF#8) (holding 0xFFFFFFFFFFFFFF#64 56#7 State.reset) =
      some (some .accOverflow, 0x210000FF#32, [.fault]) := by decide
theorem test_pushbits :
    view accOut (.pushbits 0x7F#8 7#4) (holding 0xFFFFFFFFFFFFFF#64 56#7 State.reset) =
      some (0x7FFFFFFFFFFFFFFF, 63, []) := by decide
/-- R234: the operand check comes before the overflow check. -/
theorem test_pushbits_order :
    view failure (.pushbits 0#8 9#4) (holding 0#64 63#7 State.reset) =
      some (some .illegalOperand, 0x22000900#32, [.fault]) := by decide
theorem test_extract :
    view accOut (.extract 6#6) (holding 0x16E#64 12#7 State.reset) =
      some (0, 0, [.index 0x05#32, .index 0x2E#32]) := by decide
theorem test_extract_ones :
    view accOut (.extract 1#6) (holding 0xAB#64 8#7 State.reset) =
      some (0, 0, [.index 1#32, .index 0#32, .index 1#32, .index 0#32, .index 1#32, .index 0#32, .index 1#32,
        .index 1#32]) := by decide
theorem test_flush :
    view accOut (.flush 9#6) (holding 0xAB#64 8#7 State.reset) = some (0, 0, [.index 0x156#32]) := by decide
theorem test_flush_underdrained :
    view failure (.flush 8#6) (holding 0xAB#64 8#7 State.reset) =
      some (some .accUnderdrained, 0x24000008#32, [.fault]) := by decide

theorem test_encStart : view (fun t => t.status) (.encStart .r64) with64 = some 0x00000090#32 := by decide
theorem test_encStart_mismatch :
    view failure (.encStart .r32) State.reset = some (some .alphabetSizeMismatch, 0x30000000#32, [.fault]) := by
  decide
/-- 95_test_vectors.md 3.5: the third byte of `Man` in radix 64. -/
theorem test_encByte64 :
    view (fun t => (accOut t, t.blkCount)) (.encByte 0x6E#8) { holding 1#64 4#7 enc64 with blkCount := 2#3 } =
      some ((0, 0, chars [0x46, 0x75]), 0#3) := by decide +kernel
/-- 95_test_vectors.md 3.5: the fourth byte of `Man ` in radix 85. -/
theorem test_encByte85 :
    view accOut (.encByte 0x20#8) (holding 0x4D616E#64 24#7 enc85) =
      some (0, 0, chars [0x39, 0x6A, 0x71, 0x6F, 0x5E]) := by decide +kernel
/-- 95_test_vectors.md 3.5: `f` in radix 32. -/
theorem test_encEnd32 :
    view (fun t => (t.out, t.status)) .encEnd { holding 6#64 3#7 enc32 with blkCount := 1#3 } =
      some (chars [0x59, 0x3D, 0x3D, 0x3D, 0x3D, 0x3D, 0x3D], 0#32) := by decide +kernel
/-- 95_test_vectors.md 3.5: a last group of one byte in radix 85. -/
theorem test_encEnd85 :
    view accOut .encEnd (holding 0x4D#64 8#7 enc85) = some (0, 0, chars [0x39, 0x60]) := by decide +kernel

theorem test_decStart : view (fun t => t.status) (.decStart .r64 true) with64 = some 0x000002A0#32 := by decide
/-- R234: the operand check comes before `AlphabetSizeMismatch`. -/
theorem test_decStart_order :
    view failure (.decStart .r85 false) State.reset = some (some .illegalOperand, 0x40000002#32, [.fault]) := by
  decide
/-- R160: `Q` after `T`. -/
theorem test_decSym :
    view (fun t => (accOut t, t.blkCount)) (.decSym 0x51#21) { holding 0x13#64 6#7 dec64 with blkCount := 1#3 } =
      some ((0, 4, [.byte 0x4D#8]), 2#3) := by decide +kernel
/-- 95_test_vectors.md P4: `!` in a strict stream. -/
theorem test_decSym_invalid :
    view failure (.decSym 0x21#21) dec64 = some (some .invalidSymbol, 0x41000021#32, [.fault]) := by decide +kernel
theorem test_decEnd :
    view (fun t => (accOut t, t.status)) .decEnd (holding 0#64 4#7 dec64) = some ((0, 0, []), 0x00000280#32) := by
  decide
/-- 95_test_vectors.md 3.6: `Q===`. -/
theorem test_decEnd_malformed :
    view (fun t => t.status) .decEnd (holding 0x10#64 6#7 dec64) = some 0x000602A3#32 := by decide

theorem test_numStart : view (fun t => t.status) .numStart with6 = some 0x000001B0#32 := by decide
theorem test_numStart_mismatch :
    view failure .numStart { with6 with len6 := 7#8 } =
      some (some .alphabetSizeMismatch, 0x50000000#32, [.fault]) := by decide
/-- 95_test_vectors.md 3.7: the second scalar of `Hi`. -/
theorem test_numScalar :
    view (fun t => t.out) (.numScalar 0x69#21) { num6 with numPend := true } =
      some (chars [0x200B, 0xFEFF, 0x200F, 0x200E]) := by decide +kernel
theorem test_numScalar_zero : view (fun t => t.out) (.numScalar 0#21) num6 = some (chars [0x200E]) := by decide +kernel
theorem test_numEnd :
    view (fun t => (t.out, t.status)) .numEnd { num6 with numPend := true } = some ([], 0x00000180#32) := by decide

theorem test_numdStart : view (fun t => t.status) .numdStart with6 = some 0x000001C0#32 := by decide
/-- R192: the digit 4 after the value 2. -/
theorem test_numdSym :
    view (fun t => (t.nval, t.nhave)) (.numdSym 0xFEFF#21) { numd6 with nval := 2#21, nhave := true } =
      some (14#21, true) := by decide +kernel
/-- 95_test_vectors.md 3.8: a digit that would pass 0x10FFFF. -/
theorem test_numdSym_range :
    view failure (.numdSym 0x200C#21) { numd6 with nval := 0x36666#21, nhave := true } =
      some (some .outOfRange, 0x6100200C#32, [.fault]) := by decide +kernel
theorem test_numdEnd :
    view (fun t => t.out) .numdEnd { numd6 with nval := 105#21, nhave := true } = some [.scalar 0x69#21] := by decide
theorem test_numdEnd_surrogate :
    view failure .numdEnd { numd6 with nval := 0xD800#21, nhave := true } =
      some (some .outOfRange, 0x62000000#32, [.fault]) := by decide

/-! ### Digits, items, the step -/

theorem test_digits85 : digits85 0xFFFFFFFF = [82, 23, 54, 12, 0] := by decide
theorem test_digits5 : digits5 0x10FFFF = [2, 4, 1, 1, 2, 2, 4, 2, 1] ∧ digits5 0 = [0] := by decide +kernel
/-- R33: `{code[3:0], value[31:0]}`. -/
theorem test_wire : (Item.scalar 0x48#21).wire = 0x300000048#36 := by decide
theorem test_dec85Ref : dec85Ref [24, 63] = some [0x4D#8] := by decide
/-- The word presented next is the one that runs, and nothing else of the reset state changes. -/
theorem test_withFetchWord :
    step (State.reset.withFetchWord 32 0x2100004D) =
      .next { State.reset with buffer := 0x4D#64, bitCount := 8#7, responses := [.ok] } := by rfl
theorem test_step_illegal_in_stream :
    step (enc64.withFetchWord 32 0x21000100) =
      .next { enc64 with err := some .illegalCommand, errcmd := 0x21000100#32, responses := [.fault] } := by rfl
/-- A faulted block refuses the word 0x01000001: it is not an SRST (R234). -/
theorem test_step_refused :
    step (faulted.withFetchWord 32 0x01000001) = .next { faulted with responses := [.refused] } := by rfl

/-! ### Witnesses: a state and operands that meet the hypotheses of each statement, clause by clause -/

/-- Every clause of the invariant is decidable by itself. -/
theorem inv_reset : BlockInv Block.reset :=
  ⟨by decide, by decide, by decide, by decide, by decide, by decide⟩
theorem lut_with32 : LutInv with32.toBlock := by decide +kernel
theorem lut_with64 : LutInv with64.toBlock := by decide +kernel
theorem lut_with85 : LutInv with85.toBlock := by decide +kernel
theorem lut_with6 : LutInv with6.toBlock := by decide +kernel
theorem inv_with32 : BlockInv with32.toBlock :=
  ⟨by decide, lut_with32, by decide, by decide, by decide, by decide⟩
theorem inv_with64 : BlockInv with64.toBlock :=
  ⟨by decide, lut_with64, by decide, by decide, by decide, by decide⟩
theorem inv_with85 : BlockInv with85.toBlock :=
  ⟨by decide, lut_with85, by decide, by decide, by decide, by decide⟩
theorem inv_with6 : BlockInv with6.toBlock :=
  ⟨by decide, lut_with6, by decide, by decide, by decide, by decide⟩

/-- Two bits held in a radix-64 ENC stream, after `ENC.BYTE 0x4D`. -/
def enc64Held : State := { holding 1#64 2#7 enc64 with blkCount := 1#3 }
/-- Four bits held in a radix-32 ENC stream, after three bytes of zero. -/
def enc32Held : State := { holding 0#64 4#7 enc32 with blkCount := 4#3 }
def dec64Held : State := { holding 0x13#64 6#7 dec64 with blkCount := 1#3 }
def dec64Loose : State := { dec64 with strict := false }

theorem inv_enc64Held : BlockInv enc64Held.toBlock :=
  ⟨by decide, lut_with64, by decide, by decide, by decide, by decide⟩
theorem inv_enc32Held : BlockInv enc32Held.toBlock :=
  ⟨by decide, lut_with32, by decide, by decide, by decide, by decide⟩
theorem inv_enc64 : BlockInv enc64.toBlock :=
  ⟨by decide, lut_with64, by decide, by decide, by decide, by decide⟩
theorem inv_enc85_16 : BlockInv (holding 0x4D61#64 16#7 enc85).toBlock :=
  ⟨by decide, lut_with85, by decide, by decide, by decide, by decide⟩
theorem inv_enc85_24 : BlockInv (holding 0x4D616E#64 24#7 enc85).toBlock :=
  ⟨by decide, lut_with85, by decide, by decide, by decide, by decide⟩
theorem inv_dec64Held : BlockInv dec64Held.toBlock :=
  ⟨by decide, lut_with64, by decide, by decide, by decide, by decide⟩
theorem inv_dec64 : BlockInv dec64.toBlock :=
  ⟨by decide, lut_with64, by decide, by decide, by decide, by decide⟩
theorem inv_dec64Loose : BlockInv dec64Loose.toBlock :=
  ⟨by decide, lut_with64, by decide, by decide, by decide, by decide⟩
theorem inv_num6 : BlockInv ({ num6 with numPend := true } : State).toBlock :=
  ⟨by decide, lut_with6, by decide, by decide, by decide, by decide⟩

/-- A NUMD stream with this value so far. -/
def numdAt (v : Ch) : State := { numd6 with nval := v, nhave := true }

theorem inv_numdAt (v : Ch) (h : v.toNat ≤ Config.maxScalar) : BlockInv (numdAt v).toBlock :=
  ⟨show AccInv Block.reset by decide, lut_with6,
    show StreamInv ({ numd6 with nhave := true } : State).toBlock by decide, ⟨h, nofun⟩, show ErrInv Block.reset by decide,
    show ∀ it ∈ State.reset.out, it.scalarOnly = true by decide⟩

/-! #### Step, decoding, encoding -/

theorem witness_StepExecutesTheDecodedCommand :
    (with6.withFetchWord 32 0x50000000).input = [.command 0x50000000#32] ∧
      decode 0x50000000#32 = .ok .numStart := by decide

theorem witness_StepOnIllegalWord :
    (enc64.withFetchWord 32 0x01000001).input = [.command 0x01000001#32] ∧
      (∀ r ∈ opcodeTable, r.selects 0x01000001#32 = false) ∧ (∀ r ∈ opcodeTable, r.selects 0xFFFFFFFF#32 = false) ∧
      (enc64.withFetchWord 32 0x01000001).err = none ∧ (faulted.withFetchWord 32 0x01000001).err ≠ none := by decide

theorem witness_StepOnResetAndOnNothing :
    ({ enc64 with input := [.reset, .command 0#32] } : State).input = .reset :: [.command 0#32] ∧
      enc64.input = [] := by decide

theorem witness_EncodeOfDecodeIsTheWord : decode 0x40000005#32 = .ok (.decStart .r64 true) := by decide

theorem witness_DecodeSelectsTheRowOfTheTable : (⟨"LUTRD", 0xFFFFFE00#32, 0x12000000#32⟩ : OpcodeRow) ∈ opcodeTable := by
  decide

/-! #### The accumulator -/

theorem witness_AccumulatorFunctionsKeepTheBounds_push :
    let a : Acc := ⟨2 ^ 55 - 1, 55⟩
    a.cnt < Config.W ∧ a.buf < 2 ^ a.cnt ∧ 1 ≤ 8 ∧ 0xFF < 2 ^ 8 ∧ a.cnt + 8 ≤ Config.W - 1 := by decide

theorem witness_AccumulatorFunctionsKeepTheBounds_take :
    let a : Acc := ⟨0x3F, 6⟩
    a.cnt < Config.W ∧ a.buf < 2 ^ a.cnt ∧ 1 ≤ 6 ∧ 6 ≤ a.cnt := by decide

theorem witness_AccumulatorFunctionsKeepTheBounds_flush :
    let a : Acc := ⟨0x1F, 5⟩
    a.cnt < Config.W ∧ a.buf < 2 ^ a.cnt ∧ 0 < a.cnt ∧ a.cnt < 6 := by decide

theorem witness_DrainYieldsTheChunksInOrder : 1 ≤ 6 ∧ (⟨0x16E, 12⟩ : Acc).buf < 2 ^ (⟨0x16E, 12⟩ : Acc).cnt := by
  decide

/-- The hypotheses of the first three clauses are those of the bounds above; of the last, three bytes by six. -/
theorem witness_AccumulatorIsABitString :
    1 ≤ 6 ∧ ∀ p ∈ [(0x4D, 8), (0x61, 8), (0x6E, 8)], 1 ≤ p.2 ∧ p.1 < 2 ^ p.2 ∧ 6 - 1 + p.2 ≤ Config.W - 1 := by
  decide

theorem witness_AclrEmptiesTheAccumulator :
    (holding 1#64 2#7 State.reset).err = none ∧ (holding 1#64 2#7 State.reset).phase = .idle ∧ enc64.err = none ∧
      enc64.phase ≠ .idle := by decide

theorem witness_PushbyteAppendsEightBits :
    let full := holding 0#64 56#7 State.reset
    let room := holding 0#64 55#7 State.reset
    full.err = none ∧ full.phase = .idle ∧ Config.W - 1 < full.bitCount.toNat + 8 ∧
      room.err = none ∧ room.phase = .idle ∧ room.bitCount.toNat + 8 ≤ Config.W - 1 ∧
      enc64.err = none ∧ enc64.phase ≠ .idle := by decide

theorem witness_PushbitsAppendsItsBits :
    let full := holding 0#64 56#7 State.reset
    full.err = none ∧ full.phase = .idle ∧ ¬(1 ≤ (9#4).toNat ∧ (9#4).toNat ≤ 8 ∧ (0#8).toNat < 2 ^ (9#4).toNat) ∧
      (1 ≤ (8#4).toNat ∧ (8#4).toNat ≤ 8 ∧ (0xFF#8).toNat < 2 ^ (8#4).toNat) ∧
      Config.W - 1 < full.bitCount.toNat + (8#4).toNat ∧
      (1 ≤ (7#4).toNat ∧ (7#4).toNat ≤ 8 ∧ (0x7F#8).toNat < 2 ^ (7#4).toNat) ∧
      full.bitCount.toNat + (7#4).toNat ≤ Config.W - 1 ∧ num6.err = none ∧ num6.phase ≠ .idle := by decide

theorem witness_ExtractEmitsTheChunks :
    let s := holding 0x16E#64 12#7 State.reset
    s.err = none ∧ s.phase = .idle ∧ ¬(1 ≤ (33#6).toNat ∧ (33#6).toNat ≤ 32) ∧
      (1 ≤ (32#6).toNat ∧ (32#6).toNat ≤ 32) ∧ (1 ≤ (1#6).toNat ∧ (1#6).toNat ≤ 32) ∧ AccInv s.toBlock ∧
      enc64.err = none ∧ enc64.phase ≠ .idle := by decide

theorem witness_FlushEmitsTheRemainder :
    let s := holding 0xAB#64 8#7 State.reset
    s.err = none ∧ s.phase = .idle ∧ ¬(1 ≤ (0#6).toNat ∧ (0#6).toNat ≤ 32) ∧
      (1 ≤ (8#6).toNat ∧ (8#6).toNat ≤ 32 ∧ (8#6).toNat ≤ s.bitCount.toNat) ∧
      (1 ≤ (32#6).toNat ∧ (32#6).toNat ≤ 32) ∧ State.reset.bitCount.toNat = 0 ∧
      (1 ≤ (9#6).toNat ∧ (9#6).toNat ≤ 32 ∧ 0 < s.bitCount.toNat ∧ s.bitCount.toNat < (9#6).toNat) ∧ AccInv s.toBlock ∧
      enc64.err = none ∧ enc64.phase ≠ .idle := by decide

/-! #### The LUT -/

theorem witness_LutclrEmptiesTheBank :
    with64.err = none ∧ with64.phase = .idle ∧ enc64.err = none ∧ enc64.phase ≠ .idle := by decide

theorem witness_LutappStoresAndCounts :
    with6.err = none ∧ with6.phase = .idle ∧ scalarValue 0xD800#21 = false ∧ scalarValue 0x10FFFF#21 = true ∧
      scalarValue 0xE000#21 = true ∧ enc64.err = none ∧ enc64.phase ≠ .idle := by decide

theorem witness_LutrdEmitsTheEntry :
    with6.err = none ∧ with6.phase = .idle ∧ (Config.bankLen .six ≤ (6#7).toNat ∨ (with6.len .six).toNat ≤ (6#7).toNat) ∧
      ¬(Config.bankLen .six ≤ (5#7).toNat ∨ (with6.len .six).toNat ≤ (5#7).toNat) ∧ LutInv with6.toBlock ∧
      enc64.err = none ∧ enc64.phase ≠ .idle := by decide +kernel

theorem scalars_six : ∀ c ∈ Config.standardSix, scalarValue c = true :=
  List.all_eq_true.mp (by decide)
theorem scalars_text : ∀ c ∈ codes 0x21 64, scalarValue c = true :=
  List.all_eq_true.mp (by decide)
theorem scalars_edge : ∀ c ∈ [Config.pad, 0xD7FF#21, 0xE000#21, 0x10FFFF#21], scalarValue c = true :=
  List.all_eq_true.mp (by decide)

theorem witness_LutloadSuppliesTheAlphabet :
    ReadyIn .idle with6 ∧ ∀ c ∈ Config.standardSix, scalarValue c = true := ⟨by decide, scalars_six⟩

theorem witness_OnlyLutCommandsWriteTheLut_append :
    exec (.lutapp .six 0x200E#21) State.reset = .next
      { State.reset with lut := [(384, 0x200E#21)], len6 := 1#8, responses := [.ok] } := by rfl

theorem witness_OnlyLutCommandsWriteTheLut_other :
    exec (.encByte 0#8) State.reset = .next (faultState .illegalSequence (.encByte 0#8) State.reset) ∧
      (∀ b c, Instr.encByte 0#8 ≠ .lutapp b c) ∧ (∀ b, Instr.encByte 0#8 ≠ .lutclr b) :=
  ⟨rfl, nofun, nofun⟩

theorem witness_OnlyLutCommandsWriteTheLut_stream :
    exec .encEnd enc85 = .next { enc85 with phase := .idle, responses := [.ok] } ∧ enc85.phase ≠ .idle :=
  ⟨rfl, nofun⟩

theorem witness_ReverseLookupFindsTheLeastIndex :
    LutInv with6.toBlock ∧ with6.bankValid .six = true ∧ 5 < Config.bankLen .six ∧ lutAt with6.toBlock .six 5 = 0x200B#21 ∧
      (∀ j < 5, lutAt with6.toBlock .six j ≠ 0x200B#21) ∧ ∀ i < Config.bankLen .six, lutAt with6.toBlock .six i ≠ 0x41#21 := by
  decide +kernel

/-! #### The symbol generator -/

theorem witness_EncStartOpensTheStream :
    with64.err = none ∧ with64.phase = .idle ∧ Bank.r64 ≠ .six ∧ (with64.len .r64).toNat = Config.bankLen .r64 ∧
      Bank.r32 ≠ .six ∧ (with64.len .r32).toNat ≠ Config.bankLen .r32 ∧ enc64.err = none ∧ enc64.phase ≠ .idle := by
  decide

theorem witness_EncByteEmitsTheChunks_block :
    (enc64Held.err = none ∧ enc64Held.phase = .enc ∧ BlockInv enc64Held.toBlock ∧
      Config.blockParams enc64Held.radix = some (6, 4)) ∧
    (enc32Held.err = none ∧ enc32Held.phase = .enc ∧ BlockInv enc32Held.toBlock ∧
      Config.blockParams enc32Held.radix = some (5, 8)) ∧ with64.err = none ∧ with64.phase ≠ .enc :=
  ⟨⟨rfl, rfl, inv_enc64Held, rfl⟩, ⟨rfl, rfl, inv_enc32Held, rfl⟩, rfl, nofun⟩

theorem witness_EncByteEmitsTheChunks_85 :
    let s := holding 0x4D61#64 16#7 enc85
    let t := holding 0x4D616E#64 24#7 enc85
    (s.err = none ∧ s.phase = .enc ∧ BlockInv s.toBlock ∧ s.radix = .r85 ∧ s.bitCount.toNat + 8 < 32) ∧
      (t.err = none ∧ t.phase = .enc ∧ BlockInv t.toBlock ∧ t.radix = .r85 ∧ t.bitCount.toNat + 8 = 32) :=
  ⟨⟨rfl, rfl, inv_enc85_16, rfl, by decide⟩, ⟨rfl, rfl, inv_enc85_24, rfl, rfl⟩⟩

theorem witness_EncEndFlushesAndPads :
    (enc64Held.err = none ∧ enc64Held.phase = .enc ∧ BlockInv enc64Held.toBlock ∧
      Config.blockParams enc64Held.radix = some (6, 4)) ∧
    (enc64.err = none ∧ enc64.phase = .enc ∧ BlockInv enc64.toBlock ∧ Config.blockParams enc64.radix = some (6, 4) ∧
      enc64.bitCount.toNat = 0) ∧
    ((holding 0x4D616E#64 24#7 enc85).err = none ∧ (holding 0x4D616E#64 24#7 enc85).phase = .enc ∧
      BlockInv (holding 0x4D616E#64 24#7 enc85).toBlock ∧ (holding 0x4D616E#64 24#7 enc85).radix = .r85) ∧
    with64.err = none ∧ with64.phase ≠ .enc :=
  ⟨⟨rfl, rfl, inv_enc64Held, rfl⟩, ⟨rfl, rfl, inv_enc64, rfl, rfl⟩, ⟨rfl, rfl, inv_enc85_24, rfl⟩, rfl, nofun⟩

theorem witness_Digits85AreTheBase85Digits : 2 ^ 32 - 1 < 2 ^ 32 ∧ 82 ∈ (digits85 (2 ^ 32 - 1)).head? := by decide

theorem witness_EncStreamEmitsTheText :
    (BlockInv with64.toBlock ∧ ReadyIn .idle with64 ∧ Config.blockParams .r64 = some (6, 4) ∧ with64.bankValid .r64 = true) ∧
      (BlockInv with32.toBlock ∧ ReadyIn .idle with32 ∧ Config.blockParams .r32 = some (5, 8) ∧
        with32.bankValid .r32 = true) :=
  ⟨⟨inv_with64, by decide, rfl, rfl⟩, ⟨inv_with32, by decide, rfl, rfl⟩⟩

theorem witness_EncStream85EmitsTheText :
    BlockInv with85.toBlock ∧ ReadyIn .idle with85 ∧ with85.bankValid .r85 = true := ⟨inv_with85, by decide, rfl⟩

theorem witness_EncStreamHasTheStatedLength :
    (BlockInv with64.toBlock ∧ ReadyIn .idle with64 ∧ Bank.r64 ≠ .six ∧ with64.bankValid .r64 = true) ∧
      (BlockInv with32.toBlock ∧ ReadyIn .idle with32 ∧ Bank.r32 ≠ .six ∧ with32.bankValid .r32 = true) ∧
      (BlockInv with85.toBlock ∧ ReadyIn .idle with85 ∧ Bank.r85 ≠ .six ∧ with85.bankValid .r85 = true) :=
  ⟨⟨inv_with64, by decide, nofun, rfl⟩, ⟨inv_with32, by decide, nofun, rfl⟩, ⟨inv_with85, by decide, nofun, rfl⟩⟩

theorem witness_Radix85RoundTrip :
    BlockInv with85.toBlock ∧ ReadyIn .idle with85 ∧ with85.bankValid .r85 = true := ⟨inv_with85, by decide, rfl⟩

/-! #### The symbol absorber -/

theorem witness_DecStartOpensTheStream :
    with64.err = none ∧ with64.phase = .idle ∧ ¬(Bank.r85 = .r32 ∨ Bank.r85 = .r64) ∧
      (Bank.r32 = .r32 ∨ Bank.r32 = .r64) ∧ (with64.len .r32).toNat ≠ Config.bankLen .r32 ∧
      (Bank.r64 = .r32 ∨ Bank.r64 = .r64) ∧ (with64.len .r64).toNat = Config.bankLen .r64 ∧
      dec64.err = none ∧ dec64.phase ≠ .idle := by decide

theorem witness_DecSymAbsorbsTheCharacter_state :
    (dec64Held.err = none ∧ dec64Held.phase = .dec ∧ BlockInv dec64Held.toBlock ∧
      Config.blockParams dec64Held.radix = some (6, 4)) ∧
    (dec64Loose.err = none ∧ dec64Loose.phase = .dec ∧ BlockInv dec64Loose.toBlock ∧
      Config.blockParams dec64Loose.radix = some (6, 4)) ∧ with64.err = none ∧ with64.phase ≠ .dec :=
  ⟨⟨rfl, rfl, inv_dec64Held, rfl⟩, ⟨rfl, rfl, inv_dec64Loose, rfl⟩, rfl, nofun⟩

/-- A data symbol at the last index, the pad character, and a character of neither kind. -/
theorem witness_DecSymAbsorbsTheCharacter_character :
    scalarValue 0xDFFF#21 = false ∧
      (scalarValue 0x2F#21 = true ∧ lutAt dec64Held.toBlock .r64 63 = 0x2F#21 ∧ ∀ j < 63, lutAt dec64Held.toBlock .r64 j ≠ 0x2F#21) ∧
      (scalarValue Config.pad = true ∧ ∀ i < Config.bankLen .r64, lutAt dec64Held.toBlock .r64 i ≠ Config.pad) ∧
      (scalarValue 0x21#21 = true ∧ 0x21#21 ≠ Config.pad ∧ dec64Held.strict = true ∧ dec64Loose.strict = false ∧
        (∀ i < Config.bankLen .r64, lutAt dec64Held.toBlock .r64 i ≠ 0x21#21) ∧
        ∀ i < Config.bankLen .r64, lutAt dec64Loose.toBlock .r64 i ≠ 0x21#21) := by decide +kernel

theorem witness_DecEndChecksTheLength :
    let left := holding 0x10#64 6#7 dec64
    let done := holding 0#64 5#7 dec64
    (dec64Held.err = none ∧ dec64Held.phase = .dec ∧ Config.blockParams dec64Held.radix = some (6, 4) ∧
      dec64Held.blkCount ≠ 0#3) ∧
      (left.err = none ∧ left.phase = .dec ∧ 6 ≤ left.bitCount.toNat ∧ left.blkCount = 0#3) ∧
      (done.err = none ∧ done.phase = .dec ∧ done.bitCount.toNat < 6 ∧ done.blkCount = 0#3) ∧
      with64.err = none ∧ with64.phase ≠ .dec := by decide

theorem witness_DecStreamEmitsTheBytes :
    BlockInv with64.toBlock ∧ ReadyIn .idle with64 ∧ Config.blockParams .r64 = some (6, 4) ∧ with64.bankValid .r64 = true ∧
      ∀ c ∈ codes 0x21 64, scalarValue c = true :=
  ⟨inv_with64, by decide, rfl, rfl, scalars_text⟩

theorem distinct_with64 : DistinctBank with64.toBlock .r64 := by
  have h : ∀ i < 64, ∀ j < 64, lutAt with64.toBlock .r64 i = lutAt with64.toBlock .r64 j → i = j := by decide +kernel
  exact h

theorem padFree_with64 : PadFree with64.toBlock .r64 := by
  have h : ∀ i < 64, lutAt with64.toBlock .r64 i ≠ Config.pad := by decide +kernel
  exact h

theorem distinct_with6 : DistinctBank with6.toBlock .six := by
  have h : ∀ i < 6, ∀ j < 6, lutAt with6.toBlock .six i = lutAt with6.toBlock .six j → i = j := by decide +kernel
  exact h

theorem witness_DecOfEncIsTheInput :
    BlockInv with64.toBlock ∧ ReadyIn .idle with64 ∧ (Bank.r64 = .r32 ∨ Bank.r64 = .r64) ∧ with64.bankValid .r64 = true ∧
      DistinctBank with64.toBlock .r64 ∧ PadFree with64.toBlock .r64 :=
  ⟨inv_with64, by decide, by decide, rfl, distinct_with64, padFree_with64⟩

/-! #### The numeral codec -/

theorem witness_Digits5AreTheBase5Digits : 625 < 5 ^ 5 ∧ 1 ≤ 5 ∧ 0x10FFFF ≤ Config.maxScalar := by decide

theorem witness_NumStartOpensTheStream :
    with6.err = none ∧ with6.phase = .idle ∧ (with6.len .six).toNat = 6 ∧ State.reset.err = none ∧
      State.reset.phase = .idle ∧ (State.reset.len .six).toNat ≠ 6 ∧ num6.err = none ∧ num6.phase ≠ .idle := by decide

theorem witness_NumScalarEmitsTheNumeral :
    let s := { num6 with numPend := true }
    s.err = none ∧ s.phase = .num ∧ scalarValue 0xD800#21 = false ∧ scalarValue 0xD7FF#21 = true ∧
      scalarValue 0x10FFFF#21 = true ∧ BlockInv s.toBlock ∧ with6.err = none ∧ with6.phase ≠ .num :=
  ⟨rfl, rfl, by decide, by decide, by decide, inv_num6, rfl, nofun⟩

theorem witness_NumEndClosesTheStream :
    num6.err = none ∧ num6.phase = .num ∧ with6.err = none ∧ with6.phase ≠ .num := by decide

theorem witness_NumStreamEmitsThePayload :
    BlockInv with6.toBlock ∧ ReadyIn .idle with6 ∧ with6.bankValid .six = true ∧
      ∀ c ∈ [Config.pad, 0xD7FF#21, 0xE000#21, 0x10FFFF#21], scalarValue c = true :=
  ⟨inv_with6, by decide, rfl, scalars_edge⟩

theorem witness_NumdOfNumIsTheInput :
    BlockInv with6.toBlock ∧ ReadyIn .idle with6 ∧ with6.bankValid .six = true ∧ DistinctBank with6.toBlock .six ∧
      ∀ c ∈ [Config.pad, 0xD7FF#21, 0xE000#21, 0x10FFFF#21], scalarValue c = true :=
  ⟨inv_with6, by decide, rfl, distinct_with6, scalars_edge⟩

theorem witness_NumdStartOpensTheStream :
    with6.err = none ∧ with6.phase = .idle ∧ (with6.len .six).toNat = 6 ∧ (State.reset.len .six).toNat ≠ 6 ∧
      numd6.err = none ∧ numd6.phase ≠ .idle := by decide

/-- The clauses of the open stream: a delimiter on a surrogate and on the value below, a digit at the range limit. -/
theorem witness_NumdSymAbsorbsTheCharacter :
    (numdAt 0xD800#21).err = none ∧ (numdAt 0xD800#21).phase = .numd ∧ scalarValue 0x110000#21 = false ∧
      (BlockInv (numdAt 0xD800#21).toBlock ∧ BlockInv (numdAt 0xD7FF#21).toBlock) ∧
      (lutAt (numdAt 0xD800#21).toBlock .six 5 = 0x200B#21 ∧ (∀ j < 5, lutAt (numdAt 0xD800#21).toBlock .six j ≠ 0x200B#21) ∧
        scalarValue 0x200B#21 = true ∧ (numdAt 0xD800#21).nval.toNat = 0xD800 ∧
        (numdAt 0xD7FF#21).nval.toNat < 0xD800) ∧
      (BlockInv (numdAt 0x36666#21).toBlock ∧ lutAt (numdAt 0x36666#21).toBlock .six 1 = 0x200F#21 ∧
        lutAt (numdAt 0x36666#21).toBlock .six 2 = 0x200C#21 ∧ 0x36666 * 5 + 1 ≤ 0x10FFFF ∧ 0x10FFFF < 0x36666 * 5 + 2) ∧
      (∀ i < 6, lutAt (numdAt 0xD800#21).toBlock .six i ≠ 0x41#21) ∧ with6.err = none ∧ with6.phase ≠ .numd :=
  ⟨rfl, rfl, by decide, ⟨inv_numdAt _ (by decide), inv_numdAt _ (by decide)⟩, by decide +kernel,
    ⟨inv_numdAt _ (by decide), by decide +kernel⟩, by decide +kernel, rfl, nofun⟩

theorem witness_NumdEndClosesTheLastGroup :
    (numdAt 0xDFFF#21).err = none ∧ (numdAt 0xDFFF#21).phase = .numd ∧ (numdAt 0xDFFF#21).nhave = true ∧
      0xD800 ≤ (numdAt 0xDFFF#21).nval.toNat ∧ (numdAt 0xDFFF#21).nval.toNat ≤ 0xDFFF ∧
      (numdAt 0xE000#21).err = none ∧ (numdAt 0xE000#21).phase = .numd ∧ 0xDFFF < (numdAt 0xE000#21).nval.toNat ∧
      with6.err = none ∧ with6.phase ≠ .numd := by decide

theorem witness_NumdStreamEmitsTheScalars :
    BlockInv with6.toBlock ∧ ReadyIn .idle with6 ∧ with6.bankValid .six = true ∧
      ∀ c ∈ Config.standardSix, scalarValue c = true := ⟨inv_with6, by decide, rfl, scalars_six⟩

/-! #### Rules over every command -/

theorem witness_FaultChangesOnlyErrAndErrcmd :
    exec (.extract 0#6) State.reset = .next (faultState .illegalOperand (.extract 0#6) State.reset) ∧
      (faultState .illegalOperand (.extract 0#6) State.reset).responses = responded State.reset .fault := ⟨rfl, rfl⟩

theorem witness_FaultedBlockRefuses_word :
    faulted.err ≠ none ∧ (faulted.withFetchWord 32 0x20000000).input = [.command 0x20000000#32] ∧
      ∀ i, decode 0x20000000#32 = .ok i → legalPhase i ≠ none := by
  refine ⟨by decide, by decide, fun i h => ?_⟩
  have e : decode 0x20000000#32 = .ok .aclr := by decide
  rw [e] at h
  cases h
  decide

theorem witness_FaultedBlockRefuses_recovery :
    (faulted.withFetchWord 32 0x01000000).err ≠ none ∧
      step (faulted.withFetchWord 32 0x01000000) = .next { State.reset with responses := [.ok] } ∧
      ({ State.reset with responses := [.ok] } : State).err ≠ (faulted.withFetchWord 32 0x01000000).err :=
  ⟨by decide, rfl, by decide⟩

theorem witness_EveryCommandRespondsOnce :
    exec .aclr faulted = .next { faulted with responses := [.refused] } := by rfl

theorem witness_OutputIsOnlyAppendedTo :
    AccInv with6.toBlock ∧ exec (.lutrd .six 5#7) with6 = .next { with6 with out := [.char 0x200B#21], responses := [.ok] } :=
  ⟨by decide, rfl⟩

theorem witness_CommandOutsideItsPhaseFaults :
    legalPhase (.encStart .r64) = some .idle ∧ enc64.err = none ∧ enc64.phase ≠ .idle := by decide

theorem witness_IllegalOperandExactlyWhenExcluded :
    legalPhase (.lutrd .six 5#7) = some .idle ∧ ReadyIn .idle with6 ∧ (Instr.lutrd .six 6#7).wellFormed = false ∧
      (Instr.lutrd .r64 0#7).wellFormed = true ∧ (with6.len .r64).toNat ≤ (0#7).toNat := by decide

theorem witness_PhaseChangesOnlyByStartEndAndSrst :
    exec .numStart with6 = .next { with6 with phase := .num, radix := .six, responses := [.ok] } ∧
      Phase.num ≠ with6.phase := ⟨rfl, by decide⟩

/-- Two idle blocks with one alphabet, the second with bits held, a stale radix and another past. -/
def with6Stale : State := { holding 0xAB#64 8#7 with6 with radix := .r64, strict := true, responses := [.ok] }

theorem inv_with6Stale : BlockInv with6Stale.toBlock :=
  ⟨by decide, lut_with6, by decide, by decide, by decide, by decide⟩

theorem witness_StreamsAreIndependentOfThePast :
    BlockInv with6.toBlock ∧ BlockInv with6Stale.toBlock ∧ ReadyIn .idle with6 ∧ ReadyIn .idle with6Stale ∧
      with6.lut = with6Stale.lut ∧ (∀ b, with6.len b = with6Stale.len b) ∧
      ∀ i ∈ [Instr.numScalar 0x48#21, .numEnd], legalPhase i = some .num :=
  ⟨inv_with6, inv_with6Stale, by decide, by decide, rfl, fun b => by cases b <;> rfl, by decide⟩

theorem witness_EveryStepKeepsTheInvariant :
    BlockInv with6.toBlock ∧ step with6 = .next with6 ∧ BlockInv Block.reset ∧ step State.reset = .next State.reset :=
  ⟨inv_with6, rfl, inv_reset, rfl⟩

theorem witness_TheBlockNeverStops : BlockInv enc32Held.toBlock ∧ BlockInv dec64Held.toBlock := ⟨inv_enc32Held, inv_dec64Held⟩

end Sys2Proof.Tests
end

section
/-! The step taken when the host presents a word that decodes to a command (00_scope.md R9). -/

namespace Sys2Proof.Machine

theorem takeInput_of_input_cons {s : State} {h : HostInput} {rest : List HostInput}
    (hin : s.input = h :: rest) : takeInput s = some (h, { s with input := rest }) := by
  simp only [takeInput, hin]

theorem step_of_decode_ok {s : State} {cmd : Word} {rest : List HostInput} {i : Instr}
    (hin : s.input = .command cmd :: rest) (hdec : decode cmd = .ok i) :
    step s = exec i { s with input := rest } := by
  simp only [step, takeInput_of_input_cons hin, hdec]

/-- Settles O3: the word presented is taken from the port, and the step branches on what it decodes to. -/
theorem stepExecutesTheDecodedCommand : Obligations.StepExecutesTheDecodedCommand :=
  fun _ _ _ _ hin hdec => step_of_decode_ok hin hdec

end Sys2Proof.Machine
end


section
/-! What a command can answer, said once: the body of every command by name, the one lemma that ties it to `exec`, and
the three ways a next state comes about (60_exceptions.md R221 to R223, R234). -/

namespace Sys2Proof.Machine

/-- The body of ENC.BYTE, by the radix of the stream (R137). -/
def encByteBody (byte : Byte) (s : Block) : Effect :=
  match s.radix with
  | .r32 => encByteBlock 5 8 byte s
  | .r64 => encByteBlock 6 4 byte s
  | .r85 => encByte85 byte s
  | .six => .stuck .radixNotOfStream

/-- The body of ENC.END, by the radix of the stream (R138). -/
def encEndBody (s : Block) : Effect :=
  match s.radix with
  | .r32 => encEndBlock 5 8 s
  | .r64 => encEndBlock 6 4 s
  | .r85 => encEnd85 s
  | .six => .stuck .radixNotOfStream

/-- The body of DEC.SYM for a scalar value (R160). -/
def decSymBody (c : Ch) (s : Block) : Effect :=
  match Config.blockParams s.radix with
  | some (w, blk) => absorbChar w blk c s
  | none => .stuck .radixNotOfStream

/-- The body of DEC.END (R161, R163). -/
def decEndBody (s : Block) : Effect :=
  match Config.blockParams s.radix with
  | some (w, _) =>
    if s.bitCount.toNat ≥ w ∨ s.blkCount.toNat ≠ 0 then .raise .malformedLength
    else .done { s.setAcc ⟨0, 0⟩ with phase := .idle }
  | none => .stuck .radixNotOfStream

/-- The body of NUMD.SYM once the character is looked up (R192). -/
def numdSymBody (found : Option Nat) (s : Block) : Effect :=
  match found with
  | none => .raise .invalidSymbol
  | some i => if i = Config.delim then closeGroup s else absorbDigit i s

/-- The body of NUMD.END: what closing the last group answers, the stream closed with it (R194). -/
def numdEndBody (s : Block) : Effect :=
  match closeGroup s with
  | .done t => .done { t with phase := .idle }
  | .raise c => .raise c
  | .stuck f => .stuck f

/-- The body of every command: what it does once the checks that all commands share are passed. -/
def effectOf : Instr → Block → Effect
  | .nop, s => .done s
  | .srst, s => .done (softReset s)
  | .rdstat, s => .done (emit [.word s.status] s)
  | .rderr, s => .done (emit [.word s.errcmd] s)
  | .rdlen b, s => .done (emit [.word ((s.len b).setWidth 32)] s)
  | .lutclr b, s => .done (s.setLen b 0#8)
  | .lutapp b c, s => if !isScalar c.toNat then .raise .illegalOperand else .done (appendChar b c s)
  | .lutrd b i, s =>
    if Config.bankLen b ≤ i.toNat ∨ (s.len b).toNat ≤ i.toNat then .raise .illegalOperand
    else whenOk (lutEntry s.lut b i.toNat) fun c => .done (emitChars [c] s)
  | .aclr, s => .done (s.setAcc ⟨0, 0⟩)
  | .pushbyte b, s =>
    if s.bitCount.toNat + 8 > Config.W - 1 then .raise .accOverflow else .done (s.setAcc (accPush s.acc b.toNat 8))
  | .pushbits v w, s =>
    if !pushBitsLegal v.toNat w.toNat then .raise .illegalOperand
    else if s.bitCount.toNat + w.toNat > Config.W - 1 then .raise .accOverflow
    else .done (s.setAcc (accPush s.acc v.toNat w.toNat))
  | .extract w, s =>
    if !chunkWidthLegal w.toNat then .raise .illegalOperand
    else .done (emit ((accDrain s.acc w.toNat).1.map indexItem) (s.setAcc (accDrain s.acc w.toNat).2))
  | .flush w, s =>
    if !chunkWidthLegal w.toNat then .raise .illegalOperand
    else if s.bitCount.toNat ≥ w.toNat then .raise .accUnderdrained
    else if s.bitCount.toNat > 0 then
      .done (emit [indexItem (accFlush s.acc w.toNat).1] (s.setAcc (accFlush s.acc w.toNat).2))
    else .done s
  | .encStart b, s =>
    if b = .six then .raise .illegalOperand
    else if !s.bankValid b then .raise .alphabetSizeMismatch
    else .done { freshStream s with radix := b, phase := .enc }
  | .encByte b, s => encByteBody b s
  | .encEnd, s => encEndBody s
  | .decStart r strict, s =>
    if (Config.blockParams r).isNone then .raise .illegalOperand
    else if !s.bankValid r then .raise .alphabetSizeMismatch
    else .done { freshStream s with radix := r, strict := strict, phase := .dec }
  | .decSym c, s => if !isScalar c.toNat then .raise .illegalOperand else decSymBody c s
  | .decEnd, s => decEndBody s
  | .numStart, s =>
    if !s.bankValid .six then .raise .alphabetSizeMismatch
    else .done { s with numPend := false, radix := .six, phase := .num }
  | .numScalar c, s =>
    if !isScalar c.toNat then .raise .illegalOperand
    else whenOk (lutEntries s.lut .six (numeralIndices s.numPend c.toNat)) fun cs =>
      .done { emitChars cs s with numPend := true }
  | .numEnd, s => .done { s with numPend := false, phase := .idle }
  | .numdStart, s =>
    if !s.bankValid .six then .raise .alphabetSizeMismatch
    else .done { s with nval := 0#21, nhave := false, radix := .six, phase := .numd }
  | .numdSym c, s =>
    if !isScalar c.toNat then .raise .illegalOperand
    else whenOk (rev s.lut .six c) fun found => numdSymBody found s
  | .numdEnd, s => numdEndBody s

/-- A command that is legal in one phase runs its body behind the checks of R234. -/
theorem exec_of_legalPhase {i : Instr} {p : Phase} (h : legalPhase i = some p) (s : State) :
    exec i s = deliver s (runCommand i p s.toBlock (effectOf i s.toBlock)) := by
  cases i <;> cases h <;> rfl

/-- A system command answers what its body gives, whatever the phase and `ERR` (R205). -/
theorem exec_of_system {i : Instr} (h : legalPhase i = none) (s : State) :
    ∃ u, effectOf i s.toBlock = .done u ∧ exec i s = deliver s (.ok (u, .ok)) := by
  cases i <;> cases h <;> exact ⟨_, rfl, rfl⟩

/-- The block lets the command through to its body: unfaulted and in the command's phase, or the command is a system
command (R234). -/
abbrev PastChecks (i : Instr) (s : Block) : Prop := ∀ p, legalPhase i = some p → s.err = none ∧ s.phase = p

/-- `Answers i s u r`: the block `s` may answer the command `i` with the block `u` and the response `r`. -/
inductive Answers (i : Instr) (s : Block) : Block → Response → Prop where
  | refused (he : s.err ≠ none) : Answers i s s .refused
  | fault (he : s.err = none) (hi : legalPhase i ≠ none) (c : Cause) :
    Answers i s (raiseFault c (encode i) s).1 .fault
  | ok {u : Block} (hp : PastChecks i s) (hu : effectOf i s = .done u) : Answers i s u .ok

/-- Every next state of a command: the answer of the block, the response appended, `input` as it was. -/
theorem exec_next {i : Instr} {s t : State} (h : exec i s = .next t) :
    ∃ u r, Answers i s.toBlock u r ∧ t = { s with toBlock := u, responses := s.responses ++ [r] } := by
  cases hl : legalPhase i with
  | none =>
    obtain ⟨u, hu, he⟩ := exec_of_system hl s
    rw [he, deliver_ok] at h
    exact ⟨u, .ok, .ok (by simp [PastChecks, hl]) hu, (Host.Outcome.next.inj h).symm⟩
  | some p =>
    rw [exec_of_legalPhase hl] at h
    obtain ⟨u, r, ha, ht⟩ := deliver_next h
    refine ⟨u, r, ?_, ht⟩
    have hi : legalPhase i ≠ none := by simp [hl]
    rcases runCommand_ok ha with ⟨he, h⟩ | ⟨he, c, h, -⟩ | ⟨he, hp, v, hv, h⟩
    · cases h; exact .refused he
    · cases h; exact .fault he hi c
    · cases h; exact .ok (by simp [PastChecks, hl, he, hp]) hv

/-! ### What a body yields when it is done -/

/-- Every state the body is done with meets `P`. -/
def Effect.Yields (P : Block → Prop) (e : Effect) : Prop := ∀ u, e = .done u → P u

section Yields

variable {P : Block → Prop}

@[simp] theorem Effect.yields_done {u : Block} : (Effect.done u).Yields P ↔ P u := by simp [Effect.Yields]

@[simp] theorem Effect.yields_raise {c : Cause} : (Effect.raise c).Yields P := by simp [Effect.Yields]

@[simp] theorem Effect.yields_stuck {f : Fault} : (Effect.stuck f).Yields P := by simp [Effect.Yields]

@[simp] theorem Effect.yields_ite {c : Prop} [Decidable c] {e e' : Effect} :
    (if c then e else e').Yields P ↔ (c → e.Yields P) ∧ (¬c → e'.Yields P) := by split <;> simp_all

@[simp] theorem Effect.yields_whenOk {α : Type} {r : Except Fault α} {k : α → Effect} :
    (whenOk r k).Yields P ↔ ∀ a, r = .ok a → (k a).Yields P := by cases r <;> simp

/-- Closing the last group of a NUMD stream closes the group and the stream (R194). -/
theorem yields_numdEndBody {s : Block} :
    (numdEndBody s).Yields P ↔ (closeGroup s).Yields fun t => P { t with phase := .idle } := by
  unfold numdEndBody
  split <;> simp_all

end Yields

end Sys2Proof.Machine
end

section
/-! PHASE and `out` (10_state.md R26, R33): what each body makes of them. -/

namespace Sys2Proof.Machine

/-- The phase after a command that responds `OK` in the phase `p` (the table of R26). -/
def phaseAfter : Instr → Phase → Phase
  | .srst, _ => .idle
  | .encStart _, _ => .enc
  | .encEnd, _ => .idle
  | .decStart _ _, _ => .dec
  | .decEnd, _ => .idle
  | .numStart, _ => .num
  | .numEnd, _ => .idle
  | .numdStart, _ => .numd
  | .numdEnd, _ => .idle
  | _, p => p

/-- LUTAPP writes the LUT and `LEN` and nothing else (R122). -/
theorem appendChar_frame (b : Bank) (c : Ch) (s : Block) : appendChar b c s =
    { s with
      lut := (appendChar b c s).lut
      len32 := (appendChar b c s).len32
      len64 := (appendChar b c s).len64
      len85 := (appendChar b c s).len85
      len6 := (appendChar b c s).len6 } := by
  simp only [appendChar]
  split_ifs <;> cases b <;> rfl

@[simp] theorem appendChar_phase (b : Bank) (c : Ch) (s : Block) : (appendChar b c s).phase = s.phase := by
  rw [appendChar_frame]

@[simp] theorem appendChar_out (b : Bank) (c : Ch) (s : Block) : (appendChar b c s).out = s.out := by
  rw [appendChar_frame]

theorem encByteBody_phase (b : Byte) (s : Block) : (encByteBody b s).Yields fun u => u.phase = s.phase := by
  unfold encByteBody
  split <;> simp [encByteBlock, encByte85]

theorem encEndBody_phase (s : Block) : (encEndBody s).Yields fun u => u.phase = .idle := by
  unfold encEndBody
  split <;> simp [encEndBlock, encEnd85]

theorem decSymBody_phase (c : Ch) (s : Block) : (decSymBody c s).Yields fun u => u.phase = s.phase := by
  unfold decSymBody absorbChar
  split
  · simp only [Effect.yields_whenOk]
    intro found _
    cases found <;> simp [absorbSymbol]
  · simp

theorem decEndBody_phase (s : Block) : (decEndBody s).Yields fun u => u.phase = .idle := by
  unfold decEndBody
  split <;> simp

theorem numdSymBody_phase (found : Option Nat) (s : Block) :
    (numdSymBody found s).Yields fun u => u.phase = s.phase := by
  cases found <;> simp [numdSymBody, closeGroup, absorbDigit]

theorem numdEndBody_phase (s : Block) : (numdEndBody s).Yields fun u => u.phase = .idle := by
  simp [yields_numdEndBody, closeGroup]

/-- A body that is done leaves the phase of the table of R26. -/
theorem effectOf_phase (i : Instr) (s : Block) : (effectOf i s).Yields fun u => u.phase = phaseAfter i s.phase := by
  cases i with
  | encByte b => exact encByteBody_phase b s
  | encEnd => exact encEndBody_phase s
  | decSym c => simp [effectOf, phaseAfter, decSymBody_phase]
  | decEnd => exact decEndBody_phase s
  | numdSym c => simp [effectOf, phaseAfter, numdSymBody_phase]
  | numdEnd => exact numdEndBody_phase s
  | _ => simp [effectOf, phaseAfter]

/-- The phase moves only under SRST, in IDLE under a START, and from the phase of a stream under its END (R26). -/
theorem phaseAfter_ne {i : Instr} {p : Phase} (hl : ∀ q, legalPhase i = some q → p = q) (h : phaseAfter i p ≠ p) :
    i = .srst ∧ phaseAfter i p = .idle ∨
      p = .idle ∧ ((∃ b, i = .encStart b) ∧ phaseAfter i p = .enc ∨
        (∃ b x, i = .decStart b x) ∧ phaseAfter i p = .dec ∨ i = .numStart ∧ phaseAfter i p = .num ∨
        i = .numdStart ∧ phaseAfter i p = .numd) ∨
      phaseAfter i p = .idle ∧ (i = .encEnd ∧ p = .enc ∨ i = .decEnd ∧ p = .dec ∨ i = .numEnd ∧ p = .num ∨
        i = .numdEnd ∧ p = .numd) := by
  cases i <;> simp_all [phaseAfter, legalPhase]

/-- Settles O57: only the body of a command that is done moves PHASE, and `phaseAfter` says which does and whereto. -/
theorem phaseChangesOnlyByStartEndAndSrst : Obligations.PhaseChangesOnlyByStartEndAndSrst := by
  intro i s t h hne
  obtain ⟨u, r, ha, rfl⟩ := exec_next h
  cases ha with
  | refused => exact absurd rfl hne
  | fault => exact absurd rfl hne
  | ok hp hu =>
    have hphase : u.phase = phaseAfter i s.phase := effectOf_phase i _ u hu
    refine ⟨rfl, ?_⟩
    simp only [hphase] at hne ⊢
    exact phaseAfter_ne (fun q hq => (hp q hq).2) hne

end Sys2Proof.Machine
end

section
/-! How long the lists are that the loops of the model give: drained chunks, looked-up characters, pads, digits. -/

namespace Sys2Proof.Machine

theorem accDrainLoop_length_cnt {w : Nat} (hw : 1 ≤ w) {fuel : Nat} {a : Acc} (hf : a.cnt ≤ fuel) :
    (accDrainLoop fuel a w).1.length = a.cnt / w ∧ (accDrainLoop fuel a w).2.cnt = a.cnt % w := by
  induction fuel generalizing a with
  | zero => simp [accDrainLoop, Nat.le_zero.1 hf]
  | succ fuel ih =>
    unfold accDrainLoop
    split_ifs with h
    · obtain ⟨hlen, hcnt⟩ := ih (a := (accTake a w).2) (by simp only [accTake]; omega)
      simp only [List.length_cons, hlen, hcnt]
      exact ⟨(Nat.div_eq_sub_div hw h).symm, (Nat.mod_eq_sub_mod h).symm⟩
    · simp [Nat.div_eq_of_lt (not_le.1 h), Nat.mod_eq_of_lt (not_le.1 h)]

/-- A drain yields `cnt div w` chunks (R104). -/
theorem accDrain_length {w : Nat} (hw : 1 ≤ w) (a : Acc) : (accDrain a w).1.length = a.cnt / w :=
  (accDrainLoop_length_cnt hw le_rfl).1

/-- A drain leaves `cnt mod w` bits (R104). -/
theorem accDrain_cnt {w : Nat} (hw : 1 ≤ w) (a : Acc) : (accDrain a w).2.cnt = a.cnt % w :=
  (accDrainLoop_length_cnt hw le_rfl).2

theorem lutEntries_length {m : Memory} {b : Bank} {is : List Nat} {cs : List Ch} (h : lutEntries m b is = .ok cs) :
    cs.length = is.length := by
  induction is generalizing cs with
  | nil => cases h; rfl
  | cons i is ih =>
    unfold lutEntries at h
    split at h
    · cases h
    · split at h
      · cases h
      · next hcs => cases h; simp [ih hcs]

theorem padLoop_fst_le (blk fuel c : Nat) : (padLoop blk fuel c).1 ≤ fuel := by
  induction fuel generalizing c with
  | zero => rfl
  | succ fuel ih =>
    unfold padLoop
    split_ifs
    · exact Nat.zero_le _
    · exact Nat.succ_le_succ (ih _)

theorem numeralLenFrom_le {v L : Nat} (hv : v < Config.numRadix ^ L) {fuel l : Nat} (hl : l ≤ L) :
    numeralLenFrom fuel l v ≤ L := by
  induction fuel generalizing l with
  | zero => exact hl
  | succ fuel ih =>
    unfold numeralLenFrom
    split_ifs with h
    · exact hl
    · exact ih (lt_of_le_of_ne hl fun e => h (e ▸ hv))

/-- A number of 21 bits has at most ten base-5 digits, since `2^21 < 5^10`. -/
theorem digits5_length_le (c : Ch) : (digits5 c.toNat).length ≤ 10 := by
  have hv : c.toNat < Config.numRadix ^ 10 := c.isLt.trans (by decide)
  simpa [digits5, numeralLen] using numeralLenFrom_le hv (by decide : 1 ≤ 10)

theorem streamPush_ok {a a' : Acc} {v w : Nat} (h : streamPush a v w = .ok a') :
    a' = accPush a v w ∧ a.cnt + w ≤ Config.W - 1 := by
  unfold streamPush at h
  split_ifs at h with hw
  exact ⟨(Except.ok.inj h).symm, hw⟩

theorem streamFlush_length_le {a a' : Acc} {w : Nat} {is : List Nat} (h : streamFlush a w = .ok (is, a')) :
    is.length ≤ 1 := by
  unfold streamFlush at h
  split_ifs at h <;> cases h <;> simp

/-! ### The items of one command (R261) -/

/-- `u` has the items of `s` and at most `n` more after them. -/
def Emits (n : Nat) (s u : Block) : Prop := ∃ items, u.out = s.out ++ items ∧ items.length ≤ n

theorem Emits.nothing {n : Nat} {s u : Block} (h : u.out = s.out) : Emits n s u := ⟨[], by simp [h], Nat.zero_le n⟩

theorem Emits.items {n : Nat} {s u : Block} {items : List Item} (h : u.out = s.out ++ items) (hn : items.length ≤ n) :
    Emits n s u := ⟨items, h, hn⟩

theorem encByteBlock_emits {w : Nat} (hw : 1 ≤ w) (blk : Nat) (b : Byte) (s : Block) :
    (encByteBlock w blk b s).Yields (Emits 63 s) := by
  simp only [encByteBlock, Effect.yields_whenOk, Effect.yields_done]
  intro a ha cs hcs
  obtain ⟨rfl, hcnt⟩ := streamPush_ok ha
  refine .items rfl ?_
  calc (cs.map Item.char).length = (accPush s.acc b.toNat 8).cnt / w := by
        rw [List.length_map, lutEntries_length hcs, accDrain_length hw]
    _ ≤ 63 := (Nat.div_le_self _ _).trans hcnt

theorem encByte85_emits (b : Byte) (s : Block) : (encByte85 b s).Yields (Emits 63 s) := by
  simp only [encByte85, Effect.yields_whenOk, Effect.yields_ite, Effect.yields_done]
  exact fun a _ => ⟨fun _ cs hcs => .items rfl (by simp [lutEntries_length hcs, digits85]), fun _ => .nothing rfl⟩

theorem encEndBlock_emits (w blk : Nat) (s : Block) : (encEndBlock w blk s).Yields (Emits 63 s) := by
  simp only [encEndBlock, Effect.yields_whenOk, Effect.yields_done]
  rintro ⟨is, a⟩ hf cs hcs
  refine .items rfl ?_
  have hflush := streamFlush_length_le hf
  have hpads := padLoop_fst_le blk 8 (blkAdvance blk is.length s.blkCount.toNat)
  simp only [List.length_map, List.length_append, List.length_replicate, lutEntries_length hcs]
  omega

theorem encEnd85_emits (s : Block) : (encEnd85 s).Yields (Emits 63 s) := by
  simp only [encEnd85, Effect.yields_whenOk, Effect.yields_done]
  rintro ⟨is, a⟩ hf cs hcs
  refine .items rfl ?_
  have hflush := streamFlush_length_le hf
  rw [List.length_map, lutEntries_length hcs]
  match is, hflush with
  | [], _ => simp
  | [v], _ => simp [digits85]

theorem absorbSymbol_emits (w blk i : Nat) (s : Block) : (absorbSymbol w blk i s).Yields (Emits 63 s) := by
  simp only [absorbSymbol, Effect.yields_whenOk, Effect.yields_ite, Effect.yields_done]
  exact fun a _ => ⟨fun _ => .items rfl (by simp), fun _ => .nothing rfl⟩

theorem decSymBody_emits (c : Ch) (s : Block) : (decSymBody c s).Yields (Emits 63 s) := by
  unfold decSymBody absorbChar
  split
  · simp only [Effect.yields_whenOk]
    intro found _
    cases found with
    | some i => exact absorbSymbol_emits _ _ i s
    | none => simpa using ⟨fun _ => .nothing rfl, fun _ _ => .nothing rfl⟩
  · simp

theorem decEndBody_emits (s : Block) : (decEndBody s).Yields (Emits 63 s) := by
  unfold decEndBody
  split
  · simp [Emits.nothing]
  · simp

theorem closeGroup_emits (s : Block) : (closeGroup s).Yields (Emits 63 s) := by
  simp only [closeGroup, Effect.yields_ite, Effect.yields_raise, Effect.yields_done]
  exact ⟨fun _ => trivial, fun _ => .items rfl (by split <;> simp)⟩

theorem numdSymBody_emits (found : Option Nat) (s : Block) : (numdSymBody found s).Yields (Emits 63 s) := by
  cases found <;> simp [numdSymBody, closeGroup_emits, absorbDigit, Emits.nothing]

/-- The body of every command emits at most 63 items, EXTRACT in chunks of one bit the most. -/
theorem effectOf_emits (i : Instr) {s : Block} (h : AccInv s) : (effectOf i s).Yields (Emits 63 s) := by
  cases i with
  | srst => exact Effect.yields_done.2 (.nothing rfl)
  | rdstat => exact Effect.yields_done.2 (.items rfl (by simp))
  | rderr => exact Effect.yields_done.2 (.items rfl (by simp))
  | rdlen b => exact Effect.yields_done.2 (.items rfl (by simp))
  | lutrd b i => simpa [effectOf] using fun _ _ c _ => .items rfl (by simp)
  | aclr => exact Effect.yields_done.2 (.nothing rfl)
  | pushbyte b => simpa [effectOf] using fun _ => .nothing rfl
  | pushbits v w => simpa [effectOf] using fun _ _ => .nothing rfl
  | extract w =>
    simp only [effectOf, Effect.yields_ite, Effect.yields_raise, Effect.yields_done]
    refine ⟨fun _ => trivial, fun hw => .items rfl ?_⟩
    have hw : 1 ≤ w.toNat := by simp [chunkWidthLegal] at hw; omega
    rw [List.length_map, accDrain_length hw]
    exact (Nat.div_le_self _ _).trans (Nat.le_of_lt_succ h.1)
  | flush w => simpa [effectOf, Emits.nothing] using fun _ _ _ => .items rfl (by simp)
  | encByte b =>
    simp only [effectOf, encByteBody]
    split
    · exact encByteBlock_emits (by decide) 8 b s
    · exact encByteBlock_emits (by decide) 4 b s
    · exact encByte85_emits b s
    · simp
  | encEnd =>
    simp only [effectOf, encEndBody]
    split
    · exact encEndBlock_emits 5 8 s
    · exact encEndBlock_emits 6 4 s
    · exact encEnd85_emits s
    · simp
  | decSym c => simp [effectOf, decSymBody_emits]
  | decEnd => exact decEndBody_emits s
  | numScalar c =>
    simp only [effectOf, Effect.yields_ite, Effect.yields_raise, Effect.yields_whenOk, Effect.yields_done]
    refine ⟨fun _ => trivial, fun _ cs hcs => .items rfl ?_⟩
    have hdigits := digits5_length_le c
    rw [List.length_map, lutEntries_length hcs, numeralIndices, List.length_append]
    split <;> simp <;> omega
  | numdSym c => simp [effectOf, numdSymBody_emits]
  | numdEnd => exact yields_numdEndBody.2 (closeGroup_emits s)
  | _ => simp [effectOf, Emits.nothing]

theorem wire_toNat (it : Item) : it.wire.toNat = it.tag.toNat * 2 ^ 32 + it.value.toNat := by
  rw [Item.wire, BitVec.toNat_append, Nat.shiftLeft_eq, Nat.mul_comm, Nat.two_pow_add_eq_or_of_lt it.value.isLt]

/-- The tag codes stand above values that zero extension leaves as they are (R33). -/
theorem tag_above_value :
    (∀ c, (Item.char c).wire.toNat = c.toNat) ∧ (∀ v, (Item.index v).wire.toNat = 1 * 2 ^ 32 + v.toNat) ∧
      (∀ b, (Item.byte b).wire.toNat = 2 * 2 ^ 32 + b.toNat) ∧
      (∀ c, (Item.scalar c).wire.toNat = 3 * 2 ^ 32 + c.toNat) ∧
      ∀ w, (Item.word w).wire.toNat = 4 * 2 ^ 32 + w.toNat := by
  have hch (c : Ch) : c.toNat < 2 ^ 32 := c.isLt.trans (by decide)
  have hbyte (b : Byte) : b.toNat < 2 ^ 32 := b.isLt.trans (by decide)
  simp only [wire_toNat, Item.tag, Item.value, BitVec.toNat_setWidth, Nat.mod_eq_of_lt (hch _),
    Nat.mod_eq_of_lt (hbyte _)]
  simp

/-- Settles O54: the body of a command that is done appends its items, and every other answer leaves `out` alone. -/
theorem outputIsOnlyAppendedTo : Obligations.OutputIsOnlyAppendedTo := by
  refine ⟨tag_above_value, fun i s t hacc h => ?_⟩
  obtain ⟨u, r, ha, rfl⟩ := exec_next h
  cases ha with
  | refused => exact ⟨[], by simp, by simp, fun _ => rfl⟩
  | fault => exact ⟨[], by simp, by simp, fun _ => rfl⟩
  | ok _ hu =>
    obtain ⟨items, hout, hlen⟩ := effectOf_emits i hacc u hu
    exact ⟨items, hout, hlen, fun hne => absurd rfl hne⟩

end Sys2Proof.Machine
end

section
/-! The reset state and the STATUS image (10_state.md R36, R39). -/

namespace Sys2Proof.Machine

/-- Settles O1: each register is read off the reset state. -/
theorem resetGivesEveryRegisterItsValue : Obligations.ResetGivesEveryRegisterItsValue := by
  refine ⟨rfl, rfl, rfl, rfl, rfl, rfl, rfl, rfl, rfl, rfl, rfl, fun b => ?_, rfl, by decide⟩
  cases b <;> decide

/-- Settles O2: the reset state is one concrete block, and each part of the invariant is decidable there. -/
theorem resetMeetsInvariant : Obligations.ResetMeetsInvariant :=
  ⟨by decide, by decide, by decide, by decide, by decide, by decide⟩

/-- STATUS with its width written as the sum of the widths of its fields, which is how the lemmas about appends see
it. -/
theorem status_extractLsb' (s : Block) (lo len : Nat) :
    s.status.extractLsb' lo len =
      BitVec.extractLsb' (n := 9 + 7 + 1 + 3 + 1 + 1 + 1 + 2 + 3 + 4) lo len
        (0#9 ++ s.bitCount ++ 0#1 ++ s.blkCount ++ bitOf s.nhave ++ bitOf s.numPend ++ bitOf s.strict ++
          s.radix.bits ++ s.phase.code ++ errCode s.err) := rfl

/-- Each field of STATUS, by its lowest bit and its width (R36). -/
theorem status_fields (s : Block) :
    s.status.extractLsb' 0 4 = errCode s.err ∧ s.status.extractLsb' 4 3 = s.phase.code ∧
      s.status.extractLsb' 7 2 = s.radix.bits ∧ s.status.extractLsb' 9 1 = bitOf s.strict ∧
      s.status.extractLsb' 10 1 = bitOf s.numPend ∧ s.status.extractLsb' 11 1 = bitOf s.nhave ∧
      s.status.extractLsb' 12 3 = s.blkCount ∧ s.status.extractLsb' 15 1 = 0#1 ∧
      s.status.extractLsb' 16 7 = s.bitCount ∧ s.status.extractLsb' 23 9 = 0#9 := by
  simp [-Nat.reduceAdd, status_extractLsb', BitVec.extractLsb'_append_eq_of_add_le,
    BitVec.extractLsb'_append_eq_of_le]

/-- A bit of a word that holds a one-bit field alone is that field. -/
theorem getLsbD_of_field {w : Word} {i : Nat} {b : Bool} (h : w.extractLsb' i 1 = bitOf b) : w.getLsbD i = b := by
  have hbit : (w.extractLsb' i 1).getLsbD 0 = w.getLsbD i := by simp
  rw [← hbit, h]
  cases b <;> rfl

/-- Settles O50: STATUS is an append of fields, so each stands at the bits that the widths below it leave. -/
theorem statusHasTheStatedLayout : Obligations.StatusHasTheStatedLayout := by
  refine ⟨rfl, rfl, rfl, fun s => ?_⟩
  obtain ⟨herr, hphase, hradix, hstrict, hpend, hhave, hblk, hzero, hcnt, hhigh⟩ := status_fields s.toBlock
  exact ⟨herr, hphase, hradix, getLsbD_of_field hstrict, getLsbD_of_field hpend, getLsbD_of_field hhave, hblk,
    getLsbD_of_field (b := false) hzero, hcnt, hhigh⟩

end Sys2Proof.Machine
end

section
/-! The pieces of the invariant by themselves: bounded accumulators (R23), the LUT under LUTAPP and LUTCLR (R53), the
stream registers phase by phase (R29 to R31), and the word of a faulting command (R32). -/

namespace Sys2Proof.Machine

/-! ### The accumulator -/

/-- The bounds of R100 on an accumulator by itself; `AccInv` says the same of the one in a block. -/
def Acc.Bounded (a : Acc) : Prop := a.cnt < Config.W ∧ a.buf < 2 ^ a.cnt

theorem accInv_iff (s : Block) : AccInv s ↔ s.acc.Bounded := Iff.rfl

theorem Acc.bounded_empty : (⟨0, 0⟩ : Acc).Bounded := ⟨by decide, by decide⟩

theorem Acc.Bounded.push {a : Acc} {v w : Nat} (h : a.Bounded) (hv : v < 2 ^ w) (hw : a.cnt + w ≤ Config.W - 1) :
    (accPush a v w).Bounded := by
  refine ⟨Nat.lt_of_le_pred (by decide) hw, lt_of_le_of_lt (Nat.mod_le _ _) (Nat.or_lt_two_pow ?_ ?_)⟩
  · exact Nat.shiftLeft_lt h.2
  · exact hv.trans_le (Nat.pow_le_pow_right (by decide) (Nat.le_add_left w a.cnt))

theorem Acc.Bounded.take {a : Acc} (h : a.Bounded) (w : Nat) : (accTake a w).2.Bounded :=
  ⟨lt_of_le_of_lt (Nat.sub_le _ _) h.1, Nat.mod_lt _ (Nat.two_pow_pos _)⟩

theorem accTake_index_lt (a : Acc) (w : Nat) : (accTake a w).1 < 2 ^ w := Nat.mod_lt _ (Nat.two_pow_pos w)

theorem accFlush_index_lt (a : Acc) (w : Nat) : (accFlush a w).1 < 2 ^ w := Nat.mod_lt _ (Nat.two_pow_pos w)

theorem accDrainLoop_bounded {fuel w : Nat} {a : Acc} (h : a.Bounded) :
    (accDrainLoop fuel a w).2.Bounded ∧ ∀ i ∈ (accDrainLoop fuel a w).1, i < 2 ^ w := by
  induction fuel generalizing a with
  | zero => exact ⟨h, by simp [accDrainLoop]⟩
  | succ fuel ih =>
    unfold accDrainLoop
    split_ifs with hw
    · obtain ⟨hrest, hlt⟩ := ih (h.take w)
      exact ⟨hrest, List.forall_mem_cons.2 ⟨accTake_index_lt a w, hlt⟩⟩
    · exact ⟨h, by simp⟩

/-- A drain keeps the bounds, since each take does (R104). -/
theorem Acc.Bounded.drain {a : Acc} (h : a.Bounded) (w : Nat) : (accDrain a w).2.Bounded := (accDrainLoop_bounded h).1

/-- Every index a drain yields fits its chunk (R102). -/
theorem accDrain_index_lt {a : Acc} (h : a.Bounded) {w i : Nat} (hi : i ∈ (accDrain a w).1) : i < 2 ^ w :=
  (accDrainLoop_bounded h).2 i hi

/-- A bounded accumulator fits the registers it is written to. -/
theorem Acc.Bounded.acc_setAcc {a : Acc} (h : a.Bounded) (s : Block) : (s.setAcc a).acc = a := by
  obtain ⟨hcnt, hbuf⟩ := h
  have hbuf : a.buf < 2 ^ 64 := hbuf.trans (Nat.pow_lt_pow_right (by decide) hcnt)
  simp only [Block.acc, Block.setAcc_buffer, Block.setAcc_bitCount, BitVec.toNat_ofNat, Nat.mod_eq_of_lt hbuf,
    Nat.mod_eq_of_lt (hcnt.trans (by decide) : a.cnt < 2 ^ 7)]

theorem Acc.Bounded.accInv_setAcc {a : Acc} (h : a.Bounded) (s : Block) : AccInv (s.setAcc a) := by
  rw [accInv_iff, h.acc_setAcc]
  exact h

theorem Acc.Bounded.bitCount_setAcc {a : Acc} (h : a.Bounded) (s : Block) : (s.setAcc a).bitCount.toNat = a.cnt :=
  congrArg Acc.cnt (h.acc_setAcc s)

/-! ### The block count -/

theorem blkAdvance_eq {blk c : Nat} (n : Nat) (h : c < blk) : blkAdvance blk n c = (c + n) % blk := by
  induction n generalizing c with
  | zero => exact (Nat.mod_eq_of_lt h).symm
  | succ n ih => rw [blkAdvance, ih (Nat.mod_lt _ (Nat.zero_lt_of_lt h)), Nat.mod_add_mod]; congr 1; omega

/-- Padding ends at a whole block when the turns suffice (R138). -/
theorem padLoop_snd {blk fuel c : Nat} (hc : c < blk) (hf : blk - c ≤ fuel) : (padLoop blk fuel c).2 = 0 := by
  induction fuel generalizing c with
  | zero => omega
  | succ fuel ih =>
    unfold padLoop
    split_ifs with h0
    · rfl
    · rcases Nat.lt_or_ge (c + 1) blk with h | h
      · simpa [Nat.mod_eq_of_lt h] using ih h (by omega)
      · rw [show (c + 1) % blk = 0 by rw [show c + 1 = blk by omega, Nat.mod_self]]
        cases fuel <;> rfl

/-! ### The LUT -/

theorem mem_of_lutEntry {m : Memory} {b : Bank} {i : Nat} {c : Ch} (h : lutEntry m b i = .ok c) :
    ∃ a, (a, c) ∈ m := by
  unfold lutEntry memRead at h
  split_ifs at h
  split at h
  · next hr => cases h; exact ⟨_, Memory.mem_of_read hr⟩
  · cases h

theorem mem_of_lutEntries {m : Memory} {b : Bank} {is : List Nat} {cs : List Ch} (h : lutEntries m b is = .ok cs) :
    ∀ c ∈ cs, ∃ a, (a, c) ∈ m := by
  induction is generalizing cs with
  | nil => cases h; simp
  | cons i is ih =>
    unfold lutEntries at h
    split at h
    · cases h
    · next hc =>
      split at h
      · cases h
      · next hcs => cases h; exact List.forall_mem_cons.2 ⟨mem_of_lutEntry hc, ih hcs⟩

/-- A character that the LUT gives is a scalar value (R122). -/
theorem LutInv.isScalar_of_mem {s : Block} (h : LutInv s) {c : Ch} (hc : ∃ a, (a, c) ∈ s.lut) :
    isScalar c.toNat = true :=
  let ⟨_, hm⟩ := hc
  h.2.1 _ hm

theorem appendChar_lut (b : Bank) (c : Ch) (s : Block) : (appendChar b c s).lut =
    if (s.len b).toNat < Config.bankLen b then Memory.write s.lut (lutAddr b (s.len b).toNat) c else s.lut := by
  simp only [appendChar]
  split_ifs <;> simp

theorem len_of_store (s : Block) (m : Memory) (p : Prop) [Decidable p] (b : Bank) :
    (if p then { s with lut := m } else s).len b = s.len b := by
  split <;> cases b <;> rfl

/-- LUTAPP counts up to 255 in its own bank and nowhere else (R122). -/
theorem appendChar_len (b b' : Bank) (c : Ch) (s : Block) : ((appendChar b c s).len b').toNat =
    if b' = b then min ((s.len b).toNat + 1) 255 else (s.len b').toNat := by
  have hn := (s.len b).isLt
  have hmax : Config.lenMax = 255 := rfl
  unfold appendChar
  by_cases hlen : (s.len b).toNat < Config.lenMax <;> by_cases hb : b' = b <;> simp [hlen, hb, len_of_store] <;> omega

theorem LutInv.setLen_zero {s : Block} (h : LutInv s) (b : Bank) : LutInv (s.setLen b 0#8) := by
  obtain ⟨hwf, hscalar, hwritten⟩ := h
  refine ⟨by simpa using hwf, by simpa using hscalar, fun b' hb' i hi => ?_⟩
  rw [Block.len_setLen] at hi
  split_ifs at hi
  · simp at hi
  · simpa using hwritten b' hb' i hi

theorem LutInv.appendChar {s : Block} (h : LutInv s) (b : Bank) {c : Ch} (hc : isScalar c.toNat = true) :
    LutInv (appendChar b c s) := by
  obtain ⟨hwf, hscalar, hwritten⟩ := h
  unfold LutInv
  rw [appendChar_lut]
  refine ⟨?_, ?_, fun b' hb' i hi => ?_⟩
  · split_ifs with hn
    · exact Memory.wf_write c hwf (addrExists_lutAddr hn)
    · exact hwf
  · split_ifs with hn
    · intro p hp
      rcases Memory.mem_write hp with rfl | hp
      · exact hc
      · exact hscalar p hp
    · exact hscalar
  · rw [appendChar_len] at hi
    have hold : lutAddr b' i ≠ lutAddr b (s.len b).toNat ∨ Config.bankLen b ≤ (s.len b).toNat →
        i < min (s.len b').toNat (Config.bankLen b') := by
      intro hne
      split_ifs at hi with hbb
      · subst hbb
        have : i ≠ (s.len b').toNat := fun e => by rcases hne with hne | hne <;> [exact hne (by rw [e]); omega]
        omega
      · exact hi
    split_ifs with hn
    · rw [Memory.read_write]
      split_ifs with ha
      · rfl
      · exact hwritten b' hb' i (hold (.inl ha))
    · exact hwritten b' hb' i (hold (.inr (not_lt.1 hn)))

/-! ### The stream registers, phase by phase -/

section StreamInv

variable {s : Block}

theorem streamInv_idle_iff (h : s.phase = .idle) :
    StreamInv s ↔ s.blkCount = 0#3 ∧ s.numPend = false ∧ s.nhave = false := by simp [StreamInv, h]

theorem streamInv_enc_iff (h : s.phase = .enc) :
    StreamInv s ↔ EncInv s ∧ s.numPend = false ∧ s.nhave = false := by simp [StreamInv, h]

theorem streamInv_dec_iff (h : s.phase = .dec) :
    StreamInv s ↔ DecInv s ∧ s.numPend = false ∧ s.nhave = false := by simp [StreamInv, h]

theorem streamInv_num_iff (h : s.phase = .num) :
    StreamInv s ↔ (s.radix = .six ∧ s.bankValid .six = true) ∧ s.blkCount = 0#3 ∧ s.nhave = false := by
  simp [StreamInv, h]

theorem streamInv_numd_iff (h : s.phase = .numd) :
    StreamInv s ↔ (s.radix = .six ∧ s.bankValid .six = true) ∧ s.blkCount = 0#3 ∧ s.numPend = false := by
  simp [StreamInv, h]

/-- The two radices whose text is cut into blocks, with their parameters (R4). -/
theorem blockParams_eq_some {r : Bank} {w blk : Nat} (h : Config.blockParams r = some (w, blk)) :
    r = .r32 ∧ w = 5 ∧ blk = 8 ∨ r = .r64 ∧ w = 6 ∧ blk = 4 := by
  cases r <;> simp_all [Config.blockParams]

/-- In radix 32 and 64 the length of the alphabet is that of the chunks. -/
theorem bankLen_eq_two_pow {r : Bank} {w blk : Nat} (h : Config.blockParams r = some (w, blk)) :
    Config.bankLen r = 2 ^ w := by
  rcases blockParams_eq_some h with ⟨rfl, rfl, rfl⟩ | ⟨rfl, rfl, rfl⟩ <;> rfl

/-- The clauses of an open ENC stream in radix 32 or 64, in the parameters of the radix (R29, R137). -/
theorem encInv_block_iff {w blk : Nat} (h : Config.blockParams s.radix = some (w, blk)) :
    EncInv s ↔ s.bankValid s.radix = true ∧ s.bitCount.toNat < w ∧ s.blkCount.toNat < blk ∧
      (w * s.blkCount.toNat + s.bitCount.toNat) % 8 = 0 := by
  have hblk := s.blkCount.isLt
  rcases blockParams_eq_some h with ⟨hr, rfl, rfl⟩ | ⟨hr, rfl, rfl⟩
  · simp only [EncInv, hr]; simp; omega
  · simp only [EncInv, hr]; simp

/-- The clauses of an open ENC stream in radix 85 (R29, R137). -/
theorem encInv_85_iff (h : s.radix = .r85) :
    EncInv s ↔ s.bankValid .r85 = true ∧ s.bitCount.toNat ∈ [0, 8, 16, 24] ∧ s.blkCount.toNat = 0 := by
  simp [EncInv, h]

/-- The clauses of an open DEC stream, in the parameters of its radix (R29, R106). -/
theorem decInv_iff {w blk : Nat} (h : Config.blockParams s.radix = some (w, blk)) :
    DecInv s ↔ s.bankValid s.radix = true ∧ s.bitCount.toNat < 8 ∧ s.blkCount.toNat < blk ∧
      (w = 6 → s.bitCount.toNat % 2 = 0) := by
  have hblk := s.blkCount.isLt
  rcases blockParams_eq_some h with ⟨hr, rfl, rfl⟩ | ⟨hr, rfl, rfl⟩
  · simp only [DecInv, hr]; simp; omega
  · simp only [DecInv, hr]; simp

end StreamInv

/-! ### The word of a faulting command -/

theorem append_ne_zero {m n : Nat} {x : BitVec m} (y : BitVec n) (h : x ≠ 0#m) : x ++ y ≠ 0#(m + n) := by
  intro e
  apply h
  have hx := congrArg (BitVec.extractLsb' n m) e
  rwa [BitVec.extractLsb'_append_eq_left, BitVec.extractLsb'_zero] at hx

/-- The word of NOP alone is 0, so `ERRCMD` is not 0 after a fault (R32). -/
theorem encode_ne_zero {i : Instr} (h : legalPhase i ≠ none) : encode i ≠ 0#32 := by
  cases i with
  | nop | srst | rdstat | rderr | rdlen => exact absurd rfl h
  | aclr | encEnd | decEnd | numStart | numEnd | numdStart | numdEnd => decide
  | lutclr b | pushbyte b | extract b | flush b | encStart b | encByte b | decSym b | numScalar b | numdSym b =>
    exact append_ne_zero _ (append_ne_zero _ (by decide))
  | lutapp b c | lutrd b c | pushbits b c | decStart b c =>
    exact append_ne_zero _ (append_ne_zero _ (append_ne_zero _ (by decide)))

end Sys2Proof.Machine
end

section
/-! Every step keeps the invariant (10_state.md R23, R27, R29 to R33; 20_memory.md R53; 40_accumulator.md R106): one
lemma per body, over every block that meets it. -/

namespace Sys2Proof.Machine

section Keeps

variable {s : Block}

/-! ### The parts of the invariant by name -/

theorem BlockInv.acc_bounded (h : BlockInv s) : s.acc.Bounded := h.1

theorem BlockInv.lutInv (h : BlockInv s) : LutInv s := h.2.1

theorem BlockInv.encInv (h : BlockInv s) (hp : s.phase = .enc) : EncInv s := by
  obtain ⟨-, -, ⟨henc, -⟩, -⟩ := h
  exact henc hp

theorem BlockInv.decInv (h : BlockInv s) (hp : s.phase = .dec) : DecInv s := by
  obtain ⟨-, -, ⟨-, hdec, -⟩, -⟩ := h
  exact hdec hp

/-- The bank of an open stream of the phase NUM or NUMD is valid (R27). -/
theorem BlockInv.six_valid (h : BlockInv s) (hp : s.phase = .num ∨ s.phase = .numd) : s.bankValid .six = true := by
  obtain ⟨-, -, ⟨-, -, hnum, -⟩, -⟩ := h
  exact (hnum hp).2

theorem BlockInv.nval_le (h : BlockInv s) : s.nval.toNat ≤ Config.maxScalar := by
  obtain ⟨-, -, -, ⟨hmax, -⟩, -⟩ := h
  exact hmax

/-! ### Any phase -/

theorem BlockInv.emit (h : BlockInv s) {items : List Item} (hi : ∀ it ∈ items, it.scalarOnly = true) :
    BlockInv (emit items s) := by
  obtain ⟨hacc, hlut, hstream, hnum, herr, hout⟩ := h
  exact ⟨hacc, hlut, hstream, hnum, herr, List.forall_mem_append.2 ⟨hout, hi⟩⟩

/-- Scalar values may be emitted as characters (R33). -/
theorem BlockInv.emitChars (h : BlockInv s) {cs : List Ch} (hc : ∀ c ∈ cs, isScalar c.toNat = true) :
    BlockInv (emitChars cs s) :=
  h.emit (List.forall_mem_map.2 hc)

theorem isScalar_of_lutEntries (h : BlockInv s) {b : Bank} {is : List Nat} {cs : List Ch}
    (hcs : lutEntries s.lut b is = .ok cs) : ∀ c ∈ cs, isScalar c.toNat = true :=
  fun c hc => h.lutInv.isScalar_of_mem (mem_of_lutEntries hcs c hc)

theorem BlockInv.softReset (h : BlockInv s) : BlockInv (softReset s) := by
  obtain ⟨-, hlut, -, -, -, hout⟩ := h
  exact ⟨Acc.bounded_empty, hlut, by simp [StreamInv], by simp [NumeralInv], by simp [ErrInv], hout⟩

/-- A fault writes `ERR` and the word of the command, which is not 0 (R222). -/
theorem BlockInv.raiseFault (h : BlockInv s) (c : Cause) {w : Word} (hw : w ≠ 0#32) :
    BlockInv (raiseFault c w s).1 := by
  obtain ⟨hacc, hlut, hstream, hnum, -, hout⟩ := h
  exact ⟨hacc, hlut, hstream, hnum, by simp [ErrInv, hw], hout⟩

/-! ### The commands of the phase IDLE -/

theorem BlockInv.setAcc_idle (h : BlockInv s) (hp : s.phase = .idle) {a : Acc} (ha : a.Bounded) :
    BlockInv (s.setAcc a) := by
  obtain ⟨-, hlut, hstream, hnum, herr, hout⟩ := h
  rw [streamInv_idle_iff hp] at hstream
  exact ⟨ha.accInv_setAcc s, hlut, (streamInv_idle_iff (by exact hp)).2 hstream, hnum, herr, hout⟩

theorem BlockInv.lutclr (h : BlockInv s) (hp : s.phase = .idle) (b : Bank) : BlockInv (s.setLen b 0#8) := by
  obtain ⟨hacc, hlut, hstream, hnum, herr, hout⟩ := h
  rw [streamInv_idle_iff hp] at hstream
  exact ⟨by simpa [AccInv] using hacc, hlut.setLen_zero b, by rw [streamInv_idle_iff] <;> simpa,
    by simpa [NumeralInv] using hnum, by simpa [ErrInv] using herr, by simpa using hout⟩

theorem BlockInv.lutapp (h : BlockInv s) (hp : s.phase = .idle) (b : Bank) {c : Ch} (hc : isScalar c.toNat = true) :
    BlockInv (appendChar b c s) := by
  obtain ⟨hacc, hlut, hstream, hnum, herr, hout⟩ := h
  have hlut := hlut.appendChar b hc
  rw [streamInv_idle_iff hp] at hstream
  rw [appendChar_frame] at hlut ⊢
  exact ⟨hacc, hlut, (streamInv_idle_iff (by exact hp)).2 hstream, hnum, herr, hout⟩

theorem BlockInv.accPush_idle (h : BlockInv s) (hp : s.phase = .idle) {v w : Nat} (hv : v < 2 ^ w)
    (hw : s.bitCount.toNat + w ≤ Config.W - 1) : BlockInv (s.setAcc (accPush s.acc v w)) :=
  h.setAcc_idle hp (h.acc_bounded.push hv hw)

/-! ### The START commands -/

theorem BlockInv.encStart (h : BlockInv s) (hp : s.phase = .idle) {b : Bank} (hb : b ≠ .six)
    (hv : s.bankValid b = true) : BlockInv { freshStream s with radix := b, phase := .enc } := by
  obtain ⟨-, hlut, hstream, hnum, herr, hout⟩ := h
  obtain ⟨-, hpend, hhave⟩ := (streamInv_idle_iff hp).1 hstream
  have henc : EncInv { freshStream s with radix := b, phase := .enc } := ⟨hv, by cases b <;> simp at hb ⊢⟩
  exact ⟨Acc.bounded_empty, hlut, (streamInv_enc_iff rfl).2 ⟨henc, hpend, hhave⟩, hnum, herr, hout⟩

theorem BlockInv.decStart (h : BlockInv s) (hp : s.phase = .idle) {r : Bank} {w blk : Nat}
    (hr : Config.blockParams r = some (w, blk)) (strict : Bool) (hv : s.bankValid r = true) :
    BlockInv { freshStream s with radix := r, strict := strict, phase := .dec } := by
  obtain ⟨-, hlut, hstream, hnum, herr, hout⟩ := h
  obtain ⟨-, hpend, hhave⟩ := (streamInv_idle_iff hp).1 hstream
  have hdec : DecInv { freshStream s with radix := r, strict := strict, phase := .dec } :=
    (decInv_iff hr).2 ⟨hv, by rcases blockParams_eq_some hr with ⟨-, -, rfl⟩ | ⟨-, -, rfl⟩ <;> simp⟩
  exact ⟨Acc.bounded_empty, hlut, (streamInv_dec_iff rfl).2 ⟨hdec, hpend, hhave⟩, hnum, herr, hout⟩

theorem BlockInv.numStart (h : BlockInv s) (hp : s.phase = .idle) (hv : s.bankValid .six = true) :
    BlockInv { s with numPend := false, radix := .six, phase := .num } := by
  obtain ⟨hacc, hlut, hstream, hnum, herr, hout⟩ := h
  obtain ⟨hblk, -, hhave⟩ := (streamInv_idle_iff hp).1 hstream
  exact ⟨hacc, hlut, (streamInv_num_iff rfl).2 ⟨⟨rfl, hv⟩, hblk, hhave⟩, hnum, herr, hout⟩

theorem BlockInv.numdStart (h : BlockInv s) (hp : s.phase = .idle) (hv : s.bankValid .six = true) :
    BlockInv { s with nval := 0#21, nhave := false, radix := .six, phase := .numd } := by
  obtain ⟨hacc, hlut, hstream, -, herr, hout⟩ := h
  obtain ⟨hblk, hpend, -⟩ := (streamInv_idle_iff hp).1 hstream
  exact ⟨hacc, hlut, (streamInv_numd_iff rfl).2 ⟨⟨rfl, hv⟩, hblk, hpend⟩, ⟨Nat.zero_le _, fun _ => rfl⟩, herr,
    hout⟩

/-! ### ENC and DEC streams -/

theorem streamPush_bounded {a a' : Acc} {v w : Nat} (h : a.Bounded) (hv : v < 2 ^ w) (ha : streamPush a v w = .ok a') :
    a'.Bounded ∧ a'.cnt = a.cnt + w := by
  obtain ⟨rfl, hroom⟩ := streamPush_ok ha
  exact ⟨h.push hv hroom, rfl⟩

theorem streamFlush_bounded {a a' : Acc} {w : Nat} {is : List Nat} (h : a.Bounded)
    (ha : streamFlush a w = .ok (is, a')) : a'.Bounded := by
  unfold streamFlush at ha
  split_ifs at ha <;> cases ha
  · exact h
  · exact Acc.bounded_empty

/-- The accumulator and the block count of an open ENC stream may take any values that meet its clauses. -/
theorem BlockInv.advance_enc (h : BlockInv s) (hp : s.phase = .enc) {a : Acc} {k : BitVec 3} (ha : a.Bounded)
    (he : EncInv { s.setAcc a with blkCount := k }) : BlockInv { s.setAcc a with blkCount := k } := by
  obtain ⟨-, hlut, hstream, hnum, herr, hout⟩ := h
  obtain ⟨-, hpend, hhave⟩ := (streamInv_enc_iff hp).1 hstream
  exact ⟨ha.accInv_setAcc s, hlut, (streamInv_enc_iff (by exact hp)).2 ⟨he, hpend, hhave⟩, hnum, herr, hout⟩

/-- The accumulator and the block count of an open DEC stream may take any values that meet its clauses. -/
theorem BlockInv.advance_dec (h : BlockInv s) (hp : s.phase = .dec) {a : Acc} {k : BitVec 3} (ha : a.Bounded)
    (hd : DecInv { s.setAcc a with blkCount := k }) : BlockInv { s.setAcc a with blkCount := k } := by
  obtain ⟨-, hlut, hstream, hnum, herr, hout⟩ := h
  obtain ⟨-, hpend, hhave⟩ := (streamInv_dec_iff hp).1 hstream
  exact ⟨ha.accInv_setAcc s, hlut, (streamInv_dec_iff (by exact hp)).2 ⟨hd, hpend, hhave⟩, hnum, herr, hout⟩

/-- A stream that ends with an empty block count leaves an idle block (R29). -/
theorem BlockInv.close (h : BlockInv s) (hp : s.phase = .enc ∨ s.phase = .dec) {a : Acc} {k : BitVec 3}
    (ha : a.Bounded) (hk : k = 0#3) : BlockInv { s.setAcc a with blkCount := k, phase := .idle } := by
  obtain ⟨-, hlut, ⟨-, -, -, -, hpend, hhave⟩, hnum, herr, hout⟩ := h
  have hpend : s.numPend = false := hpend (by rcases hp with hp | hp <;> simp [hp])
  have hhave : s.nhave = false := hhave (by rcases hp with hp | hp <;> simp [hp])
  exact ⟨ha.accInv_setAcc s, hlut, (streamInv_idle_iff rfl).2 ⟨hk, hpend, hhave⟩, hnum, herr, hout⟩

/-- The bits counted, modulo whole blocks of whole bytes, and the bits held: chunks move from the one to the other and
their sum stays what it is modulo 8. -/
theorem counted_add_held_mod {w blk : Nat} (hd : 8 ∣ w * blk) (b n : Nat) :
    (w * ((b + n / w) % blk) + n % w) % 8 = (w * b + n) % 8 := by
  rw [← Nat.mul_mod_mul_left, Nat.add_mod, Nat.mod_mod_of_dvd _ hd, ← Nat.add_mod, Nat.mul_add, Nat.add_assoc,
    Nat.div_add_mod]

theorem encByteBlock_keeps (h : BlockInv s) (hp : s.phase = .enc) {w blk : Nat}
    (hw : Config.blockParams s.radix = some (w, blk)) (byte : Byte) : (encByteBlock w blk byte s).Yields BlockInv := by
  obtain ⟨hv, hcnt, hblk, hwhole⟩ := (encInv_block_iff hw).1 (h.encInv hp)
  simp only [encByteBlock, Effect.yields_whenOk, Effect.yields_done]
  intro a ha cs hcs
  obtain ⟨hbounded, ha⟩ := streamPush_bounded h.acc_bounded byte.isLt ha
  rw [Block.acc_cnt] at ha
  refine BlockInv.emitChars (h.advance_enc hp (hbounded.drain w) ?_) (isScalar_of_lutEntries h hcs)
  refine (encInv_block_iff (by exact hw)).2 ⟨hv, ?_⟩
  have hw1 : 1 ≤ w := Nat.one_le_of_lt hcnt
  have hblk8 : blk ≤ 8 ∧ 8 ∣ w * blk := by
    rcases blockParams_eq_some hw with ⟨-, rfl, rfl⟩ | ⟨-, rfl, rfl⟩ <;> decide
  have hmod (n : Nat) : n % blk < blk := Nat.mod_lt n (Nat.zero_lt_of_lt hblk)
  simp only [(hbounded.drain w).bitCount_setAcc, accDrain_cnt hw1, accDrain_length hw1, blkAdvance_eq _ hblk,
    BitVec.toNat_ofNat, Nat.mod_eq_of_lt ((hmod _).trans_le hblk8.1)]
  refine ⟨Nat.mod_lt _ hw1, hmod _, ?_⟩
  rw [counted_add_held_mod hblk8.2, ha, ← Nat.add_assoc, Nat.add_mod_right, hwhole]

theorem encByte85_keeps (h : BlockInv s) (hp : s.phase = .enc) (hr : s.radix = .r85) (byte : Byte) :
    (encByte85 byte s).Yields BlockInv := by
  obtain ⟨hv, hcnt, hblk⟩ := (encInv_85_iff hr).1 (h.encInv hp)
  simp only [encByte85, Effect.yields_whenOk, Effect.yields_ite, Effect.yields_done]
  intro a ha
  obtain ⟨hbounded, ha⟩ := streamPush_bounded h.acc_bounded byte.isLt ha
  rw [Block.acc_cnt] at ha
  simp only [List.mem_cons, List.not_mem_nil, or_false] at hcnt
  refine ⟨fun hfull cs hcs => ?_, fun hopen => ?_⟩
  · refine BlockInv.emitChars (h.advance_enc hp (hbounded.take _) ?_) (isScalar_of_lutEntries h hcs)
    refine (encInv_85_iff (by exact hr)).2 ⟨hv, ?_, hblk⟩
    simp [accTake, hfull]
  · refine h.advance_enc hp hbounded ((encInv_85_iff (by exact hr)).2 ⟨hv, ?_, hblk⟩)
    have hopen : a.cnt ≠ 32 := hopen
    simp only [hbounded.bitCount_setAcc, List.mem_cons, List.not_mem_nil, or_false]
    omega

theorem encEndBlock_keeps (h : BlockInv s) (hp : s.phase = .enc) {w blk : Nat}
    (hw : Config.blockParams s.radix = some (w, blk)) : (encEndBlock w blk s).Yields BlockInv := by
  obtain ⟨-, -, hblk, -⟩ := (encInv_block_iff hw).1 (h.encInv hp)
  simp only [encEndBlock, Effect.yields_whenOk, Effect.yields_done]
  rintro ⟨is, a⟩ ha cs hcs
  have hblk8 : blk ≤ 8 := by rcases blockParams_eq_some hw with ⟨-, -, rfl⟩ | ⟨-, -, rfl⟩ <;> decide
  have hpads : BitVec.ofNat 3 (padLoop blk 8 (blkAdvance blk is.length s.blkCount.toNat)).2 = 0#3 := by
    rw [blkAdvance_eq _ hblk, padLoop_snd (Nat.mod_lt _ (Nat.zero_lt_of_lt hblk)) (by omega)]
  refine BlockInv.emitChars (h.close (.inl hp) (streamFlush_bounded h.acc_bounded ha) hpads) ?_
  refine List.forall_mem_append.2 ⟨isScalar_of_lutEntries h hcs, fun c hc => ?_⟩
  rw [List.eq_of_mem_replicate hc]
  decide

theorem encEnd85_keeps (h : BlockInv s) (hp : s.phase = .enc) (hr : s.radix = .r85) :
    (encEnd85 s).Yields BlockInv := by
  obtain ⟨-, -, hblk⟩ := (encInv_85_iff hr).1 (h.encInv hp)
  simp only [encEnd85, Effect.yields_whenOk, Effect.yields_done]
  rintro ⟨is, a⟩ ha cs hcs
  exact BlockInv.emitChars (h.close (.inl hp) (streamFlush_bounded h.acc_bounded ha) (BitVec.eq_of_toNat_eq hblk))
    (isScalar_of_lutEntries h hcs)

theorem encByteBody_keeps (h : BlockInv s) (hp : s.phase = .enc) (byte : Byte) :
    (encByteBody byte s).Yields BlockInv := by
  unfold encByteBody
  split
  · next hr => exact encByteBlock_keeps h hp (by rw [hr]; rfl) byte
  · next hr => exact encByteBlock_keeps h hp (by rw [hr]; rfl) byte
  · next hr => exact encByte85_keeps h hp hr byte
  · exact Effect.yields_stuck

theorem encEndBody_keeps (h : BlockInv s) (hp : s.phase = .enc) : (encEndBody s).Yields BlockInv := by
  unfold encEndBody
  split
  · next hr => exact encEndBlock_keeps h hp (by rw [hr]; rfl)
  · next hr => exact encEndBlock_keeps h hp (by rw [hr]; rfl)
  · next hr => exact encEnd85_keeps h hp hr
  · exact Effect.yields_stuck

theorem revScan_lt {m : Memory} {b : Bank} {c : Ch} {n k i : Nat} (h : revScan m b c n k = .ok (some i)) :
    i < k + n := by
  induction n generalizing k with
  | zero => cases h
  | succ n ih =>
    unfold revScan at h
    split at h
    · cases h
    · split_ifs at h
      · cases h; omega
      · have := ih h; omega

/-- What a reverse look-up finds is an index of the bank (R55). -/
theorem rev_lt {m : Memory} {b : Bank} {c : Ch} {i : Nat} (h : rev m b c = .ok (some i)) : i < Config.bankLen b := by
  simpa using revScan_lt h

theorem absorbSymbol_keeps (h : BlockInv s) (hp : s.phase = .dec) {w blk i : Nat}
    (hw : Config.blockParams s.radix = some (w, blk)) (hi : i < Config.bankLen s.radix) :
    (absorbSymbol w blk i s).Yields BlockInv := by
  obtain ⟨hv, hcnt, hblk, heven⟩ := (decInv_iff hw).1 (h.decInv hp)
  rw [bankLen_eq_two_pow hw] at hi
  simp only [absorbSymbol, Effect.yields_whenOk, Effect.yields_ite, Effect.yields_done]
  intro a ha
  obtain ⟨hbounded, ha⟩ := streamPush_bounded h.acc_bounded hi ha
  rw [Block.acc_cnt] at ha
  have hdec {a' : Acc} (hb : a'.Bounded) (hcnt' : a'.cnt < 8) (heven' : a'.cnt % 2 = a.cnt % 2) :
      BlockInv { s.setAcc a' with blkCount := BitVec.ofNat 3 (blkAdvance blk 1 s.blkCount.toNat) } := by
    refine h.advance_dec hp hb ((decInv_iff (by exact hw)).2 ⟨hv, ?_⟩)
    simp only [hb.bitCount_setAcc, blkAdvance_eq _ hblk, BitVec.toNat_ofNat]
    rcases blockParams_eq_some hw with ⟨-, rfl, rfl⟩ | ⟨-, rfl, rfl⟩ <;> omega
  refine ⟨fun hbyte => ?_, fun hless => hdec hbounded (not_le.1 hless) rfl⟩
  have hw6 : w ≤ 6 := by rcases blockParams_eq_some hw with ⟨-, rfl, -⟩ | ⟨-, rfl, -⟩ <;> decide
  have hrest : (accTake a 8).2.cnt = a.cnt - 8 := rfl
  exact BlockInv.emit (hdec (hbounded.take 8) (by omega) (by omega)) (by simp [Item.scalarOnly])

/-- The pad character is counted and nothing else (R160). -/
theorem BlockInv.countPad (h : BlockInv s) (hp : s.phase = .dec) {w blk : Nat}
    (hw : Config.blockParams s.radix = some (w, blk)) : BlockInv (s.setBlk (blkAdvance blk 1 s.blkCount.toNat)) := by
  obtain ⟨hv, hcnt, hblk, heven⟩ := (decInv_iff hw).1 (h.decInv hp)
  have hdec : DecInv (s.setBlk (blkAdvance blk 1 s.blkCount.toNat)) := by
    refine (decInv_iff (by exact hw)).2 ⟨hv, hcnt, ?_, heven⟩
    simp only [Block.setBlk_blkCount, blkAdvance_eq _ hblk, BitVec.toNat_ofNat]
    rcases blockParams_eq_some hw with ⟨-, rfl, rfl⟩ | ⟨-, rfl, rfl⟩ <;> omega
  obtain ⟨hacc, hlut, hstream, hnum, herr, hout⟩ := h
  obtain ⟨-, hpend, hhave⟩ := (streamInv_dec_iff hp).1 hstream
  exact ⟨hacc, hlut, (streamInv_dec_iff (by exact hp)).2 ⟨hdec, hpend, hhave⟩, hnum, herr, hout⟩

theorem decSymBody_keeps (h : BlockInv s) (hp : s.phase = .dec) (c : Ch) : (decSymBody c s).Yields BlockInv := by
  unfold decSymBody absorbChar
  split
  · next w blk hw =>
    simp only [Effect.yields_whenOk]
    intro found hfound
    cases found with
    | some i => exact absorbSymbol_keeps h hp hw (rev_lt hfound)
    | none => simpa using ⟨fun _ => h.countPad hp hw, fun _ _ => h⟩
  · exact Effect.yields_stuck

theorem decEndBody_keeps (h : BlockInv s) (hp : s.phase = .dec) : (decEndBody s).Yields BlockInv := by
  unfold decEndBody
  split
  · simp only [Effect.yields_ite, Effect.yields_raise, Effect.yields_done, not_or, not_not]
    exact ⟨fun _ => trivial, fun ⟨_, hblk⟩ => h.close (.inr hp) Acc.bounded_empty (BitVec.eq_of_toNat_eq hblk)⟩
  · exact Effect.yields_stuck

/-! ### NUM and NUMD streams -/

theorem BlockInv.setPend (h : BlockInv s) (hp : s.phase = .num) : BlockInv { s with numPend := true } := by
  obtain ⟨hacc, hlut, hstream, hnum, herr, hout⟩ := h
  exact ⟨hacc, hlut, (streamInv_num_iff (by exact hp)).2 ((streamInv_num_iff hp).1 hstream), hnum, herr, hout⟩

theorem BlockInv.numEnd (h : BlockInv s) (hp : s.phase = .num) :
    BlockInv { s with numPend := false, phase := .idle } := by
  obtain ⟨hacc, hlut, hstream, hnum, herr, hout⟩ := h
  obtain ⟨-, hblk, hhave⟩ := (streamInv_num_iff hp).1 hstream
  exact ⟨hacc, hlut, (streamInv_idle_iff rfl).2 ⟨hblk, rfl, hhave⟩, hnum, herr, hout⟩

/-- The numeral accumulator of an open NUMD stream may take any value that meets its clauses. -/
theorem BlockInv.setGroup (h : BlockInv s) (hp : s.phase = .numd) {v : Ch} {b : Bool}
    (hv : v.toNat ≤ Config.maxScalar) (hb : b = false → v = 0#21) : BlockInv { s with nval := v, nhave := b } := by
  obtain ⟨hacc, hlut, hstream, -, herr, hout⟩ := h
  rw [streamInv_numd_iff hp] at hstream
  exact ⟨hacc, hlut, (streamInv_numd_iff (by exact hp)).2 hstream, ⟨hv, hb⟩, herr, hout⟩

theorem BlockInv.numdEnd (h : BlockInv s) (hp : s.phase = .numd) (hhave : s.nhave = false) :
    BlockInv { s with phase := .idle } := by
  obtain ⟨hacc, hlut, hstream, hnum, herr, hout⟩ := h
  obtain ⟨-, hblk, hpend⟩ := (streamInv_numd_iff hp).1 hstream
  exact ⟨hacc, hlut, (streamInv_idle_iff rfl).2 ⟨hblk, hpend, hhave⟩, hnum, herr, hout⟩

/-- A group that closes yields a scalar value: at most 0x10FFFF by the invariant, and no surrogate by R195. -/
theorem closeGroup_keeps (h : BlockInv s) (hp : s.phase = .numd) :
    (closeGroup s).Yields fun t => BlockInv t ∧ t.phase = .numd ∧ t.nhave = false := by
  simp only [closeGroup, Effect.yields_ite, Effect.yields_raise, Effect.yields_done]
  refine ⟨fun _ => trivial, fun hscalar => ⟨?_, hp, trivial⟩⟩
  refine BlockInv.emit (h.setGroup hp (Nat.zero_le _) fun _ => rfl) fun it hit => ?_
  split at hit
  · next hhave =>
    rw [List.mem_singleton.1 hit, Item.scalarOnly, isScalar_iff]
    exact ⟨h.nval_le, fun hsurr => hscalar ⟨hhave, hsurr⟩⟩
  · simp at hit

theorem absorbDigit_keeps (h : BlockInv s) (hp : s.phase = .numd) (i : Nat) : (absorbDigit i s).Yields BlockInv := by
  simp only [absorbDigit, Effect.yields_ite, Effect.yields_raise, Effect.yields_done]
  refine ⟨fun _ => trivial, fun hmax => h.setGroup hp ?_ (by simp)⟩
  exact (Nat.mod_le _ _).trans (not_lt.1 hmax)

theorem numdSymBody_keeps (h : BlockInv s) (hp : s.phase = .numd) (found : Option Nat) :
    (numdSymBody found s).Yields BlockInv := by
  cases found with
  | none => exact Effect.yields_raise
  | some i =>
    exact Effect.yields_ite.2 ⟨fun _ t ht => (closeGroup_keeps h hp t ht).1, fun _ => absorbDigit_keeps h hp i⟩

theorem numdEndBody_keeps (h : BlockInv s) (hp : s.phase = .numd) : (numdEndBody s).Yields BlockInv :=
  yields_numdEndBody.2 fun t ht =>
    let ⟨hinv, hphase, hhave⟩ := closeGroup_keeps h hp t ht
    hinv.numdEnd hphase hhave

end Keeps

/-! ### Every command, every step -/

/-- A body that is done keeps the invariant. -/
theorem effectOf_keeps {i : Instr} {s : Block} (h : BlockInv s) (hc : PastChecks i s) :
    (effectOf i s).Yields BlockInv := by
  cases i with
  | nop => exact Effect.yields_done.2 h
  | srst => exact Effect.yields_done.2 h.softReset
  | rdstat => exact Effect.yields_done.2 (h.emit (by simp [Item.scalarOnly]))
  | rderr => exact Effect.yields_done.2 (h.emit (by simp [Item.scalarOnly]))
  | rdlen b => exact Effect.yields_done.2 (h.emit (by simp [Item.scalarOnly]))
  | lutclr b => exact Effect.yields_done.2 (h.lutclr (hc _ rfl).2 b)
  | lutapp b c => simpa [effectOf] using h.lutapp (hc _ rfl).2 b
  | lutrd b x =>
    simp only [effectOf, Effect.yields_ite, Effect.yields_raise, Effect.yields_whenOk, Effect.yields_done]
    refine ⟨fun _ => trivial, fun _ c hentry => h.emitChars ?_⟩
    simpa using h.lutInv.isScalar_of_mem (mem_of_lutEntry hentry)
  | aclr => exact Effect.yields_done.2 (h.setAcc_idle (hc _ rfl).2 Acc.bounded_empty)
  | pushbyte b =>
    exact Effect.yields_ite.2 ⟨fun _ => Effect.yields_raise, fun hroom =>
      Effect.yields_done.2 (h.accPush_idle (hc _ rfl).2 b.isLt (not_lt.1 hroom))⟩
  | pushbits v w =>
    simp only [effectOf, Effect.yields_ite, Effect.yields_raise, Effect.yields_done]
    refine ⟨fun _ => trivial, fun hlegal => ⟨fun _ => trivial, fun hroom => ?_⟩⟩
    simp only [pushBitsLegal, Bool.not_eq_true, Bool.not_eq_false', Bool.and_eq_true, decide_eq_true_eq] at hlegal
    exact h.accPush_idle (hc _ rfl).2 hlegal.2 (not_lt.1 hroom)
  | extract w =>
    simp only [effectOf, Effect.yields_ite, Effect.yields_raise, Effect.yields_done]
    exact ⟨fun _ => trivial, fun _ =>
      (h.setAcc_idle (hc _ rfl).2 (h.acc_bounded.drain _)).emit (by simp [indexItem, Item.scalarOnly])⟩
  | flush w =>
    simp only [effectOf, Effect.yields_ite, Effect.yields_raise, Effect.yields_done]
    exact ⟨fun _ => trivial, fun _ => ⟨fun _ => trivial, fun _ => ⟨fun _ =>
      (h.setAcc_idle (hc _ rfl).2 Acc.bounded_empty).emit (by simp [indexItem, Item.scalarOnly]), fun _ => h⟩⟩⟩
  | encStart b =>
    simp only [effectOf, Effect.yields_ite, Effect.yields_raise, Effect.yields_done]
    exact ⟨fun _ => trivial, fun hb => ⟨fun _ => trivial, fun hv =>
      h.encStart (hc _ rfl).2 hb (by simpa using hv)⟩⟩
  | encByte b => exact encByteBody_keeps h (hc _ rfl).2 b
  | encEnd => exact encEndBody_keeps h (hc _ rfl).2
  | decStart r strict =>
    simp only [effectOf, Effect.yields_ite, Effect.yields_raise, Effect.yields_done]
    refine ⟨fun _ => trivial, fun hr => ⟨fun _ => trivial, fun hv => ?_⟩⟩
    obtain ⟨⟨w, blk⟩, hr⟩ := Option.ne_none_iff_exists'.1 (by simpa using hr)
    exact h.decStart (hc _ rfl).2 hr strict (by simpa using hv)
  | decSym c => simpa [effectOf] using fun _ => decSymBody_keeps h (hc _ rfl).2 c
  | decEnd => exact decEndBody_keeps h (hc _ rfl).2
  | numStart => simpa [effectOf] using h.numStart (hc _ rfl).2
  | numScalar c =>
    simp only [effectOf, Effect.yields_ite, Effect.yields_raise, Effect.yields_whenOk, Effect.yields_done]
    exact ⟨fun _ => trivial, fun _ cs hcs => (h.setPend (hc _ rfl).2).emitChars (isScalar_of_lutEntries h hcs)⟩
  | numEnd => exact Effect.yields_done.2 (h.numEnd (hc _ rfl).2)
  | numdStart => simpa [effectOf] using h.numdStart (hc _ rfl).2
  | numdSym c => simpa [effectOf] using fun _ found _ => numdSymBody_keeps h (hc _ rfl).2 found
  | numdEnd => exact numdEndBody_keeps h (hc _ rfl).2

theorem exec_keeps {i : Instr} {s t : State} (h : BlockInv s.toBlock) (he : exec i s = .next t) :
    BlockInv t.toBlock := by
  obtain ⟨u, r, ha, rfl⟩ := exec_next he
  cases ha with
  | refused => exact h
  | fault _ hi c => exact h.raiseFault c (encode_ne_zero hi)
  | ok hc hu => exact effectOf_keeps h hc u hu

/-- The word 0 is NOP, so an illegal word is not 0. -/
theorem illegalWord_ne_zero {cmd : Word} {e : IllegalWord} (h : decode cmd = .error e) : cmd ≠ 0#32 := by
  rintro rfl
  have hnop : decode 0#32 = .ok .nop := by decide
  cases hnop.symm.trans h

theorem illegalWord_keeps {cmd : Word} {e : IllegalWord} {s t : State} (hd : decode cmd = .error e)
    (h : BlockInv s.toBlock) (ht : onBlock s (illegalWord cmd) = .next t) : BlockInv t.toBlock := by
  simp only [onBlock, illegalWord] at ht
  split at ht <;> cases ht
  · exact h
  · exact h.raiseFault .illegalCommand (illegalWord_ne_zero hd)

/-- Settles O59: a step is a reset, a command, an illegal word, or nothing. -/
theorem everyStepKeepsTheInvariant : Obligations.EveryStepKeepsTheInvariant := by
  intro s t h hstep
  unfold step takeInput at hstep
  split at hstep
  · cases hstep; exact h
  · cases hstep; exact resetMeetsInvariant
  · next cmd s' htake =>
    have hs' : BlockInv s'.toBlock := by
      split at htake <;> cases htake
      exact h
    split at hstep
    · exact exec_keeps hs' hstep
    · next e hd => exact illegalWord_keeps hd hs' hstep

end Sys2Proof.Machine
end

section
/-! No body is stuck in a block that meets the invariant: every look-up is of a written entry and every accumulator
function is within its precondition (20_memory.md R53, 40_accumulator.md R100, R106). -/

namespace Sys2Proof.Machine

/-- The body does not stop the model. -/
def Effect.Runs (e : Effect) : Prop := ∀ f, e ≠ .stuck f

@[simp] theorem Effect.runs_done {u : Block} : (Effect.done u).Runs := by simp [Effect.Runs]

@[simp] theorem Effect.runs_raise {c : Cause} : (Effect.raise c).Runs := by simp [Effect.Runs]

@[simp] theorem Effect.runs_ite {c : Prop} [Decidable c] {e e' : Effect} :
    (if c then e else e').Runs ↔ (c → e.Runs) ∧ (¬c → e'.Runs) := by split <;> simp_all

theorem Effect.runs_whenOk {α : Type} {r : Except Fault α} {k : α → Effect} (hr : ∃ a, r = .ok a)
    (hk : ∀ a, r = .ok a → (k a).Runs) : (whenOk r k).Runs := by
  obtain ⟨a, ha⟩ := hr
  simpa [ha] using hk a ha

section Runs

variable {s : Block}

theorem streamPush_exists {a : Acc} {w : Nat} (v : Nat) (h : a.cnt + w ≤ Config.W - 1) :
    ∃ a', streamPush a v w = .ok a' := ⟨_, if_pos h⟩

theorem streamFlush_exists {a : Acc} {w : Nat} (h : a.cnt < w) : ∃ r, streamFlush a w = .ok r := by
  unfold streamFlush
  split_ifs <;> exact ⟨_, rfl⟩

theorem streamFlush_index_lt {a a' : Acc} {w : Nat} {is : List Nat} (h : streamFlush a w = .ok (is, a')) :
    ∀ i ∈ is, i < 2 ^ w := by
  unfold streamFlush at h
  split_ifs at h <;> cases h
  · simp
  · simpa using accFlush_index_lt a w

/-- Every entry of a valid bank is there to be looked up (R53). -/
theorem lutEntry_exists (h : LutInv s) {b : Bank} (hv : s.bankValid b = true) {i : Nat} (hi : i < Config.bankLen b) :
    ∃ c, lutEntry s.lut b i = .ok c := by
  obtain ⟨c, hc⟩ := Option.isSome_iff_exists.1 (h.written_of_valid hv hi)
  exact ⟨c, lutEntry_of_read hi hc⟩

theorem lutEntries_exists (h : LutInv s) {b : Bank} (hv : s.bankValid b = true) {is : List Nat}
    (his : ∀ i ∈ is, i < Config.bankLen b) : ∃ cs, lutEntries s.lut b is = .ok cs :=
  ⟨_, lutEntries_ok fun i hi => ⟨his i hi, h.written_of_valid hv (his i hi)⟩⟩

theorem revScan_exists {m : Memory} {b : Bank} (c : Ch) {n k : Nat}
    (h : ∀ i < k + n, ∃ c', lutEntry m b i = .ok c') : ∃ found, revScan m b c n k = .ok found := by
  induction n generalizing k with
  | zero => exact ⟨none, rfl⟩
  | succ n ih =>
    obtain ⟨c', hc'⟩ := h k (by omega)
    simp only [revScan, hc']
    split
    · exact ⟨some k, rfl⟩
    · exact ih fun i hi => h i (by omega)

theorem rev_exists (h : LutInv s) {b : Bank} (hv : s.bankValid b = true) (c : Ch) :
    ∃ found, rev s.lut b c = .ok found :=
  revScan_exists c fun _ hi => lutEntry_exists h hv (by simpa using hi)

theorem encByteBlock_runs (h : BlockInv s) (hp : s.phase = .enc) {w blk : Nat}
    (hw : Config.blockParams s.radix = some (w, blk)) (byte : Byte) : (encByteBlock w blk byte s).Runs := by
  obtain ⟨hv, hcnt, -, -⟩ := (encInv_block_iff hw).1 (h.encInv hp)
  have hw6 : w ≤ 6 := by rcases blockParams_eq_some hw with ⟨-, rfl, -⟩ | ⟨-, rfl, -⟩ <;> decide
  refine Effect.runs_whenOk (streamPush_exists _ (by simp; omega)) fun a ha => ?_
  have hbounded := (streamPush_bounded h.acc_bounded byte.isLt ha).1
  refine Effect.runs_whenOk (lutEntries_exists h.lutInv hv fun i hi => ?_) fun _ _ => Effect.runs_done
  rw [bankLen_eq_two_pow hw]
  exact accDrain_index_lt hbounded hi

theorem encByte85_runs (h : BlockInv s) (hp : s.phase = .enc) (hr : s.radix = .r85) (byte : Byte) :
    (encByte85 byte s).Runs := by
  obtain ⟨hv, hcnt, -⟩ := (encInv_85_iff hr).1 (h.encInv hp)
  simp only [List.mem_cons, List.not_mem_nil, or_false] at hcnt
  refine Effect.runs_whenOk (streamPush_exists _ (by simp; omega)) fun a _ => ?_
  refine Effect.runs_ite.2 ⟨fun _ => ?_, by simp⟩
  exact Effect.runs_whenOk (lutEntries_exists h.lutInv hv fun _ => digits85_lt) (by simp)

theorem encEndBlock_runs (h : BlockInv s) (hp : s.phase = .enc) {w blk : Nat}
    (hw : Config.blockParams s.radix = some (w, blk)) : (encEndBlock w blk s).Runs := by
  obtain ⟨hv, hcnt, -, -⟩ := (encInv_block_iff hw).1 (h.encInv hp)
  refine Effect.runs_whenOk (streamFlush_exists hcnt) fun r hr => ?_
  refine Effect.runs_whenOk (lutEntries_exists h.lutInv hv fun i hi => ?_) (by simp)
  rw [bankLen_eq_two_pow hw]
  exact streamFlush_index_lt hr i hi

theorem encEnd85_runs (h : BlockInv s) (hp : s.phase = .enc) (hr : s.radix = .r85) : (encEnd85 s).Runs := by
  obtain ⟨hv, hcnt, -⟩ := (encInv_85_iff hr).1 (h.encInv hp)
  simp only [List.mem_cons, List.not_mem_nil, or_false] at hcnt
  refine Effect.runs_whenOk (streamFlush_exists (by simp [Config.chunk85]; omega)) fun r _ => ?_
  refine Effect.runs_whenOk (lutEntries_exists h.lutInv hv fun d hd => ?_) (by simp)
  obtain ⟨v, -, hd⟩ := List.mem_flatMap.1 hd
  exact digits85_lt (List.mem_of_mem_take hd)

theorem encByteBody_runs (h : BlockInv s) (hp : s.phase = .enc) (byte : Byte) : (encByteBody byte s).Runs := by
  unfold encByteBody
  split
  · next hr => exact encByteBlock_runs h hp (by rw [hr]; rfl) byte
  · next hr => exact encByteBlock_runs h hp (by rw [hr]; rfl) byte
  · next hr => exact encByte85_runs h hp hr byte
  · next hr => simpa [EncInv, hr] using h.encInv hp

theorem encEndBody_runs (h : BlockInv s) (hp : s.phase = .enc) : (encEndBody s).Runs := by
  unfold encEndBody
  split
  · next hr => exact encEndBlock_runs h hp (by rw [hr]; rfl)
  · next hr => exact encEndBlock_runs h hp (by rw [hr]; rfl)
  · next hr => exact encEnd85_runs h hp hr
  · next hr => simpa [EncInv, hr] using h.encInv hp

/-- The radix of an open DEC stream is one that DEC.START takes (R27). -/
theorem blockParams_of_decInv (h : DecInv s) : ∃ w blk, Config.blockParams s.radix = some (w, blk) := by
  obtain ⟨-, -, hr | ⟨hr, -, -⟩⟩ := h <;> rw [hr] <;> exact ⟨_, _, rfl⟩

theorem decSymBody_runs (h : BlockInv s) (hp : s.phase = .dec) (c : Ch) : (decSymBody c s).Runs := by
  obtain ⟨w, blk, hw⟩ := blockParams_of_decInv (h.decInv hp)
  obtain ⟨hv, hcnt, -, -⟩ := (decInv_iff hw).1 (h.decInv hp)
  have hw6 : w ≤ 6 := by rcases blockParams_eq_some hw with ⟨-, rfl, -⟩ | ⟨-, rfl, -⟩ <;> decide
  simp only [decSymBody, hw]
  refine Effect.runs_whenOk (rev_exists h.lutInv hv c) fun found _ => ?_
  cases found with
  | none => simp
  | some i => exact Effect.runs_whenOk (streamPush_exists _ (by simp; omega)) (by simp)

theorem decEndBody_runs (h : BlockInv s) (hp : s.phase = .dec) : (decEndBody s).Runs := by
  obtain ⟨w, blk, hw⟩ := blockParams_of_decInv (h.decInv hp)
  simp [decEndBody, hw]

theorem numeralIndices_lt (pend : Bool) (v : Nat) : ∀ i ∈ numeralIndices pend v, i < Config.bankLen .six := by
  intro i hi
  rcases List.mem_append.1 hi with hi | hi
  · split at hi
    · rw [List.mem_singleton.1 hi]; decide
    · cases hi
  · exact (digits5_lt hi).trans (by decide)

theorem closeGroup_runs (s : Block) : (closeGroup s).Runs := by simp [closeGroup]

theorem numdSymBody_runs (found : Option Nat) (s : Block) : (numdSymBody found s).Runs := by
  cases found <;> simp [numdSymBody, closeGroup_runs, absorbDigit]

theorem numdEndBody_runs (s : Block) : (numdEndBody s).Runs := by
  unfold numdEndBody
  split
  · simp
  · simp
  · next f hf => exact absurd hf (closeGroup_runs s f)

end Runs

/-- No body that is past the checks is stuck. -/
theorem effectOf_runs {i : Instr} {s : Block} (h : BlockInv s) (hc : PastChecks i s) : (effectOf i s).Runs := by
  cases i with
  | lutrd b x =>
    refine Effect.runs_ite.2 ⟨by simp, fun hx => Effect.runs_whenOk ?_ (by simp)⟩
    obtain ⟨hn, hl⟩ := not_or.1 hx
    obtain ⟨c, hc⟩ := Option.isSome_iff_exists.1 (h.lutInv.written (not_le.1 hl) (not_le.1 hn))
    exact ⟨c, lutEntry_of_read (not_le.1 hn) hc⟩
  | encByte b => exact encByteBody_runs h (hc _ rfl).2 b
  | encEnd => exact encEndBody_runs h (hc _ rfl).2
  | decSym c => simp [effectOf, decSymBody_runs h (hc _ rfl).2]
  | decEnd => exact decEndBody_runs h (hc _ rfl).2
  | numScalar c =>
    refine Effect.runs_ite.2 ⟨by simp, fun _ => Effect.runs_whenOk ?_ (by simp)⟩
    exact lutEntries_exists h.lutInv (h.six_valid (.inl (hc _ rfl).2)) (numeralIndices_lt _ _)
  | numdSym c =>
    refine Effect.runs_ite.2 ⟨by simp, fun _ => Effect.runs_whenOk ?_ fun found _ => numdSymBody_runs found s⟩
    exact rev_exists h.lutInv (h.six_valid (.inr (hc _ rfl).2)) c
  | numdEnd => exact numdEndBody_runs s
  | _ => simp [effectOf]

end Sys2Proof.Machine
end

section
/-! No stream's result depends on the past (10_state.md R38): two blocks that agree on the alphabets and on the
registers of the open stream answer its commands alike. -/

namespace Sys2Proof.Machine

/-! ### Bodies that end alike -/

/-- Two bodies end the same way, in states related by `R` where they are done. -/
def Effect.Alike (R : Block → Block → Prop) : Effect → Effect → Prop
  | .done u, .done u' => R u u'
  | .raise c, .raise c' => c = c'
  | .stuck f, .stuck f' => f = f'
  | _, _ => False

section Alike

variable {R : Block → Block → Prop}

theorem Effect.alike_whenOk {α : Type} {r : Except Fault α} {k k' : α → Effect} (h : ∀ a, (k a).Alike R (k' a)) :
    (whenOk r k).Alike R (whenOk r k') := by
  cases r with
  | ok a => exact h a
  | error f => exact rfl

theorem Effect.alike_ite {c : Prop} [Decidable c] {e₁ e₂ e₁' e₂' : Effect} (h₁ : e₁.Alike R e₁')
    (h₂ : e₂.Alike R e₂') : (if c then e₁ else e₂).Alike R (if c then e₁' else e₂') := by split <;> assumption

end Alike

/-! ### Blocks that agree on a stream -/

/-- The registers that the commands of the stream of a phase read (R26 to R31). -/
def SameRegisters : Phase → Block → Block → Prop
  | .idle, _, _ => True
  | .enc, s, s' => s.radix = s'.radix ∧ s.acc = s'.acc ∧ s.blkCount = s'.blkCount
  | .dec, s, s' => s.radix = s'.radix ∧ s.acc = s'.acc ∧ s.blkCount = s'.blkCount ∧ s.strict = s'.strict
  | .num, s, s' => s.numPend = s'.numPend
  | .numd, s, s' => s.nval = s'.nval ∧ s.nhave = s'.nhave

/-- Two blocks in the phase `p` that differ at most in what the stream of `p` never reads. -/
structure SameStream (p : Phase) (s s' : Block) : Prop where
  phase : s.phase = p
  phase' : s'.phase = p
  err : s.err = s'.err
  lut : s.lut = s'.lut
  len : ∀ b, s.len b = s'.len b
  registers : SameRegisters p s s'

/-- From `s` and `s'`, blocks `u` and `u'` that agree on the stream of `p` and have the same new items. -/
def Follow (p : Phase) (s s' u u' : Block) : Prop :=
  SameStream p u u' ∧ ∃ items, u.out = s.out ++ items ∧ u'.out = s'.out ++ items

section Bodies

variable {s s' : Block}

theorem SameStream.bankValid {p : Phase} (h : SameStream p s s') (b : Bank) : s.bankValid b = s'.bankValid b := by
  simp only [Block.bankValid, h.len b]

/-- The same fault in both blocks writes no register of a stream (R222). -/
theorem SameStream.raiseFault {p : Phase} (h : SameStream p s s') (c : Cause) (w : Word) :
    SameStream p (raiseFault c w s).1 (raiseFault c w s').1 := by
  obtain ⟨hp, hp', -, hlut, hlen, hreg⟩ := h
  exact ⟨hp, hp', rfl, hlut, hlen, by cases p <;> exact hreg⟩

theorem encByteBlock_alike (h : SameStream .enc s s') (w blk : Nat) (b : Byte) :
    (encByteBlock w blk b s).Alike (Follow .enc s s') (encByteBlock w blk b s') := by
  obtain ⟨hp, hp', herr, hlut, hlen, hradix, hacc, hblk⟩ := h
  simp only [encByteBlock, ← hlut, ← hradix, ← hacc, ← hblk]
  refine Effect.alike_whenOk fun a => Effect.alike_whenOk fun cs => ?_
  exact ⟨⟨hp, hp', herr, hlut, hlen, hradix, rfl, rfl⟩, _, rfl, rfl⟩

theorem encByte85_alike (h : SameStream .enc s s') (b : Byte) :
    (encByte85 b s).Alike (Follow .enc s s') (encByte85 b s') := by
  obtain ⟨hp, hp', herr, hlut, hlen, hradix, hacc, hblk⟩ := h
  simp only [encByte85, ← hlut, ← hacc]
  refine Effect.alike_whenOk fun a => Effect.alike_ite (Effect.alike_whenOk fun cs => ?_) ?_
  · exact ⟨⟨hp, hp', herr, hlut, hlen, hradix, rfl, hblk⟩, _, rfl, rfl⟩
  · exact ⟨⟨hp, hp', herr, hlut, hlen, hradix, rfl, hblk⟩, [], by simp, by simp⟩

theorem encEndBlock_alike (h : SameStream .enc s s') (w blk : Nat) :
    (encEndBlock w blk s).Alike (Follow .idle s s') (encEndBlock w blk s') := by
  obtain ⟨-, -, herr, hlut, hlen, hradix, hacc, hblk⟩ := h
  simp only [encEndBlock, ← hlut, ← hradix, ← hacc, ← hblk]
  refine Effect.alike_whenOk fun a => Effect.alike_whenOk fun cs => ?_
  exact ⟨⟨rfl, rfl, herr, hlut, hlen, trivial⟩, _, rfl, rfl⟩

theorem encEnd85_alike (h : SameStream .enc s s') : (encEnd85 s).Alike (Follow .idle s s') (encEnd85 s') := by
  obtain ⟨-, -, herr, hlut, hlen, -, hacc, -⟩ := h
  simp only [encEnd85, ← hlut, ← hacc]
  refine Effect.alike_whenOk fun a => Effect.alike_whenOk fun cs => ?_
  exact ⟨⟨rfl, rfl, herr, hlut, hlen, trivial⟩, _, rfl, rfl⟩

theorem encByteBody_alike (h : SameStream .enc s s') (b : Byte) :
    (encByteBody b s).Alike (Follow .enc s s') (encByteBody b s') := by
  unfold encByteBody
  rw [← h.registers.1]
  cases s.radix with
  | r32 => exact encByteBlock_alike h 5 8 b
  | r64 => exact encByteBlock_alike h 6 4 b
  | r85 => exact encByte85_alike h b
  | six => exact rfl

theorem encEndBody_alike (h : SameStream .enc s s') : (encEndBody s).Alike (Follow .idle s s') (encEndBody s') := by
  unfold encEndBody
  rw [← h.registers.1]
  cases s.radix with
  | r32 => exact encEndBlock_alike h 5 8
  | r64 => exact encEndBlock_alike h 6 4
  | r85 => exact encEnd85_alike h
  | six => exact rfl

theorem absorbSymbol_alike (h : SameStream .dec s s') (w blk i : Nat) :
    (absorbSymbol w blk i s).Alike (Follow .dec s s') (absorbSymbol w blk i s') := by
  obtain ⟨hp, hp', herr, hlut, hlen, hradix, hacc, hblk, hstrict⟩ := h
  simp only [absorbSymbol, ← hacc, ← hblk]
  refine Effect.alike_whenOk fun a => Effect.alike_ite ?_ ?_
  · exact ⟨⟨hp, hp', herr, hlut, hlen, hradix, rfl, rfl, hstrict⟩, _, rfl, rfl⟩
  · exact ⟨⟨hp, hp', herr, hlut, hlen, hradix, rfl, rfl, hstrict⟩, [], by simp, by simp⟩

theorem decSymBody_alike (h : SameStream .dec s s') (c : Ch) :
    (decSymBody c s).Alike (Follow .dec s s') (decSymBody c s') := by
  obtain ⟨hp, hp', herr, hlut, hlen, hradix, hacc, hblk, hstrict⟩ := id h
  simp only [decSymBody, absorbChar, ← hlut, ← hradix, ← hblk, ← hstrict]
  split
  · refine Effect.alike_whenOk fun found => ?_
    cases found with
    | some i => exact absorbSymbol_alike h _ _ i
    | none =>
      refine Effect.alike_ite ?_ (Effect.alike_ite rfl ?_)
      · exact ⟨⟨hp, hp', herr, hlut, hlen, hradix, hacc, rfl, hstrict⟩, [], by simp, by simp⟩
      · exact ⟨h, [], by simp, by simp⟩
  · exact rfl

theorem decEndBody_alike (h : SameStream .dec s s') : (decEndBody s).Alike (Follow .idle s s') (decEndBody s') := by
  obtain ⟨-, -, herr, hlut, hlen, hradix, hacc, hblk, -⟩ := h
  have hcnt : s.bitCount.toNat = s'.bitCount.toNat := congrArg Acc.cnt hacc
  simp only [decEndBody, ← hradix, ← hcnt, ← hblk]
  split
  · exact Effect.alike_ite rfl ⟨⟨rfl, rfl, herr, hlut, hlen, trivial⟩, [], by simp, by simp⟩
  · exact rfl

theorem closeGroup_alike (h : SameStream .numd s s') : (closeGroup s).Alike (Follow .numd s s') (closeGroup s') := by
  obtain ⟨hp, hp', herr, hlut, hlen, hval, hhave⟩ := h
  simp only [closeGroup, ← hval, ← hhave]
  exact Effect.alike_ite rfl ⟨⟨hp, hp', herr, hlut, hlen, rfl, rfl⟩, _, rfl, rfl⟩

theorem absorbDigit_alike (h : SameStream .numd s s') (i : Nat) :
    (absorbDigit i s).Alike (Follow .numd s s') (absorbDigit i s') := by
  obtain ⟨hp, hp', herr, hlut, hlen, hval, -⟩ := h
  simp only [absorbDigit, ← hval]
  exact Effect.alike_ite rfl ⟨⟨hp, hp', herr, hlut, hlen, rfl, rfl⟩, [], by simp, by simp⟩

theorem numdSymBody_alike (h : SameStream .numd s s') (found : Option Nat) :
    (numdSymBody found s).Alike (Follow .numd s s') (numdSymBody found s') := by
  cases found with
  | none => exact rfl
  | some i => exact Effect.alike_ite (closeGroup_alike h) (absorbDigit_alike h i)

theorem numdEndBody_alike (h : SameStream .numd s s') :
    (numdEndBody s).Alike (Follow .idle s s') (numdEndBody s') := by
  have hclose := closeGroup_alike h
  unfold numdEndBody
  cases hs : closeGroup s <;> cases hs' : closeGroup s' <;> simp only [hs, hs', Effect.Alike] at hclose ⊢
  · obtain ⟨⟨-, -, herr, hlut, hlen, -⟩, items, hout, hout'⟩ := hclose
    exact ⟨⟨rfl, rfl, herr, hlut, hlen, trivial⟩, items, hout, hout'⟩
  · exact hclose
  · exact hclose

/-- The data and END commands of a stream end alike in blocks that agree on it. -/
theorem effectOf_alike {i : Instr} {p : Phase} (hl : legalPhase i = some p) (hp : p ≠ .idle) (h : SameStream p s s') :
    (effectOf i s).Alike (Follow (phaseAfter i p) s s') (effectOf i s') := by
  cases i with
  | encByte b => cases hl; exact encByteBody_alike h b
  | encEnd => cases hl; exact encEndBody_alike h
  | decSym c => cases hl; exact Effect.alike_ite rfl (decSymBody_alike h c)
  | decEnd => cases hl; exact decEndBody_alike h
  | numScalar c =>
    cases hl
    obtain ⟨hp, hp', herr, hlut, hlen, hpend⟩ := h
    have hpend : s.numPend = s'.numPend := hpend
    simp only [effectOf, ← hlut, ← hpend]
    exact Effect.alike_ite rfl (Effect.alike_whenOk fun cs => ⟨⟨hp, hp', herr, hlut, hlen, rfl⟩, _, rfl, rfl⟩)
  | numEnd =>
    cases hl
    exact ⟨⟨rfl, rfl, h.err, h.lut, h.len, trivial⟩, [], by simp, by simp⟩
  | numdSym c =>
    cases hl
    simp only [effectOf, ← h.lut]
    exact Effect.alike_ite rfl (Effect.alike_whenOk fun found => numdSymBody_alike h found)
  | numdEnd => cases hl; exact numdEndBody_alike h
  | _ => cases hl <;> exact absurd rfl hp

/-- The START command of a stream, and the phase it opens (R26). -/
def Starts (i : Instr) (p : Phase) : Prop :=
  (∃ b, i = .encStart b) ∧ p = .enc ∨ (∃ b x, i = .decStart b x) ∧ p = .dec ∨ i = .numStart ∧ p = .num ∨
    i = .numdStart ∧ p = .numd

/-- A START command writes every register that the stream it opens reads (R38). -/
theorem effectOf_start_alike {i : Instr} {p : Phase} (hi : Starts i p) (h : SameStream .idle s s') :
    (effectOf i s).Alike (Follow p s s') (effectOf i s') := by
  obtain ⟨-, -, herr, hlut, hlen, -⟩ := id h
  obtain ⟨⟨b, rfl⟩, rfl⟩ | ⟨⟨r, strict, rfl⟩, rfl⟩ | ⟨rfl, rfl⟩ | ⟨rfl, rfl⟩ := hi
  all_goals simp only [effectOf, ← h.bankValid]
  · refine Effect.alike_ite rfl (Effect.alike_ite rfl ?_)
    exact ⟨⟨rfl, rfl, herr, hlut, hlen, rfl, rfl, rfl⟩, [], by simp, by simp⟩
  · refine Effect.alike_ite rfl (Effect.alike_ite rfl ?_)
    exact ⟨⟨rfl, rfl, herr, hlut, hlen, rfl, rfl, rfl, rfl⟩, [], by simp, by simp⟩
  · exact Effect.alike_ite rfl ⟨⟨rfl, rfl, herr, hlut, hlen, rfl⟩, [], by simp, by simp⟩
  · exact Effect.alike_ite rfl ⟨⟨rfl, rfl, herr, hlut, hlen, rfl, rfl⟩, [], by simp, by simp⟩

end Bodies

/-! ### Runs that go on alike -/

/-- Two runs, from `s` and from `s'`, both reach a next state: with the stream of `p` still open or with no stream open,
the same new items and the same new responses. -/
def Parallel (p : Phase) (s s' : State) (o o' : Result) : Prop :=
  ∃ t t' q items rs, o = .next t ∧ o' = .next t' ∧ (q = p ∨ q = .idle) ∧ SameStream q t.toBlock t'.toBlock ∧
    BlockInv t.toBlock ∧ t.out = s.out ++ items ∧ t'.out = s'.out ++ items ∧ t.responses = s.responses ++ rs ∧
    t'.responses = s'.responses ++ rs

/-- One command, when its body ends alike wherever it runs. -/
theorem exec_parallel {i : Instr} {s s' : State} {l p q : Phase} (hl : legalPhase i = some l) (hq : q = p ∨ q = .idle)
    (hinv : BlockInv s.toBlock) (h : SameStream q s.toBlock s'.toBlock)
    (hbody : q = l → ∃ q', (q' = p ∨ q' = .idle) ∧
      (effectOf i s.toBlock).Alike (Follow q' s.toBlock s'.toBlock) (effectOf i s'.toBlock)) :
    Parallel p s s' (exec i s) (exec i s') := by
  have hkeep {t : State} (ht : exec i s = .next t) : BlockInv t.toBlock := exec_keeps hinv ht
  obtain ⟨hp, hp', herr, -, -, -⟩ := id h
  rw [exec_of_legalPhase hl] at hkeep ⊢
  rw [exec_of_legalPhase hl]
  by_cases he : s.err = none
  · have he' : s'.err = none := herr ▸ he
    by_cases hql : q = l
    · subst hql
      rw [runCommand_ready he hp] at hkeep ⊢
      rw [runCommand_ready he' hp']
      obtain ⟨q', hq', hal⟩ := hbody rfl
      have hruns := effectOf_runs (i := i) hinv fun r hr => by cases hl.symm.trans hr; exact ⟨he, hp⟩
      cases hs : effectOf i s.toBlock <;> cases hs' : effectOf i s'.toBlock <;>
        simp only [hs, hs', Effect.Alike] at hal hkeep hruns ⊢
      case done.done u u' =>
        obtain ⟨hstream, items, hout, hout'⟩ := hal
        exact ⟨_, _, q', items, [.ok], rfl, rfl, hq', hstream, hkeep rfl, hout, hout', rfl, rfl⟩
      case raise.raise c c' =>
        subst hal
        exact ⟨_, _, q, [], [.fault], rfl, rfl, hq, h.raiseFault _ _, hkeep rfl, by simp, by simp, rfl,
          rfl⟩
      case stuck.stuck f f' => exact absurd rfl (hruns f)
    · rw [runCommand_wrong_phase he (hp ▸ hql)] at hkeep ⊢
      rw [runCommand_wrong_phase he' (hp' ▸ hql)]
      exact ⟨_, _, q, [], [.fault], rfl, rfl, hq, h.raiseFault _ _, hkeep rfl, by simp, by simp, rfl,
          rfl⟩
  · have he' : s'.err ≠ none := herr ▸ he
    rw [runCommand_faulted he] at hkeep ⊢
    rw [runCommand_faulted he']
    exact ⟨_, _, q, [], [.refused], rfl, rfl, hq, h, hkeep rfl, by simp, by simp, rfl, rfl⟩

/-- A data or END command leaves the stream open or closes it. -/
theorem phaseAfter_stream {i : Instr} {p : Phase} (hl : legalPhase i = some p) (hp : p ≠ .idle) :
    phaseAfter i p = p ∨ phaseAfter i p = .idle := by
  cases i <;> simp_all [legalPhase, phaseAfter]

theorem execAll_cons_parallel {p : Phase} {i : Instr} {is : List Instr} {s s' : State}
    (hi : Parallel p s s' (exec i s) (exec i s'))
    (his : ∀ q t t', (q = p ∨ q = .idle) → BlockInv t.toBlock → SameStream q t.toBlock t'.toBlock →
      Parallel p t t' (execAll is t) (execAll is t')) :
    Parallel p s s' (execAll (i :: is) s) (execAll (i :: is) s') := by
  obtain ⟨t, t', q, items, rs, ht, ht', hq, hstream, hinv, hout, hout', hresp, hresp'⟩ := hi
  obtain ⟨u, u', q', items', rs', hu, hu', hq', hstream', hinv', huout, huout', huresp, huresp'⟩ :=
    his q t t' hq hinv hstream
  refine ⟨u, u', q', items ++ items', rs ++ rs', ?_, ?_, hq', hstream', hinv', ?_, ?_, ?_, ?_⟩
  · simpa [execAll, ht] using hu
  · simpa [execAll, ht'] using hu'
  · rw [huout, hout, List.append_assoc]
  · rw [huout', hout', List.append_assoc]
  · rw [huresp, hresp, List.append_assoc]
  · rw [huresp', hresp', List.append_assoc]

/-- Any data and END commands of one stream. -/
theorem execAll_parallel {p : Phase} (hp : p ≠ .idle) {is : List Instr} (his : ∀ i ∈ is, legalPhase i = some p)
    (q : Phase) (s s' : State) (hq : q = p ∨ q = .idle) (hinv : BlockInv s.toBlock)
    (h : SameStream q s.toBlock s'.toBlock) : Parallel p s s' (execAll is s) (execAll is s') := by
  induction is generalizing q s s' with
  | nil => exact ⟨s, s', q, [], [], rfl, rfl, hq, h, hinv, by simp, by simp, by simp, by simp⟩
  | cons i is ih =>
    obtain ⟨hl, his⟩ := List.forall_mem_cons.1 his
    refine execAll_cons_parallel (exec_parallel hl hq hinv h ?_) (ih his)
    rintro rfl
    exact ⟨_, phaseAfter_stream hl hp, effectOf_alike hl hp h⟩

theorem Starts.legalPhase {i : Instr} {p : Phase} (h : Starts i p) : legalPhase i = some .idle ∧ p ≠ .idle := by
  obtain ⟨⟨b, rfl⟩, rfl⟩ | ⟨⟨r, strict, rfl⟩, rfl⟩ | ⟨rfl, rfl⟩ | ⟨rfl, rfl⟩ := h <;> exact ⟨rfl, nofun⟩

/-- Settles O58: the START makes the two blocks agree on its stream, and each command after it keeps them so. -/
theorem streamsAreIndependentOfThePast : Obligations.StreamsAreIndependentOfThePast := by
  intro s s' start p is hinv _ ⟨he, hp⟩ ⟨he', hp'⟩ hlut hlen hstart his
  have hstart : Starts start p := hstart
  obtain ⟨hl, hne⟩ := hstart.legalPhase
  have h : SameStream .idle s.toBlock s'.toBlock := ⟨hp, hp', he.trans he'.symm, hlut, hlen, trivial⟩
  obtain ⟨t, t', -, items, rs, ht, ht', -, -, -, hout, hout', hresp, hresp'⟩ :=
    execAll_cons_parallel
      (exec_parallel hl (.inr rfl) hinv h fun _ => ⟨p, .inl rfl, effectOf_start_alike hstart h⟩)
      (execAll_parallel hne his)
  exact ⟨t, t', items, rs, ht, ht', hout, hout', hresp, hresp'⟩

end Sys2Proof.Machine
end

section
/-! The alphabets (20_memory.md R52, R55): which commands write the LUT and `LEN`, and what a reverse look-up in a valid
bank finds. -/

namespace Sys2Proof.Machine

/-! ### Who writes the alphabets -/

/-- The alphabets of `u` are those of `s`: the whole LUT and the `LEN` of every bank (R34, R35). -/
def SameAlphabets (s u : Block) : Prop :=
  u.lut = s.lut ∧ u.len32 = s.len32 ∧ u.len64 = s.len64 ∧ u.len85 = s.len85 ∧ u.len6 = s.len6

theorem sameAlphabets_iff {s u : Block} : SameAlphabets s u ↔ u.lut = s.lut ∧ ∀ b, u.len b = s.len b := by
  refine and_congr_right fun _ => ⟨?_, fun h => ⟨h .r32, h .r64, h .r85, h .six⟩⟩
  rintro ⟨h32, h64, h85, h6⟩ (_ | _ | _ | _) <;> assumption

theorem encByteBody_sameAlphabets (b : Byte) (s : Block) : (encByteBody b s).Yields (SameAlphabets s) := by
  unfold encByteBody
  split <;> simp [encByteBlock, encByte85, SameAlphabets]

theorem encEndBody_sameAlphabets (s : Block) : (encEndBody s).Yields (SameAlphabets s) := by
  unfold encEndBody
  split <;> simp [encEndBlock, encEnd85, SameAlphabets]

theorem decSymBody_sameAlphabets (c : Ch) (s : Block) : (decSymBody c s).Yields (SameAlphabets s) := by
  unfold decSymBody absorbChar
  split
  · simp only [Effect.yields_whenOk]
    intro found _
    cases found <;> simp [absorbSymbol, SameAlphabets]
  · simp

theorem decEndBody_sameAlphabets (s : Block) : (decEndBody s).Yields (SameAlphabets s) := by
  unfold decEndBody
  split <;> simp [SameAlphabets]

theorem numdSymBody_sameAlphabets (found : Option Nat) (s : Block) :
    (numdSymBody found s).Yields (SameAlphabets s) := by
  cases found <;> simp [numdSymBody, closeGroup, absorbDigit, SameAlphabets]

theorem numdEndBody_sameAlphabets (s : Block) : (numdEndBody s).Yields (SameAlphabets s) := by
  simp [yields_numdEndBody, closeGroup, SameAlphabets]

/-- LUTCLR and LUTAPP are the only commands whose body writes an alphabet (R52, R120). -/
theorem effectOf_sameAlphabets {i : Instr} (hclr : ∀ b, i ≠ .lutclr b) (happ : ∀ b c, i ≠ .lutapp b c)
    (s : Block) : (effectOf i s).Yields (SameAlphabets s) := by
  cases i with
  | lutclr b => exact absurd rfl (hclr b)
  | lutapp b c => exact absurd rfl (happ b c)
  | encByte b => exact encByteBody_sameAlphabets b s
  | encEnd => exact encEndBody_sameAlphabets s
  | decSym c => simp [effectOf, decSymBody_sameAlphabets]
  | decEnd => exact decEndBody_sameAlphabets s
  | numdSym c => simp [effectOf, numdSymBody_sameAlphabets]
  | numdEnd => exact numdEndBody_sameAlphabets s
  | _ => simp [effectOf, SameAlphabets]

/-- What a command makes of the alphabets: it leaves them as they are, or it is a LUTCLR or a LUTAPP in IDLE that did
what R121 or R122 says. -/
theorem exec_alphabets {i : Instr} {s t : State} (h : exec i s = .next t) :
    SameAlphabets s.toBlock t.toBlock ∨
      s.phase = .idle ∧ ((∃ b, i = .lutclr b ∧ t.toBlock = s.setLen b 0#8) ∨
        ∃ b c, i = .lutapp b c ∧ t.toBlock = appendChar b c s.toBlock) := by
  obtain ⟨u, r, ha, rfl⟩ := exec_next h
  cases ha with
  | refused => exact .inl (by simp [SameAlphabets])
  | fault => exact .inl (by simp [SameAlphabets])
  | ok hpast hu =>
    by_cases hclr : ∃ b, i = .lutclr b
    · obtain ⟨b, rfl⟩ := hclr
      cases hu
      exact .inr ⟨(hpast _ rfl).2, .inl ⟨b, rfl, rfl⟩⟩
    by_cases happ : ∃ b c, i = .lutapp b c
    · obtain ⟨b, c, rfl⟩ := happ
      simp only [effectOf] at hu
      split_ifs at hu
      cases hu
      exact .inr ⟨(hpast _ rfl).2, .inr ⟨b, c, rfl, rfl⟩⟩
    · push Not at hclr happ
      exact .inl (effectOf_sameAlphabets hclr happ s.toBlock u hu)

/-- LUTAPP touches no entry but the one at `LEN` (R122). -/
theorem appendChar_read_other (b : Bank) (c : Ch) (s : Block) {a : Nat} (ha : a ≠ lutAddr b (s.len b).toNat) :
    Memory.read (appendChar b c s).lut a = Memory.read s.lut a := by
  rw [appendChar_lut]
  split_ifs
  · exact Memory.read_write_other s.lut c ha
  · rfl

/-- Settles O22: a next state keeps the alphabets, or comes from the one write of LUTCLR or of LUTAPP in IDLE. -/
theorem onlyLutCommandsWriteTheLut : Obligations.OnlyLutCommandsWriteTheLut := by
  intro i s t h
  obtain hsame | ⟨hidle, ⟨b, rfl, ht⟩ | ⟨b, c, rfl, ht⟩⟩ := exec_alphabets h
  · obtain ⟨hlut, hlen⟩ := sameAlphabets_iff.1 hsame
    exact ⟨fun _ => hlut, fun _ _ _ _ _ => by rw [hlut], fun _ _ => hlen, fun _ => ⟨hlut, hlen⟩⟩
  · exact ⟨fun _ => by simp [ht], nofun, fun _ hclr => absurd rfl (hclr b), fun hopen => absurd hidle hopen⟩
  · refine ⟨fun happ => absurd rfl (happ b c), ?_, fun happ => absurd rfl (happ b c), fun hopen => absurd hidle hopen⟩
    rintro _ _ ⟨⟩ a ha
    rw [ht, appendChar_read_other b c s.toBlock ha]

/-! ### The reverse look-up -/

/-- The scan of written entries finds the first index at which the character stands. -/
theorem revScan_eq_find {m : Memory} {b : Bank} {f : Nat → Ch} (c : Ch) {n k : Nat}
    (h : ∀ i < k + n, lutEntry m b i = .ok (f i)) :
    revScan m b c n k = .ok ((List.range' k n).find? fun i => f i == c) := by
  induction n generalizing k with
  | zero => rfl
  | succ n ih =>
    simp only [revScan, h k (by omega), List.range'_succ]
    by_cases hk : f k = c
    · rw [if_pos hk, List.find?_cons_of_pos (by simpa using hk)]
    · rw [if_neg hk, List.find?_cons_of_neg (by simpa using hk)]
      exact ih fun i hi => h i (by omega)

/-- Every entry of a valid bank reads as `lutAt` says (R53). -/
theorem lutEntry_of_valid {s : Block} (h : LutInv s) {b : Bank} (hv : s.bankValid b = true) {i : Nat}
    (hi : i < Config.bankLen b) : lutEntry s.lut b i = .ok (lutAt s b i) := by
  obtain ⟨c, hc⟩ := Option.isSome_iff_exists.1 (h.written_of_valid hv hi)
  simp [lutAt, hc, lutEntry_of_read hi hc]

/-- The reverse look-up in a valid bank, as a search of its indices (R55). -/
theorem rev_eq_find {s : Block} (h : LutInv s) {b : Bank} (hv : s.bankValid b = true) (c : Ch) :
    rev s.lut b c = .ok ((List.range (Config.bankLen b)).find? fun i => lutAt s b i == c) := by
  rw [List.range_eq_range']
  exact revScan_eq_find c fun i hi => lutEntry_of_valid h hv (by omega)

/-- Settles O23: the search of the indices in rising order stops at the least one, or nowhere. -/
theorem reverseLookupFindsTheLeastIndex : Obligations.ReverseLookupFindsTheLeastIndex := by
  intro s b c hinv hv
  rw [rev_eq_find hinv hv c]
  refine ⟨fun i hi hat hbefore => ?_, fun habsent => ?_⟩
  · exact congrArg _ (List.find?_range_eq_some.2 ⟨by simpa using hat, by simpa using hi, by simpa using hbefore⟩)
  · exact congrArg _ (List.find?_eq_none.2 (by simpa using habsent))

end Sys2Proof.Machine
end

section
/-! The command words (30_encoding.md R70 to R76). A word that a format accepts is the append of its opcode, its zero
bits and its fields, so decoding and encoding are inverse to each other; the mask of a row of the opcode table covers
the opcode and the zero bits, so selection and decoding agree. -/

namespace Sys2Proof

/-! ### A word and its fields -/

/-- A run of bits that is an append, half by half. -/
theorem append_eq_extractLsb'_iff {w m n s : Nat} {a : BitVec m} {b : BitVec n} {x : BitVec w} :
    a ++ b = x.extractLsb' s (m + n) ↔ x.extractLsb' (s + n) m = a ∧ x.extractLsb' s n = b := by
  rw [← BitVec.extractLsb'_append_extractLsb'_eq_extractLsb' rfl]
  refine ⟨fun h => ?_, fun ⟨ha, hb⟩ => by rw [ha, hb]⟩
  have hleft := congrArg (BitVec.extractLsb' n m) h
  have hright := congrArg (BitVec.extractLsb' 0 n) h
  simp only [BitVec.extractLsb'_append_eq_left, BitVec.extractLsb'_append_eq_right] at hleft hright
  exact ⟨hleft.symm, hright.symm⟩

theorem append_eq_iff {m n : Nat} {a : BitVec m} {b : BitVec n} {x : BitVec (m + n)} :
    a ++ b = x ↔ x.extractLsb' n m = a ∧ x.extractLsb' 0 n = b := by
  have h := append_eq_extractLsb'_iff (s := 0) (a := a) (b := b) (x := x)
  rwa [BitVec.extractLsb'_eq_self, Nat.zero_add] at h

theorem append3_eq_iff {m n k : Nat} {a : BitVec m} {b : BitVec n} {c : BitVec k} {x : BitVec (m + n + k)} :
    a ++ b ++ c = x ↔ x.extractLsb' (k + n) m = a ∧ x.extractLsb' k n = b ∧ x.extractLsb' 0 k = c := by
  rw [append_eq_iff, eq_comm, append_eq_extractLsb'_iff, and_assoc]

theorem append4_eq_iff {m n k l : Nat} {a : BitVec m} {b : BitVec n} {c : BitVec k} {d : BitVec l}
    {x : BitVec (m + n + k + l)} :
    a ++ b ++ c ++ d = x ↔ x.extractLsb' (l + k + n) m = a ∧ x.extractLsb' (l + k) n = b ∧ x.extractLsb' l k = c ∧
      x.extractLsb' 0 l = d := by
  rw [append3_eq_iff, eq_comm, append_eq_extractLsb'_iff, and_assoc]

theorem Bank.eq_bits_iff {b : Bank} {x : BitVec 2} : x = b.bits ↔ Bank.ofBits x = b := by
  revert x
  cases b <;> decide

theorem eq_bitOf_iff {b : Bool} {x : BitVec 1} : x = bitOf b ↔ (x == 1#1) = b := by
  revert x
  cases b <;> decide

/-! ### What each format accepts (R71) -/

/-- R74: a format accepts a word exactly when its zero bits are zero. -/
theorem whenReservedZero_eq_ok {cmd : Word} {n : Nat} {x y : BitVec n} {i j : Instr} :
    whenReservedZero cmd (x == y) i = .ok j ↔ x = y ∧ i = j := by
  by_cases h : x = y <;> simp [whenReservedZero, h]

section Formats
variable {cmd : Word} {op : BitVec 8} {i : Instr}

/-- A word with this opcode that the format accepts is the append of the opcode, zero bits and fields, as `encode` lays
them out. The same for each format below. -/
theorem formatZ_eq_ok {f : Instr} : opcodeOf cmd = op ∧ formatZ cmd f = .ok i ↔ op ++ 0#24 = cmd ∧ f = i := by
  have hword : op ++ 0#24 = cmd ↔ opcodeOf cmd = op ∧ cmd.extractLsb 23 0 = 0#24 := append_eq_iff
  simp only [formatZ, whenReservedZero_eq_ok, hword, and_assoc]

theorem formatB_eq_ok {f : Bank → Instr} :
    opcodeOf cmd = op ∧ formatB cmd f = .ok i ↔ ∃ b, op ++ 0#22 ++ b.bits = cmd ∧ f b = i := by
  have hword (b : Bank) : op ++ 0#22 ++ b.bits = cmd ↔
      opcodeOf cmd = op ∧ cmd.extractLsb 23 2 = 0#22 ∧ cmd.extractLsb 1 0 = b.bits := append3_eq_iff
  simp [formatB, whenReservedZero_eq_ok, hword, Bank.eq_bits_iff, and_assoc]

theorem formatM_eq_ok {f : Bank → Bool → Instr} :
    opcodeOf cmd = op ∧ formatM cmd f = .ok i ↔
      ∃ r strict, op ++ 0#21 ++ bitOf strict ++ r.bits = cmd ∧ f r strict = i := by
  have hword (r : Bank) (strict : Bool) : op ++ 0#21 ++ bitOf strict ++ r.bits = cmd ↔
      opcodeOf cmd = op ∧ cmd.extractLsb 23 3 = 0#21 ∧ cmd.extractLsb 2 2 = bitOf strict ∧
        cmd.extractLsb 1 0 = r.bits := append4_eq_iff
  simp [formatM, whenReservedZero_eq_ok, hword, Bank.eq_bits_iff, eq_bitOf_iff, and_assoc]

theorem formatI_eq_ok {f : Bank → BitVec 7 → Instr} :
    opcodeOf cmd = op ∧ formatI cmd f = .ok i ↔ ∃ b k, op ++ 0#15 ++ b.bits ++ k = cmd ∧ f b k = i := by
  have hword (b : Bank) (k : BitVec 7) : op ++ 0#15 ++ b.bits ++ k = cmd ↔
      opcodeOf cmd = op ∧ cmd.extractLsb 23 9 = 0#15 ∧ cmd.extractLsb 8 7 = b.bits ∧ cmd.extractLsb 6 0 = k :=
    append4_eq_iff
  simp [formatI, whenReservedZero_eq_ok, hword, Bank.eq_bits_iff, and_assoc]

theorem formatC_eq_ok {f : Bank → Ch → Instr} :
    opcodeOf cmd = op ∧ formatC cmd f = .ok i ↔ ∃ b c, op ++ 0#1 ++ b.bits ++ c = cmd ∧ f b c = i := by
  have hword (b : Bank) (c : Ch) : op ++ 0#1 ++ b.bits ++ c = cmd ↔
      opcodeOf cmd = op ∧ cmd.extractLsb 23 23 = 0#1 ∧ cmd.extractLsb 22 21 = b.bits ∧ cmd.extractLsb 20 0 = c :=
    append4_eq_iff
  simp [formatC, whenReservedZero_eq_ok, hword, Bank.eq_bits_iff, and_assoc]

theorem formatS_eq_ok {f : Ch → Instr} :
    opcodeOf cmd = op ∧ formatS cmd f = .ok i ↔ ∃ c, op ++ 0#3 ++ c = cmd ∧ f c = i := by
  have hword (c : Ch) : op ++ 0#3 ++ c = cmd ↔
      opcodeOf cmd = op ∧ cmd.extractLsb 23 21 = 0#3 ∧ cmd.extractLsb 20 0 = c := append3_eq_iff
  simp [formatS, whenReservedZero_eq_ok, hword, and_assoc]

theorem formatY_eq_ok {f : Byte → Instr} :
    opcodeOf cmd = op ∧ formatY cmd f = .ok i ↔ ∃ b, op ++ 0#16 ++ b = cmd ∧ f b = i := by
  have hword (b : Byte) : op ++ 0#16 ++ b = cmd ↔
      opcodeOf cmd = op ∧ cmd.extractLsb 23 8 = 0#16 ∧ cmd.extractLsb 7 0 = b := append3_eq_iff
  simp [formatY, whenReservedZero_eq_ok, hword, and_assoc]

theorem formatV_eq_ok {f : BitVec 8 → BitVec 4 → Instr} :
    opcodeOf cmd = op ∧ formatV cmd f = .ok i ↔ ∃ v w, op ++ 0#12 ++ w ++ v = cmd ∧ f v w = i := by
  have hword (v : BitVec 8) (w : BitVec 4) : op ++ 0#12 ++ w ++ v = cmd ↔
      opcodeOf cmd = op ∧ cmd.extractLsb 23 12 = 0#12 ∧ cmd.extractLsb 11 8 = w ∧ cmd.extractLsb 7 0 = v :=
    append4_eq_iff
  simp [formatV, whenReservedZero_eq_ok, hword, and_assoc]

theorem formatL_eq_ok {f : BitVec 6 → Instr} :
    opcodeOf cmd = op ∧ formatL cmd f = .ok i ↔ ∃ w, op ++ 0#18 ++ w = cmd ∧ f w = i := by
  have hword (w : BitVec 6) : op ++ 0#18 ++ w = cmd ↔
      opcodeOf cmd = op ∧ cmd.extractLsb 23 6 = 0#18 ∧ cmd.extractLsb 5 0 = w := append3_eq_iff
  simp [formatL, whenReservedZero_eq_ok, hword, and_assoc]

end Formats

/-! ### Decoding and encoding -/

/-- To decode a word that the format of its opcode accepts, it is enough to find the branch of the opcode. -/
theorem decode_of_accepted {cmd : Word} {op : BitVec 8} {d : Decoded} {i : Instr}
    (h : opcodeOf cmd = op ∧ d = .ok i) (hbranch : opcodeOf cmd = op → decode cmd = d) : decode cmd = .ok i :=
  (hbranch h.1).trans h.2

/-- Decoding undoes encoding. -/
theorem decode_encode (i : Instr) : decode (encode i) = .ok i := by
  cases i with
  | nop | srst | rdstat | rderr | aclr | encEnd | decEnd | numStart | numEnd | numdStart | numdEnd => decide
  | rdlen b | lutclr b | encStart b =>
    exact decode_of_accepted (formatB_eq_ok.2 ⟨b, rfl, rfl⟩) fun hop => by rw [decode, hop]; rfl
  | decStart r strict =>
    exact decode_of_accepted (formatM_eq_ok.2 ⟨r, strict, rfl, rfl⟩) fun hop => by rw [decode, hop]; rfl
  | lutrd b k =>
    exact decode_of_accepted (formatI_eq_ok.2 ⟨b, k, rfl, rfl⟩) fun hop => by rw [decode, hop]; rfl
  | lutapp b c =>
    exact decode_of_accepted (formatC_eq_ok.2 ⟨b, c, rfl, rfl⟩) fun hop => by rw [decode, hop]; rfl
  | decSym c | numScalar c | numdSym c =>
    exact decode_of_accepted (formatS_eq_ok.2 ⟨c, rfl, rfl⟩) fun hop => by rw [decode, hop]; rfl
  | pushbyte b | encByte b =>
    exact decode_of_accepted (formatY_eq_ok.2 ⟨b, rfl, rfl⟩) fun hop => by rw [decode, hop]; rfl
  | pushbits v w =>
    exact decode_of_accepted (formatV_eq_ok.2 ⟨v, w, rfl, rfl⟩) fun hop => by rw [decode, hop]; rfl
  | extract w | flush w =>
    exact decode_of_accepted (formatL_eq_ok.2 ⟨w, rfl, rfl⟩) fun hop => by rw [decode, hop]; rfl

/-- Settles O7: the word of a command is accepted by the format of its opcode, with the fields of the command. -/
theorem decodeOfEncodeIsTheCommand : Obligations.DecodeOfEncodeIsTheCommand := decode_encode

theorem opcodeOf_of_toNat {cmd : Word} {n : Nat} (h : (opcodeOf cmd).toNat = n) : opcodeOf cmd = BitVec.ofNat 8 n := by
  rw [← h, BitVec.ofNat_toNat, BitVec.setWidth_eq]

/-- Encoding undoes decoding. One case per format; the tags number the branches of `decode`, in the order of the
opcodes. -/
theorem encode_of_decode {cmd : Word} {i : Instr} (h : decode cmd = .ok i) : encode i = cmd := by
  unfold decode at h
  split at h
  case h_1 hop | h_2 hop | h_3 hop | h_4 hop | h_9 hop | h_16 hop | h_19 hop | h_20 hop | h_22 hop |
      h_23 hop | h_25 hop =>
    obtain ⟨rfl, rfl⟩ := formatZ_eq_ok.1 ⟨opcodeOf_of_toNat hop, h⟩
    rfl
  case h_5 hop | h_6 hop | h_14 hop =>
    obtain ⟨b, rfl, rfl⟩ := formatB_eq_ok.1 ⟨opcodeOf_of_toNat hop, h⟩
    rfl
  case h_17 hop =>
    obtain ⟨r, strict, rfl, rfl⟩ := formatM_eq_ok.1 ⟨opcodeOf_of_toNat hop, h⟩
    rfl
  case h_8 hop =>
    obtain ⟨b, k, rfl, rfl⟩ := formatI_eq_ok.1 ⟨opcodeOf_of_toNat hop, h⟩
    rfl
  case h_7 hop =>
    obtain ⟨b, c, rfl, rfl⟩ := formatC_eq_ok.1 ⟨opcodeOf_of_toNat hop, h⟩
    rfl
  case h_18 hop | h_21 hop | h_24 hop =>
    obtain ⟨c, rfl, rfl⟩ := formatS_eq_ok.1 ⟨opcodeOf_of_toNat hop, h⟩
    rfl
  case h_10 hop | h_15 hop =>
    obtain ⟨b, rfl, rfl⟩ := formatY_eq_ok.1 ⟨opcodeOf_of_toNat hop, h⟩
    rfl
  case h_11 hop =>
    obtain ⟨v, w, rfl, rfl⟩ := formatV_eq_ok.1 ⟨opcodeOf_of_toNat hop, h⟩
    rfl
  case h_12 hop | h_13 hop =>
    obtain ⟨w, rfl, rfl⟩ := formatL_eq_ok.1 ⟨opcodeOf_of_toNat hop, h⟩
    rfl
  case h_26 => cases h

/-- Settles O8: the format that accepted the word gives back its opcode, its zero bits and its fields. -/
theorem encodeOfDecodeIsTheWord : Obligations.EncodeOfDecodeIsTheWord := fun _ _ => encode_of_decode

/-- Settles O6: the ten words are decoded. -/
theorem decodeReadsTheWordsOfTheSpec : Obligations.DecodeReadsTheWordsOfTheSpec := by
  unfold Obligations.DecodeReadsTheWordsOfTheSpec
  decide

/-! ### The rows of the opcode table (R73) -/

open Laws.RowOfTable in
/-- The row that has the mnemonic of a command selects the word of the command. -/
theorem rowOfTable_encode : ∀ i : Instr, Statement i
  | .nop => nop
  | .srst => srst
  | .rdstat => rdstat
  | .rderr => rderr
  | .rdlen b => rdlen b
  | .lutclr b => lutclr b
  | .lutapp b c => lutapp b c
  | .lutrd b k => lutrd b k
  | .aclr => aclr
  | .pushbyte b => pushbyte b
  | .pushbits v w => pushbits v w
  | .extract w => extract w
  | .flush w => flush w
  | .encStart b => encStart b
  | .encByte b => encByte b
  | .encEnd => encEnd
  | .decStart r strict => decStart r strict
  | .decSym c => decSym c
  | .decEnd => decEnd
  | .numStart => numStart
  | .numScalar c => numScalar c
  | .numEnd => numEnd
  | .numdStart => numdStart
  | .numdSym c => numdSym c
  | .numdEnd => numdEnd

theorem opcodeTable_mnemonics_nodup : (opcodeTable.map OpcodeRow.mnemonic).Nodup := by decide

/-- Bits that the mask of a row covers read in a selected word as in the pattern. -/
theorem OpcodeRow.selects_extractLsb {r : OpcodeRow} {cmd : Word} (h : r.selects cmd = true) {hi lo : Nat}
    (hmask : r.mask.extractLsb hi lo = BitVec.allOnes (hi - lo + 1)) :
    cmd.extractLsb hi lo = r.pattern.extractLsb hi lo := by
  have hand : cmd &&& r.mask = r.pattern := by simpa [OpcodeRow.selects] using h
  rw [← hand, BitVec.extractLsb_and, hmask, BitVec.and_allOnes]

/-- The mask of a row covers the opcode and the zero bits of its format, so `decode` reads in a selected word the opcode
and the zero bits of the pattern. -/
theorem decode_of_selects {r : OpcodeRow} (hr : r ∈ opcodeTable) {cmd : Word} (h : r.selects cmd = true) :
    ∃ i, decode cmd = .ok i ∧ i.mnemonic = r.mnemonic := by
  have field (hi lo : Nat) := OpcodeRow.selects_extractLsb h (hi := hi) (lo := lo)
  fin_cases hr <;>
    simp (disch := decide) [decode, opcodeOf, field, formatZ, formatB, formatM, formatI, formatC, formatS, formatY,
      formatV, formatL, whenReservedZero, Instr.mnemonic]

/-- A word decodes to a command of a row exactly when the row selects it. -/
theorem decode_mnemonic_iff_selects {r : OpcodeRow} (hr : r ∈ opcodeTable) (cmd : Word) :
    (∃ i, decode cmd = .ok i ∧ i.mnemonic = r.mnemonic) ↔ r.selects cmd = true := by
  refine ⟨fun ⟨i, hdec, hname⟩ => ?_, decode_of_selects hr⟩
  obtain ⟨r', hr', hname', hsel⟩ := rowOfTable_encode i
  rw [encode_of_decode hdec] at hsel
  rwa [List.inj_on_of_nodup_map opcodeTable_mnemonics_nodup hr hr' (hname.symm.trans hname'.symm)]

theorem decode_error_iff_selects (cmd : Word) :
    (∃ e, decode cmd = .error e) ↔ ∀ r ∈ opcodeTable, r.selects cmd = false := by
  constructor
  · rintro ⟨e, he⟩ r hr
    by_contra hsel
    obtain ⟨i, hdec, -⟩ := decode_of_selects hr (Bool.of_not_eq_false hsel)
    cases he.symm.trans hdec
  · intro hnone
    cases hdec : decode cmd with
    | error e => exact ⟨e, rfl⟩
    | ok i =>
      obtain ⟨r, hr, -, hsel⟩ := rowOfTable_encode i
      rw [encode_of_decode hdec, hnone r hr] at hsel
      cases hsel

/-- Two rows that select one word have the mnemonic of the one command it decodes to. -/
theorem selects_mnemonic_unique {r r' : OpcodeRow} (hr : r ∈ opcodeTable) (hr' : r' ∈ opcodeTable) {cmd : Word}
    (h : r.selects cmd = true) (h' : r'.selects cmd = true) : r.mnemonic = r'.mnemonic := by
  obtain ⟨i, hdec, hname⟩ := decode_of_selects hr h
  obtain ⟨i', hdec', hname'⟩ := decode_of_selects hr' h'
  cases hdec.symm.trans hdec'
  exact hname.symm.trans hname'

/-- Settles O9: rows of one mnemonic are one row, and the mnemonic is that of the one command a word decodes to. -/
theorem decodeSelectsTheRowOfTheTable : Obligations.DecodeSelectsTheRowOfTheTable := by
  refine ⟨fun cmd r hr => decode_mnemonic_iff_selects hr cmd, decode_error_iff_selects, ?_⟩
  refine (List.pairwise_map.1 opcodeTable_mnemonics_nodup).imp_of_mem ?_
  rintro r r' hr hr' hne cmd ⟨h, h'⟩
  exact hne (selects_mnemonic_unique hr hr' h h')

end Sys2Proof
end

section
/-! The bit-string view of the accumulator (40_accumulator.md R101 to R104, R113): the bits of a number as a string, and
each accumulator function as what it does to the string of held bits. -/

namespace Sys2Proof.Machine

/-! ### Strings of the bits of a number -/

@[simp] theorem bitsOf_length (w v : Nat) : (bitsOf w v).length = w := by simp [bitsOf]

/-- The string of a number split at a bit: the high bits, then the low bits. -/
theorem bitsOf_add (m w v : Nat) : bitsOf (m + w) v = bitsOf m (v / 2 ^ w) ++ bitsOf w v := by
  simp only [bitsOf, List.range_add, List.map_append, List.map_map]
  congr 1
  · refine List.map_congr_left fun k hk => ?_
    rw [List.mem_range] at hk
    rw [Nat.testBit_div_two_pow, show m + w - 1 - k = m - 1 - k + w by omega]
  · refine List.map_congr_left fun k _ => ?_
    rw [Function.comp_apply, show m + w - 1 - (m + k) = w - 1 - k by omega]

theorem bitsOf_mod (w v : Nat) : bitsOf w (v % 2 ^ w) = bitsOf w v := by
  refine List.map_congr_left fun k hk => ?_
  rw [List.mem_range] at hk
  simp [Nat.testBit_mod_two_pow, show w - 1 - k < w by omega]

theorem bitsOf_zero (w : Nat) : bitsOf w 0 = List.replicate w false := by
  simp [bitsOf]

theorem bitsOf_take {n w : Nat} (h : w ≤ n) (v : Nat) : (bitsOf n v).take w = bitsOf w (v / 2 ^ (n - w)) := by
  have hsplit := bitsOf_add w (n - w) v
  rw [Nat.add_sub_cancel' h] at hsplit
  rw [hsplit, List.take_left' (bitsOf_length _ _)]

theorem bitsOf_drop {n w : Nat} (h : w ≤ n) (v : Nat) : (bitsOf n v).drop w = bitsOf (n - w) v := by
  have hsplit := bitsOf_add w (n - w) v
  rw [Nat.add_sub_cancel' h] at hsplit
  rw [hsplit, List.drop_left' (bitsOf_length _ _)]

/-- The number of a string of bits of `v` is what those bits of `v` are. -/
theorem valueOf_bitsOf (w v : Nat) : valueOf (bitsOf w v) = v % 2 ^ w := by
  induction w generalizing v with
  | zero => simp [bitsOf, valueOf, Nat.mod_one]
  | succ w ih =>
    have hlast : bitsOf 1 v = [v.testBit 0] := rfl
    rw [bitsOf_add, hlast]
    calc valueOf (bitsOf w (v / 2 ^ 1) ++ [v.testBit 0])
        = 2 * valueOf (bitsOf w (v / 2)) + (v.testBit 0).toNat := by simp [valueOf]
      _ = v % 2 + 2 * (v / 2 % 2 ^ w) := by rw [ih, Nat.toNat_testBit, Nat.pow_zero, Nat.div_one, Nat.add_comm]
      _ = v % 2 ^ (w + 1) := by rw [Nat.pow_succ', Nat.mod_mul]

/-! ### The three functions within their preconditions -/

/-- A push whose value fits its width: the shift and the OR are a multiplication and an addition (R101). -/
theorem accPush_of_lt {v w : Nat} (hv : v < 2 ^ w) (a : Acc) :
    accPush a v w = ⟨(a.buf * 2 ^ w + v) % 2 ^ Config.W, a.cnt + w⟩ := by
  rw [accPush, ← Nat.shiftLeft_add_eq_or_of_lt hv, Nat.shiftLeft_eq]

/-- A push with room for its bits: the `mod 2^W` changes nothing (R101). -/
theorem accPush_eq {a : Acc} {v w : Nat} (h : a.buf < 2 ^ a.cnt) (hv : v < 2 ^ w) (hw : a.cnt + w ≤ Config.W - 1) :
    accPush a v w = ⟨a.buf * 2 ^ w + v, a.cnt + w⟩ ∧ a.buf * 2 ^ w + v < 2 ^ (a.cnt + w) := by
  have hlt : a.buf * 2 ^ w + v < 2 ^ (a.cnt + w) := by
    calc a.buf * 2 ^ w + v < (a.buf + 1) * 2 ^ w := by rw [Nat.succ_mul]; omega
      _ ≤ 2 ^ a.cnt * 2 ^ w := Nat.mul_le_mul_right _ h
      _ = 2 ^ (a.cnt + w) := (Nat.pow_add _ _ _).symm
  refine ⟨?_, hlt⟩
  rw [accPush_of_lt hv, Nat.mod_eq_of_lt (hlt.trans_le (Nat.pow_le_pow_right (by decide) (hw.trans (by decide))))]

/-- The index of a take and the bits it leaves make the bits held before (R102). -/
theorem accTake_split {a : Acc} {w : Nat} (h : a.buf < 2 ^ a.cnt) (hw : w ≤ a.cnt) :
    a.buf = (accTake a w).1 * 2 ^ (a.cnt - w) + (accTake a w).2.buf := by
  have hfit : a.buf / 2 ^ (a.cnt - w) < 2 ^ w := by
    rw [Nat.div_lt_iff_lt_mul (Nat.two_pow_pos _), ← Nat.pow_add, Nat.add_sub_cancel' hw]
    exact h
  rw [accTake, Nat.shiftRight_eq_div_pow, Nat.mod_eq_of_lt hfit, Nat.div_add_mod']

/-- A flush of fewer bits than its width: the `mod 2^w` changes nothing (R103). -/
theorem accFlush_eq {a : Acc} {w : Nat} (h : a.buf < 2 ^ a.cnt) (hw : a.cnt ≤ w) :
    accFlush a w = (a.buf * 2 ^ (w - a.cnt), ⟨0, 0⟩) ∧ a.buf * 2 ^ (w - a.cnt) < 2 ^ w := by
  have hlt : a.buf * 2 ^ (w - a.cnt) < 2 ^ w := by
    calc a.buf * 2 ^ (w - a.cnt) < 2 ^ a.cnt * 2 ^ (w - a.cnt) := Nat.mul_lt_mul_of_pos_right h (Nat.two_pow_pos _)
      _ = 2 ^ w := by rw [← Nat.pow_add, Nat.add_sub_cancel' hw]
  exact ⟨by rw [accFlush, Nat.shiftLeft_eq, Nat.mod_eq_of_lt hlt], hlt⟩

/-- Settles O10: each function is an addition, a division or a multiplication by a power of two, with its bound. -/
theorem accumulatorFunctionsKeepTheBounds : Obligations.AccumulatorFunctionsKeepTheBounds := by
  intro a _ hbuf
  refine ⟨fun v w _ hv hw => accPush_eq hbuf hv hw, fun w _ hw => ?_, fun w _ hw => accFlush_eq hbuf hw.le⟩
  exact ⟨accTake_index_lt a w, rfl, Nat.mod_lt _ (Nat.two_pow_pos _), accTake_split hbuf hw⟩

/-! ### What the functions do to the string of held bits -/

@[simp] theorem Acc.held_length (a : Acc) : a.held.length = a.cnt := bitsOf_length _ _

theorem held_accPush {a : Acc} {v w : Nat} (h : a.buf < 2 ^ a.cnt) (hv : v < 2 ^ w) (hw : a.cnt + w ≤ Config.W - 1) :
    (accPush a v w).held = a.held ++ bitsOf w v := by
  have hhigh : (a.buf * 2 ^ w + v) / 2 ^ w = a.buf := by
    rw [Nat.mul_comm, Nat.mul_add_div (Nat.two_pow_pos w), Nat.div_eq_of_lt hv, Nat.add_zero]
  have hlow : bitsOf w (a.buf * 2 ^ w + v) = bitsOf w v := by
    rw [← bitsOf_mod, Nat.mul_add_mod', bitsOf_mod]
  rw [(accPush_eq h hv hw).1, Acc.held, bitsOf_add, hhigh, hlow, Acc.held]

theorem accTake_index {a : Acc} {w : Nat} (hw : w ≤ a.cnt) : (accTake a w).1 = valueOf (a.held.take w) := by
  rw [Acc.held, bitsOf_take hw, valueOf_bitsOf, accTake, Nat.shiftRight_eq_div_pow]

theorem held_accTake {a : Acc} {w : Nat} (hw : w ≤ a.cnt) : (accTake a w).2.held = a.held.drop w := by
  rw [Acc.held, Acc.held, bitsOf_drop hw, accTake, bitsOf_mod]

theorem accFlush_index {a : Acc} {w : Nat} (hw : a.cnt ≤ w) :
    (accFlush a w).1 = valueOf (a.held ++ List.replicate (w - a.cnt) false) := by
  have hpadded : bitsOf w (a.buf * 2 ^ (w - a.cnt)) = a.held ++ List.replicate (w - a.cnt) false := by
    have hsplit := bitsOf_add a.cnt (w - a.cnt) (a.buf * 2 ^ (w - a.cnt))
    rwa [Nat.add_sub_cancel' hw, Nat.mul_div_cancel _ (Nat.two_pow_pos _), ← bitsOf_mod (w - a.cnt), Nat.mul_mod_left,
      bitsOf_zero] at hsplit
  rw [← hpadded, valueOf_bitsOf, accFlush, Nat.shiftLeft_eq]

/-! ### Drains -/

/-- The successive whole pieces of a string. -/
def wholePieces (w : Nat) (bs : List Bool) : List Nat := pieces w (bs.length / w) bs

/-- The bits of a string after its last whole piece. -/
def trailingBits (w : Nat) (bs : List Bool) : List Bool := bs.drop (bs.length / w * w)

theorem pieces_add (w m n : Nat) (bs : List Bool) :
    pieces w (m + n) bs = pieces w m bs ++ pieces w n (bs.drop (m * w)) := by
  simp [pieces, List.range_add, List.drop_drop, Nat.add_mul]

/-- Pieces that end within the string do not see what follows it. -/
theorem pieces_append_right {w n : Nat} {bs : List Bool} (h : n * w ≤ bs.length) (cs : List Bool) :
    pieces w n (bs ++ cs) = pieces w n bs := by
  refine List.map_congr_left fun k hk => ?_
  have hend : k * w + w ≤ bs.length := by
    rw [← Nat.succ_mul]
    exact (Nat.mul_le_mul_right w (List.mem_range.1 hk)).trans h
  rw [List.drop_append_of_le_length (by omega), List.take_append_of_le_length (by rw [List.length_drop]; omega)]

/-- The pieces of the bits of a number, from its highest bits down. -/
theorem pieces_bitsOf {w n c : Nat} (h : n * w ≤ c) (v : Nat) :
    pieces w n (bitsOf c v) = (List.range n).map fun k => v / 2 ^ (c - (k + 1) * w) % 2 ^ w := by
  refine List.map_congr_left fun k hk => ?_
  have hend : k * w + w ≤ c := by
    rw [← Nat.succ_mul]
    exact (Nat.mul_le_mul_right w (List.mem_range.1 hk)).trans h
  rw [bitsOf_drop (by omega), bitsOf_take (by omega), valueOf_bitsOf, Nat.succ_mul, Nat.sub_sub]

/-- A string with at least one whole piece: the first piece, then those of the rest. -/
theorem wholePieces_of_le {w : Nat} (hw : 1 ≤ w) {bs : List Bool} (h : w ≤ bs.length) :
    wholePieces w bs = valueOf (bs.take w) :: wholePieces w (bs.drop w) := by
  have hfirst : pieces w 1 bs = [valueOf (bs.take w)] := by simp [pieces]
  rw [wholePieces, Nat.div_eq_sub_div hw h, Nat.add_comm, pieces_add, hfirst, Nat.one_mul, wholePieces,
    List.length_drop, List.singleton_append]

/-- What a string followed by more is cut into: its own whole pieces, then those of its trailing bits and the rest. -/
theorem wholePieces_append {w : Nat} (hw : 1 ≤ w) (bs cs : List Bool) :
    wholePieces w (bs ++ cs) = wholePieces w bs ++ wholePieces w (trailingBits w bs ++ cs) ∧
      trailingBits w (bs ++ cs) = trailingBits w (trailingBits w bs ++ cs) := by
  have hle : bs.length / w * w ≤ bs.length := Nat.div_mul_le_self _ _
  have hdrop : (bs ++ cs).drop (bs.length / w * w) = trailingBits w bs ++ cs := List.drop_append_of_le_length hle
  have hlen : (bs ++ cs).length = (trailingBits w bs ++ cs).length + bs.length / w * w := by
    simp only [trailingBits, List.length_append, List.length_drop]
    omega
  have hcount : (bs ++ cs).length / w = bs.length / w + (trailingBits w bs ++ cs).length / w := by
    rw [hlen, Nat.add_mul_div_right _ _ hw, Nat.add_comm]
  refine ⟨?_, ?_⟩
  · rw [wholePieces, hcount, pieces_add, hdrop, pieces_append_right hle, ← wholePieces, ← wholePieces]
  · rw [trailingBits, hcount, Nat.add_mul, ← List.drop_drop, hdrop, ← trailingBits]

theorem accDrainLoop_fst {w fuel : Nat} (hw : 1 ≤ w) {a : Acc} (hf : a.cnt ≤ fuel) :
    (accDrainLoop fuel a w).1 = wholePieces w a.held := by
  induction fuel generalizing a with
  | zero => simp [accDrainLoop, wholePieces, pieces, Nat.le_zero.1 hf]
  | succ fuel ih =>
    unfold accDrainLoop
    split_ifs with h
    · have hrest : (accDrainLoop fuel (accTake a w).2 w).1 = wholePieces w (a.held.drop w) := by
        rw [ih (by simp only [accTake]; omega), held_accTake h]
      rw [wholePieces_of_le hw (by rwa [Acc.held_length]), ← accTake_index h, ← hrest]
    · simp [wholePieces, pieces, Nat.div_eq_of_lt (not_le.1 h)]

theorem accDrainLoop_snd {w fuel : Nat} (hw : 1 ≤ w) {a : Acc} (hf : a.cnt ≤ fuel) (h : a.buf < 2 ^ a.cnt) :
    (accDrainLoop fuel a w).2 = ⟨a.buf % 2 ^ (a.cnt % w), a.cnt % w⟩ := by
  induction fuel generalizing a with
  | zero =>
    obtain ⟨buf, cnt⟩ := a
    simp_all [accDrainLoop]
  | succ fuel ih =>
    unfold accDrainLoop
    split_ifs with hle
    · have hmod : (a.cnt - w) % w = a.cnt % w := (Nat.mod_eq_sub_mod hle).symm
      have hbuf : a.buf % 2 ^ (a.cnt - w) % 2 ^ (a.cnt % w) = a.buf % 2 ^ (a.cnt % w) :=
        Nat.mod_mod_of_dvd _ (Nat.pow_dvd_pow 2 (hmod ▸ Nat.mod_le _ _))
      have hrest := ih (a := (accTake a w).2) (by simp only [accTake]; omega) (Nat.mod_lt _ (Nat.two_pow_pos _))
      simpa only [accTake, hmod, hbuf] using hrest
    · rw [Nat.mod_eq_of_lt (not_le.1 hle), Nat.mod_eq_of_lt h]

/-- A drain yields the whole pieces of the held bits (R104, R113). -/
theorem accDrain_indices {w : Nat} (hw : 1 ≤ w) (a : Acc) : (accDrain a w).1 = wholePieces w a.held :=
  accDrainLoop_fst hw le_rfl

theorem accDrain_rest {w : Nat} (hw : 1 ≤ w) {a : Acc} (h : a.buf < 2 ^ a.cnt) :
    (accDrain a w).2 = ⟨a.buf % 2 ^ (a.cnt % w), a.cnt % w⟩ := accDrainLoop_snd hw le_rfl h

/-- A drain leaves the trailing bits of the held ones (R104, R113). -/
theorem held_accDrain {w : Nat} (hw : 1 ≤ w) {a : Acc} (h : a.buf < 2 ^ a.cnt) :
    (accDrain a w).2.held = trailingBits w a.held := by
  rw [accDrain_rest hw h, trailingBits, Acc.held_length, Acc.held, Acc.held, bitsOf_mod,
    bitsOf_drop (Nat.div_mul_le_self _ _), ← Nat.mod_eq_sub_div_mul]

theorem accDrain_eq {w : Nat} (hw : 1 ≤ w) {a : Acc} (h : a.buf < 2 ^ a.cnt) :
    accDrain a w = ((List.range (a.cnt / w)).map fun k => a.buf / 2 ^ (a.cnt - (k + 1) * w) % 2 ^ w,
      ⟨a.buf % 2 ^ (a.cnt % w), a.cnt % w⟩) := by
  refine Prod.ext ?_ (accDrain_rest hw h)
  rw [accDrain_indices hw, wholePieces, Acc.held_length]
  exact pieces_bitsOf (Nat.div_mul_le_self _ _) _

/-- Settles O11: the indices are the pieces of the bits of `buf`, read off as a division each. -/
theorem drainYieldsTheChunksInOrder : Obligations.DrainYieldsTheChunksInOrder := fun _ _ hw hbuf => accDrain_eq hw hbuf

/-- Everything a list of pushes pushes, as one string. -/
def pushedBits (ps : List (Nat × Nat)) : List Bool := ps.flatMap fun p => bitsOf p.2 p.1

theorem pushedBits_cons (p : Nat × Nat) (ps : List (Nat × Nat)) :
    pushedBits (p :: ps) = bitsOf p.2 p.1 ++ pushedBits ps := List.flatMap_cons

/-- Pushes each followed by a drain: the pieces of what was held and of everything pushed, in one string (R113). -/
theorem pushAllDraining_pieces {w : Nat} (hw : 1 ≤ w) {ps : List (Nat × Nat)}
    (hps : ∀ p ∈ ps, 1 ≤ p.2 ∧ p.1 < 2 ^ p.2 ∧ w - 1 + p.2 ≤ Config.W - 1) {a : Acc} (hcnt : a.cnt < w)
    (hbuf : a.buf < 2 ^ a.cnt) :
    (pushAllDraining w ps a).1 = wholePieces w (a.held ++ pushedBits ps) ∧
      (pushAllDraining w ps a).2.held = trailingBits w (a.held ++ pushedBits ps) := by
  induction ps generalizing a with
  | nil => simp [pushAllDraining, pushedBits, wholePieces, trailingBits, pieces, Nat.div_eq_of_lt hcnt]
  | cons p ps ih =>
    obtain ⟨⟨-, hv, hroom⟩, hps⟩ := List.forall_mem_cons.1 hps
    have hroom : a.cnt + p.2 ≤ Config.W - 1 := by omega
    obtain ⟨hpush, hlt⟩ := accPush_eq hbuf hv hroom
    have hbuf' : (accPush a p.1 p.2).buf < 2 ^ (accPush a p.1 p.2).cnt := by rwa [hpush]
    have hpushed := held_accPush hbuf hv hroom
    have hrest := accDrain_rest hw hbuf'
    obtain ⟨hindices, hheld⟩ := ih hps (a := (accDrain (accPush a p.1 p.2) w).2)
      (by rw [hrest]; exact Nat.mod_lt _ hw) (by rw [hrest]; exact Nat.mod_lt _ (Nat.two_pow_pos _))
    rw [held_accDrain hw hbuf', hpushed] at hindices hheld
    obtain ⟨hwhole, htrailing⟩ := wholePieces_append hw (a.held ++ bitsOf p.2 p.1) (pushedBits ps)
    rw [pushedBits_cons, ← List.append_assoc, hwhole, htrailing, ← hindices]
    refine ⟨?_, hheld⟩
    rw [← hpushed, ← accDrain_indices hw]
    rfl

/-- Settles O12: each function by its law about strings, and the pushes by induction from the empty string. -/
theorem accumulatorIsABitString : Obligations.AccumulatorIsABitString := by
  refine ⟨fun a v w hbuf _ hv hw => held_accPush hbuf hv hw,
    fun a w _ _ hw => ⟨accTake_index hw, held_accTake hw⟩,
    fun a w _ _ hw => ⟨accFlush_index hw.le, rfl⟩, fun w ps hw hps => ?_⟩
  exact pushAllDraining_pieces hw hps (a := ⟨0, 0⟩) hw (by decide)

end Sys2Proof.Machine
end

section
/-! The accumulator commands (40_accumulator.md, section 2): what an unfaulted block answers, said once for every
command, and the five bodies. -/

namespace Sys2Proof.Machine

/-! ### What an unfaulted block answers (R222, R234) -/

section Ready

variable {i : Instr} {p : Phase} {s : State}

theorem exec_outOfPhase (hl : legalPhase i = some p) (he : s.err = none) : OutOfPhase i p s := by
  intro hp
  rw [exec_of_legalPhase hl, runCommand_wrong_phase he hp]
  rfl

theorem exec_done (hl : legalPhase i = some p) (he : s.err = none) (hp : s.phase = p) {u : Block}
    (hu : effectOf i s.toBlock = .done u) : exec i s = .next { s with toBlock := u, responses := responded s .ok } := by
  rw [exec_of_legalPhase hl, runCommand_ready he hp, hu]
  rfl

theorem exec_raise (hl : legalPhase i = some p) (he : s.err = none) (hp : s.phase = p) {c : Cause}
    (hc : effectOf i s.toBlock = .raise c) : exec i s = .next (faultState c i s) := by
  rw [exec_of_legalPhase hl, runCommand_ready he hp, hc]
  rfl

end Ready

/-! ### Words and operands -/

theorem toNat_append_eq {m n : Nat} (x : BitVec m) (y : BitVec n) : (x ++ y).toNat = x.toNat * 2 ^ n + y.toNat := by
  rw [BitVec.toNat_append, ← Nat.shiftLeft_add_eq_or_of_lt y.isLt, Nat.shiftLeft_eq]

theorem pushBitsLegal_iff (v w : Nat) : pushBitsLegal v w = true ↔ 1 ≤ w ∧ w ≤ 8 ∧ v < 2 ^ w := by
  simp [pushBitsLegal, and_assoc]

theorem chunkWidthLegal_iff (w : Nat) : chunkWidthLegal w = true ↔ 1 ≤ w ∧ w ≤ 32 := by
  simp [chunkWidthLegal]

/-- What a push writes into the registers. The cut to 64 bits is the `mod 2^W` of R101, so this needs no bound on the
bits held. -/
theorem setAcc_accPush (s : Block) {v w : Nat} (hv : v < 2 ^ w) : s.setAcc (accPush s.acc v w) =
    { s with
      buffer := BitVec.ofNat 64 (s.buffer.toNat * 2 ^ w + v)
      bitCount := BitVec.ofNat 7 (s.bitCount.toNat + w) } := by
  have hcut (n : Nat) : BitVec.ofNat 64 (n % 2 ^ Config.W) = BitVec.ofNat 64 n :=
    BitVec.eq_of_toNat_eq (by simp [Config.W])
  simp only [accPush_of_lt hv, Block.acc_buf, Block.acc_cnt, Block.setAcc, hcut]

/-! ### The commands -/

/-- Settles O13: the body of ACLR writes the empty accumulator. -/
theorem aclrEmptiesTheAccumulator : Obligations.AclrEmptiesTheAccumulator :=
  ⟨rfl, fun _ he => ⟨exec_outOfPhase rfl he, fun hp => exec_done rfl he hp rfl⟩⟩

/-- Settles O14: the body of PUSHBYTE raises when the byte has no room, else it pushes. -/
theorem pushbyteAppendsEightBits : Obligations.PushbyteAppendsEightBits := by
  refine ⟨fun byte => by rw [encode, toNat_append_eq]; rfl, fun s byte he => ⟨exec_outOfPhase rfl he, ?_, ?_⟩⟩
  · intro hp hfull
    exact exec_raise rfl he hp (if_pos hfull)
  · intro hp hroom
    have hbody : effectOf (.pushbyte byte) s.toBlock = .done (s.setAcc (accPush s.acc byte.toNat 8)) :=
      if_neg (not_lt.2 hroom)
    rw [exec_done rfl he hp hbody, setAcc_accPush s.toBlock byte.isLt]
    rfl

/-- Settles O15: the body of PUSHBITS checks its operands, then the room, then it pushes. -/
theorem pushbitsAppendsItsBits : Obligations.PushbitsAppendsItsBits := by
  refine ⟨fun value width => ?_, fun s value width he => ⟨exec_outOfPhase rfl he, ?_⟩⟩
  · rw [encode, toNat_append_eq, toNat_append_eq, Nat.add_mul]
    rfl
  simp only [← pushBitsLegal_iff]
  refine ⟨fun hp hbad => ?_, fun hp hlegal hfull => ?_, fun hp hlegal hroom => ?_⟩
  · exact exec_raise rfl he hp (by rw [effectOf, if_pos (by simpa using hbad)])
  · exact exec_raise rfl he hp (by rw [effectOf, if_neg (by simpa using hlegal), if_pos hfull])
  · obtain ⟨-, -, hvalue⟩ := (pushBitsLegal_iff _ _).1 hlegal
    have hbody : effectOf (.pushbits value width) s.toBlock =
        .done (s.setAcc (accPush s.acc value.toNat width.toNat)) := by
      rw [effectOf, if_neg (by simpa using hlegal), if_neg (not_lt.2 hroom)]
    rw [exec_done rfl he hp hbody, setAcc_accPush s.toBlock hvalue]

/-- Settles O16: the body of EXTRACT checks its width, then it drains as R104 says. -/
theorem extractEmitsTheChunks : Obligations.ExtractEmitsTheChunks := by
  refine ⟨fun width => by rw [encode, toNat_append_eq]; rfl, fun s width he => ⟨exec_outOfPhase rfl he, ?_⟩⟩
  simp only [← chunkWidthLegal_iff]
  refine ⟨fun hp hbad => ?_, fun hp hlegal hacc => ?_⟩
  · exact exec_raise rfl he hp (by rw [effectOf, if_pos (by simpa using hbad)])
  · have hbody := exec_done rfl he hp (i := .extract width) (by rw [effectOf, if_neg (by simpa using hlegal)])
    have hdrain := accDrain_eq (a := s.acc) ((chunkWidthLegal_iff _).1 hlegal).1 hacc.2
    rw [hbody, hdrain, List.map_map]
    rfl

/-- Settles O17: the body of FLUSH checks its width, then that no whole chunk is held, then that any bit is. -/
theorem flushEmitsTheRemainder : Obligations.FlushEmitsTheRemainder := by
  refine ⟨fun width => by rw [encode, toNat_append_eq]; rfl, fun s width he => ⟨exec_outOfPhase rfl he, ?_⟩⟩
  simp only [← chunkWidthLegal_iff]
  refine ⟨fun hp hbad => ?_, fun hp hlegal hheld => ?_, fun hp hlegal hempty => ?_,
    fun hp hlegal hsome hopen hacc => ?_⟩
  · exact exec_raise rfl he hp (by rw [effectOf, if_pos (by simpa using hbad)])
  · exact exec_raise rfl he hp (by rw [effectOf, if_neg (by simpa using hlegal), if_pos hheld])
  · have hwidth := ((chunkWidthLegal_iff _).1 hlegal).1
    refine exec_done rfl he hp ?_
    rw [effectOf, if_neg (by simpa using hlegal), if_neg (by omega), if_neg (by omega)]
  · have hbody := exec_done rfl he hp (i := .flush width)
      (by rw [effectOf, if_neg (by simpa using hlegal), if_neg (not_le.2 hopen), if_pos hsome])
    have hflush := (accFlush_eq (a := s.acc) hacc.2 hopen.le).1
    rw [hbody, hflush]
    rfl

end Sys2Proof.Machine
end

section
/-! The alphabet commands (41_alphabet_lut.md): the three bodies, what appending a list of characters leaves in the LUT
and in `LEN`, and the run of LUTLOAD (30_encoding.md R78). -/

namespace Sys2Proof.Machine

/-! ### Nothing but the alphabets is written -/

/-- The block `s` with the alphabets of `u`: the whole LUT and the `LEN` of every bank (R34, R35). -/
def Block.withAlphabets (s u : Block) : Block :=
  { s with lut := u.lut, len32 := u.len32, len64 := u.len64, len85 := u.len85, len6 := u.len6 }

/-- `u` differs from `s` in the alphabets alone. -/
def OnlyAlphabets (s u : Block) : Prop := u = s.withAlphabets u

theorem OnlyAlphabets.refl (s : Block) : OnlyAlphabets s s := rfl

theorem OnlyAlphabets.trans {s u v : Block} (h : OnlyAlphabets s u) (h' : OnlyAlphabets u v) : OnlyAlphabets s v :=
  Eq.trans h' (congrArg (·.withAlphabets v) h)

theorem setLen_onlyAlphabets (s : Block) (b : Bank) (v : BitVec 8) : OnlyAlphabets s (s.setLen b v) := by
  cases b <;> rfl

theorem appendChar_onlyAlphabets (b : Bank) (c : Ch) (s : Block) : OnlyAlphabets s (appendChar b c s) :=
  appendChar_frame b c s

/-- The frame of a state whose block went on from `s` in the alphabets alone. -/
theorem OnlyAlphabets.state_eq {s : State} {u : Block} (h : OnlyAlphabets s.toBlock u) (rs : List Response) :
    { s with toBlock := u, responses := rs } =
      { s with lut := u.lut, len32 := u.len32, len64 := u.len64, len85 := u.len85, len6 := u.len6, responses := rs } :=
  congrArg (fun v : Block => { s with toBlock := v, responses := rs }) h

@[simp] theorem appendChar_err (b : Bank) (c : Ch) (s : Block) : (appendChar b c s).err = s.err := by
  rw [appendChar_frame]

/-! ### The three commands -/

/-- Settles O18: the body of LUTCLR writes `LEN[bank]`. -/
theorem lutclrEmptiesTheBank : Obligations.LutclrEmptiesTheBank := by
  refine ⟨fun bank => by rw [encode, toNat_append_eq]; rfl, fun s bank he => ⟨exec_outOfPhase rfl he, fun hp => ?_⟩⟩
  exact ⟨_, exec_done rfl he hp rfl, fun b => Block.len_setLen s.toBlock bank b 0#8, by cases bank <;> rfl⟩

/-- What every LUT address reads after LUTAPP (R122). -/
theorem appendChar_read (b : Bank) (c : Ch) (s : Block) (a : Nat) : Memory.read (appendChar b c s).lut a =
    if a = lutAddr b (s.len b).toNat ∧ (s.len b).toNat < Config.bankLen b then some c else Memory.read s.lut a := by
  rw [appendChar_lut]
  by_cases hroom : (s.len b).toNat < Config.bankLen b
  · simp only [hroom, if_true, and_true, Memory.read_write]
  · simp only [hroom, if_false, and_false]

/-- LUTAPP of a scalar value is done. -/
theorem exec_lutapp {s : State} {b : Bank} {c : Ch} (he : s.err = none) (hp : s.phase = .idle)
    (hc : scalarValue c = true) : exec (.lutapp b c) s =
      .next { s with toBlock := appendChar b c s.toBlock, responses := responded s .ok } :=
  exec_done rfl he hp (by rw [effectOf, isScalar_eq_scalarValue, if_neg (by simpa using hc)])

/-- Settles O19: the body of LUTAPP checks its operand, then it appends. -/
theorem lutappStoresAndCounts : Obligations.LutappStoresAndCounts := by
  refine ⟨fun bank char => ?_, fun s bank char he => ⟨exec_outOfPhase rfl he, fun hp hbad => ?_, fun hp hc => ?_⟩⟩
  · rw [encode, toNat_append_eq, toNat_append_eq, Nat.add_mul]
    rfl
  · exact exec_raise rfl he hp (by rw [effectOf, isScalar_eq_scalarValue, if_pos (by simpa using hbad)])
  · exact ⟨_, exec_lutapp he hp hc, appendChar_read bank char s.toBlock,
      fun b => appendChar_len bank b char s.toBlock, (appendChar_onlyAlphabets bank char s.toBlock).state_eq _⟩

/-- Settles O20: the body of LUTRD checks its index; an entry below `N` and `LEN` is written, so its look-up gives a
character. -/
theorem lutrdEmitsTheEntry : Obligations.LutrdEmitsTheEntry := by
  refine ⟨fun bank index => ?_, fun s bank index he => ⟨exec_outOfPhase rfl he, fun hp hbad => ?_, fun hp hbad hlut => ?_⟩⟩
  · rw [encode, toNat_append_eq, toNat_append_eq, Nat.add_mul]
    rfl
  · exact exec_raise rfl he hp (if_pos hbad)
  · obtain ⟨hn, hl⟩ := not_or.1 hbad
    obtain ⟨c, hc⟩ := Option.isSome_iff_exists.1 (hlut.written (not_le.1 hl) (not_le.1 hn))
    refine ⟨c, hc, exec_done rfl he hp ?_⟩
    rw [effectOf, if_neg hbad, lutEntry_of_read (not_le.1 hn) hc, whenOk_ok]
    rfl

/-! ### Appending a list of characters -/

/-- The appends of R122 for a list of characters, in order. -/
def appendChars (b : Bank) (cs : List Ch) (s : Block) : Block := cs.foldl (fun u c => appendChar b c u) s

theorem appendChars_cons (b : Bank) (c : Ch) (cs : List Ch) (s : Block) :
    appendChars b (c :: cs) s = appendChars b cs (appendChar b c s) := rfl

theorem appendChars_concat (b : Bank) (cs : List Ch) (c : Ch) (s : Block) :
    appendChars b (cs ++ [c]) s = appendChar b c (appendChars b cs s) := List.foldl_concat ..

theorem appendChars_onlyAlphabets (b : Bank) (cs : List Ch) (s : Block) : OnlyAlphabets s (appendChars b cs s) := by
  induction cs generalizing s with
  | nil => exact .refl s
  | cons c cs ih => exact (appendChar_onlyAlphabets b c s).trans (ih (appendChar b c s))

/-- Every append is counted, up to 255, in its own bank and nowhere else (R122). -/
theorem appendChars_len (b b' : Bank) (cs : List Ch) (s : Block) : ((appendChars b cs s).len b').toNat =
    if b' = b then min ((s.len b).toNat + cs.length) 255 else (s.len b').toNat := by
  induction cs generalizing s with
  | nil =>
    have hlt := (s.len b).isLt
    split_ifs with hb
    · subst hb; simp only [appendChars, List.foldl_nil, List.length_nil]; omega
    · rfl
  | cons c cs ih =>
    rw [appendChars_cons, ih, appendChar_len, appendChar_len, if_pos rfl, List.length_cons]
    split_ifs
    · omega
    · rfl

theorem bankLen_lt (b : Bank) : Config.bankLen b < 255 := by cases b <;> decide

/-- What the entries of every bank read after LUTAPP: two entries never share an address (R51). -/
theorem appendChar_read_entry (b : Bank) (c : Ch) (s : Block) {b' : Bank} {i : Nat} (hi : i < Config.bankLen b') :
    Memory.read (appendChar b c s).lut (lutAddr b' i) =
      if b' = b ∧ i = (s.len b).toNat then some c else Memory.read s.lut (lutAddr b' i) := by
  rw [appendChar_read]
  refine if_congr ⟨fun ⟨haddr, hroom⟩ => lutAddr_inj hi hroom haddr, ?_⟩ rfl rfl
  rintro ⟨rfl, rfl⟩
  exact ⟨rfl, hi⟩

/-- Appends to one bank leave the entries of every other as they were. -/
theorem appendChars_read_other (b : Bank) (cs : List Ch) (s : Block) {b' : Bank} (hb : b' ≠ b) {i : Nat}
    (hi : i < Config.bankLen b') :
    Memory.read (appendChars b cs s).lut (lutAddr b' i) = Memory.read s.lut (lutAddr b' i) := by
  induction cs generalizing s with
  | nil => rfl
  | cons c cs ih => rw [appendChars_cons, ih, appendChar_read_entry b c s hi, if_neg fun h => hb h.1]

/-- Appends to an emptied bank store the characters in order, as many as have room: the last of them lands at the count
of those before it. -/
theorem appendChars_read {b : Bank} {s : Block} (hempty : s.len b = 0#8) {cs : List Ch} {i : Nat}
    (hi : i < cs.length) (hn : i < Config.bankLen b) :
    Memory.read (appendChars b cs s).lut (lutAddr b i) = cs[i]? := by
  induction cs using List.reverseRecOn with
  | nil => simp at hi
  | append_singleton cs c ih =>
    have hcount : ((appendChars b cs s).len b).toNat = min cs.length 255 := by simp [appendChars_len, hempty]
    have hmax := bankLen_lt b
    rw [List.length_append, List.length_singleton] at hi
    rw [appendChars_concat, appendChar_read_entry b c _ hn, hcount]
    by_cases hlast : i = cs.length
    · rw [if_pos ⟨rfl, by omega⟩, hlast, List.getElem?_concat_length]
    · rw [if_neg (by omega), ih (by omega), List.getElem?_append_left (by omega)]

/-! ### The run of LUTLOAD -/

theorem execAll_cons {i : Instr} {s t : State} (h : exec i s = .next t) (is : List Instr) :
    execAll (i :: is) s = execAll is t := by
  simp only [execAll, h]

/-- Every append of a scalar value responds `OK`. -/
theorem execAll_lutapp {s : State} (he : s.err = none) (hp : s.phase = .idle) (b : Bank) {cs : List Ch}
    (hcs : ∀ c ∈ cs, scalarValue c = true) : execAll (cs.map (Instr.lutapp b)) s =
      .next { s with toBlock := appendChars b cs s.toBlock, responses := s.responses ++ allOk cs.length } := by
  induction cs generalizing s with
  | nil => simp [execAll, appendChars, allOk]
  | cons c cs ih =>
    obtain ⟨hc, hcs⟩ := List.forall_mem_cons.1 hcs
    rw [List.map_cons, execAll_cons (exec_lutapp he hp hc), ih (by simpa using he) (by simpa using hp) hcs]
    simp [appendChars_cons, allOk, List.replicate_succ]

/-- LUTLOAD empties the bank and appends (R78). -/
theorem execAll_lutload {s : State} (h : ReadyIn .idle s) (b : Bank) {cs : List Ch}
    (hcs : ∀ c ∈ cs, scalarValue c = true) : execAll (pseudoLutload b cs) s = .next
      { s with
        toBlock := appendChars b cs (s.setLen b 0#8)
        responses := s.responses ++ allOk (cs.length + 1) } := by
  obtain ⟨he, hp⟩ := h
  rw [pseudoLutload, execAll_cons (exec_done rfl he hp rfl),
    execAll_lutapp (by simpa using he) (by simpa using hp) b hcs]
  simp [allOk, List.replicate_succ]

/-- Settles O21: the run leaves the appends of the list to the emptied bank, and the lemmas about those give each
clause. -/
theorem lutloadSuppliesTheAlphabet : Obligations.LutloadSuppliesTheAlphabet := by
  intro s b cs hready hcs
  have hlen : ((appendChars b cs (s.setLen b 0#8)).len b).toNat = min cs.length 255 := by simp [appendChars_len]
  have hframe : OnlyAlphabets s.toBlock (appendChars b cs (s.setLen b 0#8)) :=
    (setLen_onlyAlphabets s.toBlock b 0#8).trans (appendChars_onlyAlphabets b cs _)
  refine ⟨_, execAll_lutload hready b hcs, hlen, fun i hi => ?_, ?_, fun b' hb => ⟨?_, fun i hi => ?_⟩,
    hframe.state_eq _⟩
  · obtain ⟨hi, hn⟩ := lt_min_iff.1 hi
    exact appendChars_read (by simp) hi hn
  · have hmax := bankLen_lt b
    rw [Block.bankValid_eq_true, hlen]
    omega
  · exact BitVec.eq_of_toNat_eq (by simp [appendChars_len, hb])
  · rw [appendChars_read_other b cs _ hb hi, Block.setLen_lut]

end Sys2Proof.Machine
end

section
/-! The symbol generator's commands (42_symbol_generator.md R136 to R138): what each answers in a stream that is open and
meets the invariant. -/

namespace Sys2Proof.Machine

/-! ### Opening a stream (R136) -/

theorem bankValid_eq_false {s : Block} {b : Bank} (h : (s.len b).toNat ≠ Config.bankLen b) :
    s.bankValid b = false := by
  simpa [Block.bankValid] using h

/-- ENC.START of a valid bank opens a fresh stream. -/
theorem exec_encStart {s : State} (hs : ReadyIn .idle s) {b : Bank} (hb : b ≠ .six) (hv : s.bankValid b = true) :
    exec (.encStart b) s = .next
      { s with
        buffer := 0#64, bitCount := 0#7, blkCount := 0#3, radix := b, phase := .enc
        responses := responded s .ok } := by
  obtain ⟨he, hp⟩ := hs
  exact exec_done rfl he hp (by rw [effectOf, if_neg hb, hv]; rfl)

/-- Settles O24: the body of ENC.START refuses bank 3, then an alphabet of the wrong size, else it opens the stream. -/
theorem encStartOpensTheStream : Obligations.EncStartOpensTheStream := by
  refine ⟨fun bank => by rw [encode, toNat_append_eq]; rfl,
    fun s bank he => ⟨exec_outOfPhase rfl he, fun hp hsix => ?_, fun hp hb hlen => ?_, fun hp hb hlen => ?_⟩⟩
  · exact exec_raise rfl he hp (if_pos hsix)
  · exact exec_raise rfl he hp (by rw [effectOf, if_neg hb, bankValid_eq_false hlen]; rfl)
  · exact exec_encStart ⟨he, hp⟩ hb ((Block.bankValid_eq_true _ _).2 hlen)

/-! ### Streams that are open and meet the invariant -/

/-- An unfaulted ENC stream of radix `r` is open and the block meets its invariant. -/
structure EncOpen (r : Bank) (s : State) : Prop where
  inv : BlockInv s.toBlock
  err : s.err = none
  phase : s.phase = .enc
  radix : s.radix = r

/-- A command that leaves ERR, PHASE and RADIX alone keeps the stream open. -/
theorem EncOpen.of_exec {r : Bank} {i : Instr} {s : State} {u : Block} {rs : List Response} (h : EncOpen r s)
    (hexec : exec i s = .next { s with toBlock := u, responses := rs }) (herr : u.err = s.err)
    (hphase : u.phase = s.phase) (hradix : u.radix = s.radix) :
    EncOpen r { s with toBlock := u, responses := rs } :=
  ⟨exec_keeps h.inv hexec, herr.trans h.err, hphase.trans h.phase, hradix.trans h.radix⟩

theorem EncOpen.bankValid {r : Bank} {s : State} (h : EncOpen r s) : s.bankValid r = true :=
  h.radix ▸ (h.inv.encInv h.phase).1

/-- The alphabet of the stream is there to be looked up. -/
theorem EncOpen.lutEntries_eq {r : Bank} {s : State} (h : EncOpen r s) {is : List Nat}
    (his : ∀ i ∈ is, i < Config.bankLen r) : lutEntries s.lut r is = .ok (is.map (lutAt s.toBlock r)) :=
  lutEntries_ok fun i hi => ⟨his i hi, h.inv.lutInv.written_of_valid h.bankValid (his i hi)⟩

/-- In radix 32 and 64 less than a chunk is held and less than a block is counted. -/
theorem EncOpen.block_bounds {r : Bank} {s : State} (h : EncOpen r s) {w blk : Nat}
    (hw : Config.blockParams r = some (w, blk)) : s.bitCount.toNat < w ∧ s.blkCount.toNat < blk := by
  obtain ⟨-, hcnt, hblk, -⟩ := (encInv_block_iff (h.radix ▸ hw)).1 (h.inv.encInv h.phase)
  exact ⟨hcnt, hblk⟩

/-- In radix 85 less than a group is held, in whole bytes, and no symbol is counted. -/
theorem EncOpen.bounds85 {s : State} (h : EncOpen .r85 s) :
    s.bitCount.toNat ∈ [0, 8, 16, 24] ∧ s.blkCount = 0#3 := by
  obtain ⟨-, hcnt, hblk⟩ := (encInv_85_iff h.radix).1 (h.inv.encInv h.phase)
  exact ⟨hcnt, BitVec.eq_of_toNat_eq hblk⟩

/-- There is room for a byte in every open stream (R106). -/
theorem EncOpen.room {r : Bank} {s : State} (h : EncOpen r s) : s.acc.cnt + 8 ≤ Config.W - 1 := by
  have hcnt : s.bitCount.toNat ≤ 24 := by
    obtain ⟨-, ⟨-, hcnt, -⟩ | ⟨-, hcnt, -⟩ | ⟨-, hcnt, -⟩⟩ := h.inv.encInv h.phase
    · omega
    · omega
    · simp only [List.mem_cons, List.not_mem_nil, or_false] at hcnt
      omega
  simp only [Block.acc_cnt, Config.W]
  omega

theorem blockParams_le {r : Bank} {w blk : Nat} (hw : Config.blockParams r = some (w, blk)) : w ≤ 6 ∧ blk ≤ 8 := by
  rcases blockParams_eq_some hw with ⟨-, rfl, rfl⟩ | ⟨-, rfl, rfl⟩ <;> decide

/-- The body of ENC.BYTE in radix 32 and 64. -/
theorem encByteBody_block {s : Block} {w blk : Nat} (hw : Config.blockParams s.radix = some (w, blk)) (byte : Byte) :
    encByteBody byte s = encByteBlock w blk byte s := by
  rcases blockParams_eq_some hw with ⟨hr, rfl, rfl⟩ | ⟨hr, rfl, rfl⟩ <;> simp [encByteBody, hr]

/-- The body of ENC.END in radix 32 and 64. -/
theorem encEndBody_block {s : Block} {w blk : Nat} (hw : Config.blockParams s.radix = some (w, blk)) :
    encEndBody s = encEndBlock w blk s := by
  rcases blockParams_eq_some hw with ⟨hr, rfl, rfl⟩ | ⟨hr, rfl, rfl⟩ <;> simp [encEndBody, hr]

theorem encByteBody_85 {s : Block} (hr : s.radix = .r85) (byte : Byte) : encByteBody byte s = encByte85 byte s := by
  simp [encByteBody, hr]

theorem encEndBody_85 {s : Block} (hr : s.radix = .r85) : encEndBody s = encEnd85 s := by
  simp [encEndBody, hr]

/-! ### A byte (R137) -/

/-- The accumulator with a byte after the bits it holds. -/
def Acc.withByte (a : Acc) (b : Byte) : Acc := ⟨a.buf * 256 + b.toNat, a.cnt + 8⟩

theorem accPush_byte {a : Acc} (h : a.Bounded) (hroom : a.cnt + 8 ≤ Config.W - 1) (b : Byte) :
    accPush a b.toNat 8 = a.withByte b := (accPush_eq h.2 b.isLt hroom).1

theorem Acc.Bounded.withByte {a : Acc} (h : a.Bounded) (hroom : a.cnt + 8 ≤ Config.W - 1) (b : Byte) :
    (a.withByte b).Bounded :=
  accPush_byte h hroom b ▸ h.push b.isLt hroom

theorem streamPush_byte {a : Acc} (h : a.Bounded) (hroom : a.cnt + 8 ≤ Config.W - 1) (b : Byte) :
    streamPush a b.toNat 8 = .ok (a.withByte b) := by
  rw [streamPush, if_pos hroom, accPush_byte h hroom]

/-- The block after a drain that yielded `r.1` and left `r.2`: the chunks leave as characters and are counted. -/
def Block.afterChunks (s : Block) (blk : Nat) (r : List Nat × Acc) : Block :=
  emitChars (r.1.map (lutAt s s.radix)) ((s.setAcc r.2).setBlk ((s.blkCount.toNat + r.1.length) % blk))

theorem exec_encByte_block {r : Bank} {s : State} (h : EncOpen r s) {w blk : Nat}
    (hw : Config.blockParams r = some (w, blk)) (b : Byte) : exec (.encByte b) s = .next
      { s with
        toBlock := s.afterChunks blk (accDrain (s.acc.withByte b) w)
        responses := responded s .ok } := by
  obtain ⟨-, hblk⟩ := h.block_bounds hw
  obtain rfl := h.radix
  have hlookup : ∀ i ∈ (accDrain (s.acc.withByte b) w).1, i < Config.bankLen s.radix := fun i hi => by
    rw [bankLen_eq_two_pow hw]
    exact accDrain_index_lt (h.inv.acc_bounded.withByte h.room b) hi
  refine exec_done rfl h.err h.phase ?_
  rw [effectOf, encByteBody_block hw, encByteBlock, streamPush_byte h.inv.acc_bounded h.room, whenOk_ok]
  simp only [h.lutEntries_eq hlookup, whenOk_ok, blkAdvance_eq _ hblk, Block.afterChunks]

theorem exec_encByte85_open {s : State} (h : EncOpen .r85 s) (hopen : s.bitCount.toNat + 8 < 32) (b : Byte) :
    exec (.encByte b) s = .next
      { s with toBlock := s.setAcc (s.acc.withByte b), responses := responded s .ok } := by
  have hcnt : (s.acc.withByte b).cnt ≠ Config.chunk85 := hopen.ne
  refine exec_done rfl h.err h.phase ?_
  rw [effectOf, encByteBody_85 h.radix, encByte85, streamPush_byte h.inv.acc_bounded h.room, whenOk_ok, if_neg hcnt]

theorem exec_encByte85_full {s : State} (h : EncOpen .r85 s) (hfull : s.bitCount.toNat + 8 = 32) (b : Byte) :
    exec (.encByte b) s = .next
      { s with
        toBlock := emitChars ((digits85 (s.acc.withByte b).buf).map (lutAt s.toBlock .r85)) (s.setAcc ⟨0, 0⟩)
        responses := responded s .ok } := by
  have hcnt : (s.acc.withByte b).cnt = Config.chunk85 := hfull
  have hbuf := (h.inv.acc_bounded.withByte h.room b).2
  have htake : accTake (s.acc.withByte b) Config.chunk85 = ((s.acc.withByte b).buf, ⟨0, 0⟩) := by
    rw [hcnt] at hbuf
    simp [accTake, hcnt, Nat.mod_one, Nat.mod_eq_of_lt hbuf]
  refine exec_done rfl h.err h.phase ?_
  rw [effectOf, encByteBody_85 h.radix, encByte85, streamPush_byte h.inv.acc_bounded h.room, whenOk_ok, if_pos hcnt]
  simp only [htake, h.lutEntries_eq fun _ => digits85_lt, whenOk_ok]

/-- Settles O25: the pushed byte stands below the held bits, and the drain is read off by divisions. -/
theorem encByteEmitsTheChunks : Obligations.EncByteEmitsTheChunks := by
  refine ⟨fun byte => by rw [encode, toNat_append_eq]; rfl,
    fun s byte he => ⟨exec_outOfPhase rfl he, fun hp hinv w blk hw => ?_, fun hp hinv hr hopen => ?_,
      fun hp hinv hr hfull => ?_⟩⟩
  · have hs : EncOpen s.radix s := ⟨hinv, he, hp, rfl⟩
    obtain ⟨hcnt, -⟩ := hs.block_bounds hw
    have hdrain := accDrain_eq (Nat.one_le_of_lt hcnt) (hinv.acc_bounded.withByte hs.room byte).2
    rw [exec_encByte_block hs hw, hdrain, Block.afterChunks, List.length_map, List.length_range, List.map_map, emitChars,
      List.map_map]
    rfl
  · exact exec_encByte85_open ⟨hinv, he, hp, hr⟩ hopen byte
  · rw [exec_encByte85_full ⟨hinv, he, hp, hr⟩ hfull byte, emitChars, List.map_map]
    rfl

/-! ### The end (R138) -/

/-- The remainder as a flush gives it: nothing from an empty accumulator, else the held bits left-aligned. -/
def flushIndices (a : Acc) (w : Nat) : List Nat := if a.cnt = 0 then [] else [a.buf * 2 ^ (w - a.cnt)]

theorem flushIndices_map {α : Type} (f : Nat → α) (a : Acc) (w : Nat) :
    (flushIndices a w).map f = if a.cnt = 0 then [] else [f (a.buf * 2 ^ (w - a.cnt))] := by
  unfold flushIndices
  split <;> rfl

theorem streamFlush_eq {a : Acc} (h : a.Bounded) {w : Nat} (hw : a.cnt < w) :
    streamFlush a w = .ok (flushIndices a w, ⟨0, 0⟩) := by
  rw [streamFlush, flushIndices]
  split_ifs with hempty
  · have hbuf := h.2
    obtain ⟨buf, cnt⟩ := a
    simp_all
  · rw [(accFlush_eq h.2 hw.le).1]

theorem flushIndices_lt {a : Acc} (h : a.Bounded) {w : Nat} (hw : a.cnt < w) : ∀ i ∈ flushIndices a w, i < 2 ^ w :=
  streamFlush_index_lt (streamFlush_eq h hw)

/-- The pads make the symbols counted a multiple of the block. -/
theorem padLoop_fst {blk fuel c : Nat} (hc : c < blk) (hf : blk - c ≤ fuel) :
    (padLoop blk fuel c).1 = (blk - c) % blk := by
  induction fuel generalizing c with
  | zero => omega
  | succ fuel ih =>
    unfold padLoop
    split_ifs with h0
    · simp [h0]
    · have hturn : (padLoop blk fuel ((c + 1) % blk)).1 = blk - (c + 1) := by
        rcases Nat.lt_or_ge (c + 1) blk with h | h
        · rw [Nat.mod_eq_of_lt h, ih h (by omega), Nat.mod_eq_of_lt (by omega)]
        · rw [show (c + 1) % blk = 0 by rw [show c + 1 = blk by omega, Nat.mod_self]]
          cases fuel <;> simp [padLoop] <;> omega
      simp only [hturn]
      rw [Nat.mod_eq_of_lt (by omega)]
      omega

/-- The block after the last command of a stream: a fresh accumulator and block count, the phase IDLE. -/
def Block.ended (s : Block) : Block := { freshStream s with phase := .idle }

theorem exec_encEnd_block {r : Bank} {s : State} (h : EncOpen r s) {w blk : Nat}
    (hw : Config.blockParams r = some (w, blk)) : exec .encEnd s = .next
      { s with
        toBlock := emitChars ((flushIndices s.acc w).map (lutAt s.toBlock r) ++ List.replicate
          ((blk - (s.blkCount.toNat + (flushIndices s.acc w).length) % blk) % blk) Config.pad) s.ended
        responses := responded s .ok } := by
  obtain ⟨hcnt, hblk⟩ := h.block_bounds hw
  obtain ⟨-, hblk8⟩ := blockParams_le hw
  obtain rfl := h.radix
  have hlookup : ∀ i ∈ flushIndices s.acc w, i < Config.bankLen s.radix := fun i hi => by
    rw [bankLen_eq_two_pow hw]
    exact flushIndices_lt h.inv.acc_bounded hcnt i hi
  have hmod (n : Nat) : n % blk < blk := Nat.mod_lt n (Nat.zero_lt_of_lt hblk)
  refine exec_done rfl h.err h.phase ?_
  rw [effectOf, encEndBody_block hw, encEndBlock, streamFlush_eq h.inv.acc_bounded hcnt, whenOk_ok]
  simp only [h.lutEntries_eq hlookup, whenOk_ok, blkAdvance_eq _ hblk]
  rw [padLoop_fst (hmod _) (by omega), padLoop_snd (hmod _) (by omega)]
  rfl

theorem exec_encEnd85 {s : State} (h : EncOpen .r85 s) : exec .encEnd s = .next
    { s with
      toBlock := emitChars (((flushIndices s.acc 32).flatMap fun v => (digits85 v).take (s.acc.cnt / 8 + 1)).map
        (lutAt s.toBlock .r85)) s.ended
      responses := responded s .ok } := by
  obtain ⟨hcnt, hblk⟩ := h.bounds85
  have hopen : s.acc.cnt < Config.chunk85 := by
    simp only [List.mem_cons, List.not_mem_nil, or_false] at hcnt
    simp only [Block.acc_cnt, Config.chunk85]
    omega
  have hended : { s.setAcc ⟨0, 0⟩ with phase := .idle } = s.ended :=
    congrArg (fun k => { s.setAcc ⟨0, 0⟩ with phase := .idle, blkCount := k }) hblk
  refine exec_done rfl h.err h.phase ?_
  rw [effectOf, encEndBody_85 h.radix, encEnd85, streamFlush_eq h.inv.acc_bounded hopen, whenOk_ok,
    h.lutEntries_eq, whenOk_ok, ← hended]
  · rfl
  · intro d hd
    obtain ⟨v, -, hd⟩ := List.mem_flatMap.1 hd
    exact digits85_lt (List.mem_of_mem_take hd)

/-- Settles O26: the flush gives no index or one, and the pads depend on the symbols counted with it. -/
theorem encEndFlushesAndPads : Obligations.EncEndFlushesAndPads := by
  refine ⟨rfl, fun s he => ⟨exec_outOfPhase rfl he, fun hp hinv w blk hw => ?_, fun hp hinv hr => ?_⟩⟩
  · intro tail pads
    have htail : (flushIndices s.acc w).map (Item.char ∘ lutAt s.toBlock s.radix) = tail := flushIndices_map _ s.acc w
    have hlen : (flushIndices s.acc w).length = tail.length := by rw [← htail, List.length_map]
    rw [exec_encEnd_block ⟨hinv, he, hp, rfl⟩ hw, hlen, emitChars, List.map_append, List.map_map, List.map_replicate,
      htail, List.append_assoc]
    rfl
  · have hdigits : (flushIndices s.acc 32).flatMap (fun v => (digits85 v).take (s.acc.cnt / 8 + 1)) =
        if s.bitCount.toNat = 0 then []
        else (digits85 (s.buffer.toNat * 2 ^ (32 - s.bitCount.toNat))).take (s.bitCount.toNat / 8 + 1) := by
      rw [List.flatMap, flushIndices_map]
      split <;> simp_all
    rw [exec_encEnd85 ⟨hinv, he, hp, hr⟩, ← hdigits, emitChars, List.map_map]
    rfl

end Sys2Proof.Machine
end

section
/-! The base-85 digits (42_symbol_generator.md R141) and the reference inverse of the digits of a byte string (R150). -/

namespace Sys2Proof.Machine

/-- Settles O27: each entry is a quotient by a power of 85 with its remainder, and the five add up to the value. -/
theorem digits85AreTheBase85Digits : Obligations.Digits85AreTheBase85Digits := by
  intro v hv
  refine ⟨rfl, fun d => digits85_lt, fun d hd => ?_, fun i hi => ?_, ?_⟩
  · obtain rfl : v / 85 ^ 4 % 85 = d := by simpa [digits85] using hd
    omega
  · match i, hi with
    | 0, _ | 1, _ | 2, _ | 3, _ | 4, _ => rfl
  · simp only [digits85, List.foldl_cons, List.foldl_nil]
    omega

theorem groupValue_lt (b0 b1 b2 b3 : Byte) : groupValue b0.toNat b1.toNat b2.toNat b3.toNat < 2 ^ 32 := by
  have h0 := b0.isLt
  have h1 := b1.isLt
  have h2 := b2.isLt
  have h3 := b3.isLt
  unfold groupValue
  omega

/-- The four bytes of a group are read back from its value (R142, R150). -/
theorem bytesOf_groupValue (b0 b1 b2 b3 : Byte) :
    bytesOf (groupValue b0.toNat b1.toNat b2.toNat b3.toNat) = [b0, b1, b2, b3] := by
  have h0 := b0.isLt
  have h1 := b1.isLt
  have h2 := b2.isLt
  have h3 := b3.isLt
  have hbyte {n : Nat} {b : Byte} (h : n % 256 = b.toNat) : BitVec.ofNat 8 n = b := BitVec.eq_of_toNat_eq h
  rw [bytesOf, hbyte (b := b0), hbyte (b := b1), hbyte (b := b2), hbyte (b := b3)] <;> unfold groupValue <;> omega

theorem bytesOf_eq_map (v : Nat) : bytesOf v = (List.range 4).map fun j => BitVec.ofNat 8 (v / 2 ^ (8 * (3 - j))) := by
  simp [bytesOf, List.range_succ]

/-- The first `k` bytes of a group depend on the places above the others only (R150). -/
theorem groupBytes_of_div_eq {k u v : Nat} (hk : k ≤ 4) (hv : v < 2 ^ 32)
    (h : u / 2 ^ (8 * (4 - k)) = v / 2 ^ (8 * (4 - k))) : groupBytes k u = some ((bytesOf v).take k) := by
  have hplace {m : Nat} (hm : 8 * (4 - k) ≤ m) : u / 2 ^ m = v / 2 ^ m := by
    rw [← Nat.add_sub_cancel' hm, Nat.pow_add, ← Nat.div_div_eq_div_mul, h, Nat.div_div_eq_div_mul]
  have hu : u < 2 ^ 32 := by
    have := hplace (m := 32) (by omega)
    omega
  have hbytes : (bytesOf u).take k = (bytesOf v).take k := by
    simp only [bytesOf_eq_map, ← List.map_take, List.take_range, Nat.min_eq_left hk]
    refine List.map_congr_left fun j hj => ?_
    rw [List.mem_range] at hj
    rw [hplace (by omega)]
  rw [groupBytes, if_pos hu, hbytes]

theorem groupBytes_of_groupValue {k u : Nat} {b0 b1 b2 b3 : Byte} (hk : k ≤ 4)
    (h : u / 2 ^ (8 * (4 - k)) = groupValue b0.toNat b1.toNat b2.toNat b3.toNat / 2 ^ (8 * (4 - k))) :
    groupBytes k u = some ([b0, b1, b2, b3].take k) := by
  rw [groupBytes_of_div_eq hk (groupValue_lt b0 b1 b2 b3) h, bytesOf_groupValue]

/-! ### The reference inverse, group by group

The kernel cannot evaluate `groupBytes` at digits that are not numerals, so its comparison with `2 ^ 32` is kept out of
sight while `dec85Ref` is unfolded: `g` stands for `groupBytes` and `f` for `dec85Ref`. -/

/-- `dec85Ref_cons` with both functions by other names. -/
theorem dec85Ref_cons_of_eq {g : Nat → Nat → Option (List Byte)} {f : List Nat → Option (List Byte)}
    (hg : groupBytes = g) (hf : dec85Ref = f) {d0 d1 d2 d3 d4 : Nat} {rest : List Nat} {bs cs : List Byte}
    (hgroup : g 4 (value85 d0 d1 d2 d3 d4) = some bs) (hrest : f rest = some cs) :
    f (d0 :: d1 :: d2 :: d3 :: d4 :: rest) = some (bs ++ cs) := by
  delta dec85Ref dec85Ref._f at hf
  rw [hg] at hf
  calc f (d0 :: d1 :: d2 :: d3 :: d4 :: rest)
      = match g 4 (value85 d0 d1 d2 d3 d4), f rest with
        | some bs, some cs => some (bs ++ cs)
        | _, _ => none := by subst hf; rfl
    _ = some (bs ++ cs) := by rw [hgroup, hrest]

/-- A group of five digits gives its four bytes. -/
theorem dec85Ref_cons {d0 d1 d2 d3 d4 : Nat} {rest : List Nat} {bs cs : List Byte}
    (hgroup : groupBytes 4 (value85 d0 d1 d2 d3 d4) = some bs) (hrest : dec85Ref rest = some cs) :
    dec85Ref (d0 :: d1 :: d2 :: d3 :: d4 :: rest) = some (bs ++ cs) :=
  dec85Ref_cons_of_eq rfl rfl hgroup hrest

/-- The first `k + 1` digits of a group whose bytes after the first `k` are zero, extended with 84, stand for a value of
the same first `k` bytes, `k` from 3 down: it is less than `85 ^ (4 - k)` above, and `85 ^ (4 - k)` is below
`2 ^ (8 * (4 - k))` (R143, R150). -/
theorem value85_div_eq {v : Nat} (hv : v < 2 ^ 32) :
    (v % 2 ^ 8 = 0 → value85 (v / 85 ^ 4 % 85) (v / 85 ^ 3 % 85) (v / 85 ^ 2 % 85) (v / 85 ^ 1 % 85) 84 / 2 ^ 8 =
      v / 2 ^ 8) ∧
    (v % 2 ^ 16 = 0 → value85 (v / 85 ^ 4 % 85) (v / 85 ^ 3 % 85) (v / 85 ^ 2 % 85) 84 84 / 2 ^ 16 = v / 2 ^ 16) ∧
    (v % 2 ^ 24 = 0 → value85 (v / 85 ^ 4 % 85) (v / 85 ^ 3 % 85) 84 84 84 / 2 ^ 24 = v / 2 ^ 24) := by
  have hplace (j : Nat) : v / 85 ^ j = v / 85 ^ (j + 1) * 85 + v / 85 ^ j % 85 := by
    rw [Nat.pow_succ, ← Nat.div_div_eq_div_mul, Nat.div_add_mod']
  have h4 : v / 85 ^ 4 % 85 = v / 85 ^ 4 := Nat.mod_eq_of_lt (by omega)
  have h3 := hplace 3
  have h2 := hplace 2
  have h1 := hplace 1
  unfold value85
  refine ⟨fun h => ?_, fun h => ?_, fun h => ?_⟩ <;> omega

/-- The reference inverse takes the digits of a byte string back to it (R150). -/
theorem dec85Ref_text85 (bs : List Byte) : dec85Ref (text85 bs) = some bs := by
  induction bs using text85.induct with
  | case1 b0 b1 b2 b3 rest ih =>
    have hv := groupValue_lt b0 b1 b2 b3
    refine dec85Ref_cons (groupBytes_of_groupValue (k := 4) (b0 := b0) (b1 := b1) (b2 := b2) (b3 := b3) le_rfl ?_) ih
    unfold value85
    omega
  | case2 b0 b1 b2 =>
    obtain ⟨hthree, -, -⟩ := value85_div_eq (groupValue_lt b0 b1 b2 0#8)
    have hzero : groupValue b0.toNat b1.toNat b2.toNat 0 % 2 ^ 8 = 0 := by unfold groupValue; omega
    exact groupBytes_of_groupValue (k := 3) (b3 := 0#8) (by decide) (hthree hzero)
  | case3 b0 b1 =>
    obtain ⟨-, htwo, -⟩ := value85_div_eq (groupValue_lt b0 b1 0#8 0#8)
    have hzero : groupValue b0.toNat b1.toNat 0 0 % 2 ^ 16 = 0 := by unfold groupValue; omega
    exact groupBytes_of_groupValue (k := 2) (b2 := 0#8) (b3 := 0#8) (by decide) (htwo hzero)
  | case4 b0 =>
    obtain ⟨-, -, hone⟩ := value85_div_eq (groupValue_lt b0 0#8 0#8 0#8)
    have hzero : groupValue b0.toNat 0 0 0 % 2 ^ 24 = 0 := by unfold groupValue; omega
    exact groupBytes_of_groupValue (k := 1) (b1 := 0#8) (b2 := 0#8) (b3 := 0#8) (by decide) (hone hzero)
  | case5 => rfl

theorem text85_lt {bs : List Byte} : ∀ d ∈ text85 bs, d < 85 := by
  induction bs using text85.induct with
  | case1 b0 b1 b2 b3 rest ih => exact List.forall_mem_append.2 ⟨fun _ => digits85_lt, ih⟩
  | case2 | case3 | case4 => exact fun _ hd => digits85_lt (List.mem_of_mem_take hd)
  | case5 => nofun

theorem text85_length (bs : List Byte) :
    (text85 bs).length = 5 * (bs.length / 4) + if bs.length % 4 = 0 then 0 else bs.length % 4 + 1 := by
  induction bs using text85.induct with
  | case1 b0 b1 b2 b3 rest ih =>
    have hfive (v : Nat) : (digits85 v).length = 5 := rfl
    simp only [text85, List.length_append, hfive, ih, List.length_cons, Nat.add_assoc, Nat.reduceAdd, Nat.add_mod_right,
      Nat.add_div_right _ (by decide : 0 < 4)]
    omega
  | case2 | case3 | case4 | case5 => simp [text85, digits85]

end Sys2Proof.Machine
end

section
/-! Whole streams of radix 32 and 64 (42_symbol_generator.md R139): the run of the ENC.BYTE commands by induction over
the bytes, between ENC.START and ENC.END. -/

namespace Sys2Proof.Machine

theorem execAll_append {is : List Instr} {s t : State} (h : execAll is s = .next t) (js : List Instr) :
    execAll (is ++ js) s = execAll js t := by
  induction is generalizing s with
  | nil => cases h; rfl
  | cons i is ih =>
    unfold execAll at h
    split at h
    · next u hu => rw [List.cons_append, execAll_cons hu, ih h]
    · cases h
    · cases h

theorem responses_allOk_succ (rs : List Response) (n : Nat) : rs ++ [.ok] ++ allOk n = rs ++ allOk (n + 1) := by
  rw [List.append_assoc]
  rfl

/-- The responses of a whole stream: its first command, its bytes, its last command. -/
theorem responses_stream (rs : List Response) (n : Nat) : rs ++ [.ok] ++ allOk n ++ [.ok] = rs ++ allOk (n + 2) := by
  rw [responses_allOk_succ, List.append_assoc]
  exact congrArg _ List.replicate_succ'.symm

/-- The stream that ENC.START opens: nothing held, nothing counted, the alphabets and `out` as they were. -/
theorem exec_encStart_open {s : State} (h : BlockInv s.toBlock) (hs : ReadyIn .idle s) {b : Bank} (hb : b ≠ .six)
    (hv : s.bankValid b = true) : ∃ t, exec (.encStart b) s = .next t ∧ EncOpen b t ∧ t.acc = ⟨0, 0⟩ ∧
      t.blkCount = 0#3 ∧ t.lut = s.lut ∧ t.out = s.out ∧ t.responses = responded s .ok :=
  have hexec := exec_encStart hs hb hv
  ⟨_, hexec, ⟨exec_keeps h hexec, hs.1, rfl, rfl⟩, rfl, rfl, rfl, rfl, rfl⟩

/-- A whole stream is its first command, its bytes and its last command. -/
theorem execAll_encStream {s t u : State} {b : Bank} {bs : List Byte} (hstart : exec (.encStart b) s = .next t)
    (hrest : execAll (pseudoEncBytes bs ++ [.encEnd]) t = .next u) : execAll (encStream b bs) s = .next u := by
  rw [encStream, List.cons_append, execAll_cons hstart, hrest]

theorem Block.setAcc_acc (s : Block) : s.setAcc s.acc = s := by
  simp [Block.setAcc]

/-! ### Radix 32 and 64 -/

/-- The bytes of a stream as the pushes of R113. -/
def bytePushes (bs : List Byte) : List (Nat × Nat) := bs.map fun b => (b.toNat, 8)

theorem pushedBits_bytePushes (bs : List Byte) : pushedBits (bytePushes bs) = byteBits bs := by
  simp [pushedBits, bytePushes, byteBits, List.flatMap_map]

theorem byteBits_length (bs : List Byte) : (byteBits bs).length = 8 * bs.length := by
  simp [byteBits, List.length_flatMap, Nat.mul_comm]

theorem Block.afterChunks_nil {s : Block} {blk : Nat} (hblk : s.blkCount.toNat < blk) :
    s.afterChunks blk ([], s.acc) = s := by
  simp [Block.afterChunks, Block.setAcc_acc, Nat.mod_eq_of_lt hblk, emitChars, emit, Block.setBlk]

/-- Two drains one after the other: the chunks of both. -/
theorem Block.afterChunks_afterChunks (s : Block) {blk : Nat} (hblk : blk ≤ 8) (hpos : 0 < blk) (is js : List Nat)
    (a a' : Acc) : (s.afterChunks blk (is, a)).afterChunks blk (js, a') = s.afterChunks blk (is ++ js, a') := by
  have hfit : (BitVec.ofNat 3 ((s.blkCount.toNat + is.length) % blk)).toNat = (s.blkCount.toNat + is.length) % blk :=
    Nat.mod_eq_of_lt ((Nat.mod_lt _ hpos).trans_le hblk)
  simp only [Block.afterChunks, emitChars_blkCount, Block.setBlk_blkCount, hfit, Nat.mod_add_mod, Nat.add_assoc,
    List.map_append, List.length_append]
  simp only [emitChars, emit, Block.setBlk, Block.setAcc, List.map_append, ← List.append_assoc]
  rfl

theorem Block.afterChunks_acc (s : Block) (blk : Nat) (is : List Nat) {a : Acc} (ha : a.Bounded) :
    (s.afterChunks blk (is, a)).acc = a := by
  rw [Block.afterChunks, emitChars_acc, Block.setBlk_acc, ha.acc_setAcc]

theorem pushAllDraining_byte {a : Acc} (h : a.Bounded) (hroom : a.cnt + 8 ≤ Config.W - 1) (w : Nat) (b : Byte)
    (bs : List Byte) : pushAllDraining w (bytePushes (b :: bs)) a =
      ((accDrain (a.withByte b) w).1 ++ (pushAllDraining w (bytePushes bs) (accDrain (a.withByte b) w).2).1,
        (pushAllDraining w (bytePushes bs) (accDrain (a.withByte b) w).2).2) := by
  rw [← accPush_byte h hroom]
  rfl

/-- The bytes of a stream push and drain as R113 says, whatever was held before. -/
theorem execAll_encBytes_block {r : Bank} {w blk : Nat} (hw : Config.blockParams r = some (w, blk)) {bs : List Byte}
    {s : State} (h : EncOpen r s) : ∃ t, execAll (pseudoEncBytes bs) s = .next t ∧ EncOpen r t ∧
      t.acc = (pushAllDraining w (bytePushes bs) s.acc).2 ∧
      t = { s with
        toBlock := s.afterChunks blk (pushAllDraining w (bytePushes bs) s.acc)
        responses := s.responses ++ allOk bs.length } := by
  obtain ⟨-, hblk⟩ := h.block_bounds hw
  induction bs generalizing s with
  | nil =>
    refine ⟨s, rfl, h, rfl, ?_⟩
    rw [show pushAllDraining w (bytePushes []) s.acc = ([], s.acc) from rfl, Block.afterChunks_nil hblk]
    simp [allOk]
  | cons b bs ih =>
    have hexec := exec_encByte_block h hw b
    have hnext := h.of_exec hexec rfl rfl rfl
    have hdrained := (h.inv.acc_bounded.withByte h.room b).drain w
    have hpush := pushAllDraining_byte h.inv.acc_bounded h.room w b bs
    obtain ⟨t, ht, hopen, hacc, hstate⟩ := ih hnext (hnext.block_bounds hw).2
    simp only [Block.afterChunks_acc s.toBlock blk _ hdrained] at hacc hstate
    refine ⟨t, (execAll_cons hexec _).trans ht, hopen, by rw [hacc, hpush], ?_⟩
    rw [hstate, hpush, ← Block.afterChunks_afterChunks s.toBlock (blockParams_le hw).2 (Nat.zero_lt_of_lt hblk),
      List.length_cons, ← responses_allOk_succ]

/-! ### The text of R139 -/

/-- The last chunk of a text: the trailing bits of the bytes, filled with zero bits, if there are any. -/
def lastChunk (w : Nat) (bits : List Bool) : List Nat :=
  if bits.length = 0 then [] else [valueOf (bits ++ List.replicate (w - bits.length) false)]

theorem flushIndices_eq_lastChunk {a : Acc} (h : a.Bounded) {w : Nat} (hw : a.cnt ≤ w) :
    flushIndices a w = lastChunk w a.held := by
  rw [flushIndices, lastChunk, Acc.held_length, ← accFlush_index hw, (accFlush_eq h.2 hw).1]

theorem pieces_one (w : Nat) (bits : List Bool) : pieces w 1 bits = [valueOf (bits.take w)] := by
  simp [pieces]

/-- A string filled with zero bits to whole pieces: its own whole pieces and the last chunk (R139). -/
theorem pieces_filled {w : Nat} (hw : 1 ≤ w) (bits : List Bool) :
    pieces w ((bits.length + w - 1) / w)
        (bits ++ List.replicate ((bits.length + w - 1) / w * w - bits.length) false) =
      wholePieces w bits ++ lastChunk w (trailingBits w bits) := by
  have hle : bits.length / w * w ≤ bits.length := Nat.div_mul_le_self _ _
  have hsplit := Nat.div_add_mod' bits.length w
  have hmod := Nat.mod_lt bits.length hw
  have htrail : (trailingBits w bits).length = bits.length % w := by
    rw [trailingBits, List.length_drop, ← Nat.mod_eq_sub_div_mul]
  rw [lastChunk, htrail]
  split_ifs with hwhole
  · have hcount : (bits.length + w - 1) / w = bits.length / w :=
      Nat.div_eq_of_lt_le (by omega) (by rw [Nat.succ_mul]; omega)
    have hfill : bits.length / w * w - bits.length = 0 := by omega
    rw [hcount, hfill, List.replicate_zero, List.append_nil, List.append_nil, wholePieces]
  · have hcount : (bits.length + w - 1) / w = bits.length / w + 1 :=
      Nat.div_eq_of_lt_le (by rw [Nat.succ_mul]; omega) (by rw [Nat.succ_mul, Nat.succ_mul]; omega)
    have hfill : (bits.length / w + 1) * w - bits.length = w - bits.length % w := by rw [Nat.succ_mul]; omega
    have hlast : (trailingBits w bits ++ List.replicate (w - bits.length % w) false).length ≤ w := by
      rw [List.length_append, List.length_replicate, htrail]
      omega
    rw [hcount, hfill, pieces_add, pieces_append_right hle, List.drop_append_of_le_length hle, pieces_one,
      ← trailingBits, List.take_of_length_le hlast, ← wholePieces]

/-- The chunks of R139 are the whole pieces of the bits and the last chunk. -/
theorem blockIndices_eq {w : Nat} (hw : 1 ≤ w) (bs : List Byte) :
    blockIndices w bs = wholePieces w (byteBits bs) ++ lastChunk w (trailingBits w (byteBits bs)) := by
  rw [← pieces_filled hw, byteBits_length]
  rfl

theorem blockIndices_length (w : Nat) (bs : List Byte) : (blockIndices w bs).length = symbolCount w bs.length := by
  simp [blockIndices, pieces]

theorem lutAt_congr {s t : Block} (h : t.lut = s.lut) (b : Bank) : lutAt t b = lutAt s b := by
  funext i
  rw [lutAt, lutAt, h]

theorem bytePushes_room {w : Nat} (hw : w ≤ 6) (bs : List Byte) :
    ∀ p ∈ bytePushes bs, 1 ≤ p.2 ∧ p.1 < 2 ^ p.2 ∧ w - 1 + p.2 ≤ Config.W - 1 := by
  refine List.forall_mem_map.2 fun b _ => ⟨Nat.le_of_ble_eq_true rfl, b.isLt, ?_⟩
  simp only [Config.W]
  omega

/-- The bytes of a fresh stream: the whole pieces of their bits leave and are counted, and a flush of what is held would
give the last chunk. -/
theorem execAll_encBytes_fresh {r : Bank} {w blk : Nat} (hw : Config.blockParams r = some (w, blk)) (bs : List Byte)
    {s : State} (h : EncOpen r s) (hempty : s.acc = ⟨0, 0⟩) (hblk : s.blkCount = 0#3) :
    ∃ t, execAll (pseudoEncBytes bs) s = .next t ∧ EncOpen r t ∧ t.lut = s.lut ∧
      t.responses = s.responses ++ allOk bs.length ∧
      flushIndices t.acc w = lastChunk w (trailingBits w (byteBits bs)) ∧
      t.blkCount.toNat = (wholePieces w (byteBits bs)).length % blk ∧
      t.out = s.out ++ ((wholePieces w (byteBits bs)).map (lutAt s.toBlock r)).map Item.char := by
  obtain ⟨hcnt, hpos⟩ := h.block_bounds hw
  obtain ⟨hw6, hblk8⟩ := blockParams_le hw
  obtain ⟨hpieces, hheld⟩ :=
    pushAllDraining_pieces (Nat.one_le_of_lt hcnt) (bytePushes_room hw6 bs) hcnt h.inv.acc_bounded.2
  rw [pushedBits_bytePushes, show s.acc.held = [] by rw [hempty]; rfl, List.nil_append] at hpieces hheld
  obtain ⟨t, hrun, hopen, hacc, ht⟩ := execAll_encBytes_block hw (bs := bs) h
  refine ⟨t, hrun, hopen, by rw [ht]; rfl, by rw [ht], ?_, ?_, ?_⟩
  · rw [flushIndices_eq_lastChunk hopen.inv.acc_bounded (hopen.block_bounds hw).1.le, hacc, hheld]
  · have hfit := (Nat.mod_lt (wholePieces w (byteBits bs)).length (Nat.zero_lt_of_lt hpos)).trans_le hblk8
    simpa [ht, Block.afterChunks, hblk, hpieces] using Nat.mod_eq_of_lt hfit
  · simp [ht, Block.afterChunks, h.radix, hpieces]

/-- Settles O28: the drains give the whole pieces of the bits, the flush the last chunk, and the pads count both. -/
theorem encStreamEmitsTheText : Obligations.EncStreamEmitsTheText := by
  intro s b w blk bs hinv hs hw hv
  have hb : b ≠ .six := by rintro rfl; cases hw
  obtain ⟨t, hstart, hopen, hempty, hblk, hlut, hout, hresp⟩ := exec_encStart_open hinv hs hb hv
  obtain ⟨u, hbytes, hopen', hlut', hresp', htail, hcount, hout'⟩ := execAll_encBytes_fresh hw bs hopen hempty hblk
  have hw1 : 1 ≤ w := Nat.one_le_of_lt (hopen.block_bounds hw).1
  have hend := exec_encEnd_block hopen' hw
  rw [htail, hcount, lutAt_congr (hlut'.trans hlut), Nat.mod_add_mod, ← List.length_append, ← blockIndices_eq hw1,
    blockIndices_length] at hend
  refine ⟨_, execAll_encStream hstart ((execAll_append hbytes _).trans (execAll_cons hend [])), hopen'.err, rfl, ?_, ?_⟩
  · simp [hout', hout, lutAt_congr hlut, Block.ended, blockText, blockIndices_eq hw1]
  · rw [responded, hresp', hresp, responses_stream]

end Sys2Proof.Machine
end

section
/-! Whole streams of radix 85 (42_symbol_generator.md R142 to R144, R150), by induction over the groups of four bytes, and
the lengths of the texts of every radix (R140). -/

namespace Sys2Proof.Machine

/-- The accumulator with bytes after the bits it holds, in order. -/
def Acc.withBytes (a : Acc) (bs : List Byte) : Acc := bs.foldl Acc.withByte a

theorem Acc.withBytes_cons (a : Acc) (b : Byte) (bs : List Byte) :
    a.withBytes (b :: bs) = (a.withByte b).withBytes bs := rfl

/-- Bytes that do not fill a group are held and nothing leaves (R137). -/
theorem execAll_encBytes85_open {bs : List Byte} {s : State} (h : EncOpen .r85 s)
    (hopen : s.acc.cnt + 8 * bs.length < 32) : ∃ t, execAll (pseudoEncBytes bs) s = .next t ∧ EncOpen .r85 t ∧
      t.acc = s.acc.withBytes bs ∧
      t = { s with
        toBlock := s.setAcc (s.acc.withBytes bs)
        responses := s.responses ++ allOk bs.length } := by
  induction bs generalizing s with
  | nil =>
    refine ⟨s, rfl, h, rfl, ?_⟩
    rw [Acc.withBytes, List.foldl_nil, Block.setAcc_acc]
    simp [allOk]
  | cons b bs ih =>
    rw [List.length_cons] at hopen
    have hexec := exec_encByte85_open h (show s.acc.cnt + 8 < 32 by omega) b
    have hacc : (s.setAcc (s.acc.withByte b)).acc = s.acc.withByte b :=
      (h.inv.acc_bounded.withByte h.room b).acc_setAcc s.toBlock
    obtain ⟨t, ht, hnext, htacc, hstate⟩ := ih (h.of_exec hexec rfl rfl rfl) (by
      rw [hacc]
      simp only [Acc.withByte]
      omega)
    rw [hacc] at htacc hstate
    refine ⟨t, (execAll_cons hexec _).trans ht, hnext, htacc, ?_⟩
    rw [hstate, Acc.withBytes_cons, List.length_cons, ← responses_allOk_succ]
    rfl

/-- The fourth byte of a group: the five digits of its value leave and nothing is held (R142). -/
theorem execAll_encBytes85_group {s : State} (h : EncOpen .r85 s) (hempty : s.acc = ⟨0, 0⟩) (b0 b1 b2 b3 : Byte) :
    ∃ t, execAll (pseudoEncBytes [b0, b1, b2, b3]) s = .next t ∧ EncOpen .r85 t ∧ t.acc = ⟨0, 0⟩ ∧
      t = { s with
        toBlock := emitChars ((digits85 (groupValue b0.toNat b1.toNat b2.toNat b3.toNat)).map (lutAt s.toBlock .r85))
          s.toBlock
        responses := s.responses ++ allOk 4 } := by
  obtain ⟨t, hthree, hopen, hacc, hstate⟩ := execAll_encBytes85_open h (bs := [b0, b1, b2])
    (by rw [hempty]; exact Nat.lt_of_sub_eq_succ rfl)
  rw [hempty] at hacc
  have hexec := exec_encByte85_full hopen (show t.acc.cnt + 8 = 32 by rw [hacc]; rfl) b3
  have hvalue : (t.acc.withByte b3).buf = groupValue b0.toNat b1.toNat b2.toNat b3.toNat := by
    simp only [hacc, Acc.withBytes, Acc.withByte, List.foldl_cons, List.foldl_nil, groupValue]
    omega
  have hclear : t.setAcc ⟨0, 0⟩ = s.toBlock := by
    rw [hstate, ← hempty]
    exact Block.setAcc_acc s.toBlock
  have hlut : t.lut = s.lut := by rw [hstate]; rfl
  rw [hvalue, hclear, lutAt_congr hlut] at hexec
  refine ⟨_, (execAll_append hthree [.encByte b3]).trans (execAll_cons hexec []), hopen.of_exec hexec ?_ ?_ ?_, ?_, ?_⟩
  · exact h.err.trans hopen.err.symm
  · exact h.phase.trans hopen.phase.symm
  · exact h.radix.trans hopen.radix.symm
  · exact hempty
  · rw [hstate, responded, List.append_assoc]
    rfl

/-- The digits of a last group that is not full (R143). -/
theorem text85_of_length_lt {bs : List Byte} (h : bs.length < 4) :
    text85 bs = (flushIndices ((⟨0, 0⟩ : Acc).withBytes bs) 32).flatMap fun v =>
      (digits85 v).take (((⟨0, 0⟩ : Acc).withBytes bs).cnt / 8 + 1) := by
  match bs, h with
  | [], _ => rfl
  | [b0], _ => simp [text85, groupValue, flushIndices, Acc.withBytes, Acc.withByte]
  | [b0, b1], _ =>
    have hvalue : groupValue b0.toNat b1.toNat 0 0 = (b0.toNat * 256 + b1.toNat) * 2 ^ 16 := by
      unfold groupValue
      omega
    simp [text85, hvalue, flushIndices, Acc.withBytes, Acc.withByte]
  | [b0, b1, b2], _ =>
    have hvalue : groupValue b0.toNat b1.toNat b2.toNat 0 =
        ((b0.toNat * 256 + b1.toNat) * 256 + b2.toNat) * 2 ^ 8 := by
      unfold groupValue
      omega
    simp [text85, hvalue, flushIndices, Acc.withBytes, Acc.withByte]

/-- The bytes `bs` and the last command run from `s` to `t`: the stream closes, the digits of the bytes leave, and every
command responds `OK`. -/
structure Finishes85 (bs : List Byte) (s t : State) : Prop where
  run : execAll (pseudoEncBytes bs ++ [.encEnd]) s = .next t
  err : t.err = none
  phase : t.phase = .idle
  out : t.out = s.out ++ (text85 bs).map fun d => .char (lutAt s.toBlock .r85 d)
  responses : t.responses = s.responses ++ allOk bs.length ++ [.ok]

/-- A last group that is not full (R143). -/
theorem finishes85_of_length_lt {bs : List Byte} (hlen : bs.length < 4) {s : State} (h : EncOpen .r85 s)
    (hempty : s.acc = ⟨0, 0⟩) : ∃ t, Finishes85 bs s t := by
  obtain ⟨t, hbytes, hopen, hacc, hstate⟩ := execAll_encBytes85_open h (bs := bs)
    (by rw [hempty]; simp only [Nat.zero_add]; omega)
  have hend := exec_encEnd85 hopen
  have hlut : t.lut = s.lut := by rw [hstate]; rfl
  rw [hacc, hempty, ← text85_of_length_lt hlen, lutAt_congr hlut] at hend
  refine ⟨_, (execAll_append hbytes _).trans (execAll_cons hend []), hopen.err, rfl, ?_, by rw [hstate]⟩
  rw [hstate]
  simp [Block.ended]

/-- The rest of a stream from an empty accumulator, group by group (R142, R143). -/
theorem finishes85 (bs : List Byte) {s : State} (h : EncOpen .r85 s) (hempty : s.acc = ⟨0, 0⟩) :
    ∃ t, Finishes85 bs s t := by
  induction bs using text85.induct generalizing s with
  | case1 b0 b1 b2 b3 rest ih =>
    obtain ⟨t, hgroup, hopen, hacc, hstate⟩ := execAll_encBytes85_group h hempty b0 b1 b2 b3
    obtain ⟨u, hrun, herr, hphase, hout, hresp⟩ := ih hopen hacc
    have hlut : t.lut = s.lut := by rw [hstate]; rfl
    refine ⟨u, (execAll_append hgroup _).trans hrun, herr, hphase, ?_, ?_⟩
    · rw [hout, lutAt_congr hlut, hstate]
      simp [text85]
    · rw [hresp, hstate]
      simp [allOk, List.replicate_succ]
  | case2 | case3 | case4 | case5 => exact finishes85_of_length_lt (by simp) h hempty

/-- Settles O29: the stream opens with nothing held, and its text leaves group by group. -/
theorem encStream85EmitsTheText : Obligations.EncStream85EmitsTheText := by
  intro s bs hinv hs hv
  obtain ⟨t, hstart, hopen, hempty, -, hlut, hout, hresp⟩ := exec_encStart_open hinv hs (b := .r85) nofun hv
  obtain ⟨u, hrun, herr, hphase, hout', hresp'⟩ := finishes85 bs hopen hempty
  refine ⟨u, execAll_encStream hstart hrun, herr, hphase, ?_, ?_⟩
  · rw [hout', hout, lutAt_congr hlut]
  · rw [hresp', hresp, responses_stream]

/-- Settles O31: the reference inverse takes the digits of the text back to the bytes. -/
theorem radix85RoundTrip : Obligations.Radix85RoundTrip := by
  intro s bs hinv hs hv
  obtain ⟨t, hrun, -, -, hout, -⟩ := encStream85EmitsTheText s bs hinv hs hv
  exact ⟨t, text85 bs, hrun, hout, text85_lt, dec85Ref_text85 bs⟩

theorem blockText_length (w blk : Nat) (sym : Nat → Ch) (bs : List Byte) : (blockText w blk sym bs).length =
    symbolCount w bs.length + (blk - symbolCount w bs.length % blk) % blk := by
  simp [blockText, blockIndices_length]

/-- Settles O30: the text of the stream has the length, by the number of its chunks or of its groups. -/
theorem encStreamHasTheStatedLength : Obligations.EncStreamHasTheStatedLength := by
  intro s b bs hinv hs hb hv n
  cases b with
  | r32 =>
    obtain ⟨t, hrun, -, -, hout, -⟩ := encStreamEmitsTheText s .r32 5 8 bs hinv hs rfl hv
    refine ⟨t, hrun, nofun, fun _ => ?_, nofun⟩
    rw [hout, List.length_append, List.length_map, blockText_length, symbolCount]
    omega
  | r64 =>
    obtain ⟨t, hrun, -, -, hout, -⟩ := encStreamEmitsTheText s .r64 6 4 bs hinv hs rfl hv
    refine ⟨t, hrun, fun _ => ?_, nofun, nofun⟩
    rw [hout, List.length_append, List.length_map, blockText_length, symbolCount]
    omega
  | r85 =>
    obtain ⟨t, hrun, -, -, hout, -⟩ := encStream85EmitsTheText s bs hinv hs hv
    refine ⟨t, hrun, nofun, nofun, fun _ => ?_⟩
    rw [hout, List.length_append, List.length_map, text85_length]
  | six => exact absurd rfl hb

end Sys2Proof.Machine
end

section
/-! The symbol absorber's commands (43_symbol_absorber.md R159 to R161): what each answers, DEC.SYM in a stream that is
open and meets the invariant. -/

namespace Sys2Proof.Machine

/-! ### Opening a stream (R159) -/

theorem blockParams_isNone_iff (r : Bank) : (Config.blockParams r).isNone = true ↔ ¬(r = .r32 ∨ r = .r64) := by
  cases r <;> simp [Config.blockParams]

/-- DEC.START of a valid bank of radix 32 or 64 opens a fresh stream. -/
theorem exec_decStart {s : State} (hs : ReadyIn .idle s) {r : Bank} (hr : r = .r32 ∨ r = .r64) (strict : Bool)
    (hv : s.bankValid r = true) : exec (.decStart r strict) s = .next
      { s with
        buffer := 0#64, bitCount := 0#7, blkCount := 0#3, radix := r, strict := strict, phase := .dec
        responses := responded s .ok } := by
  obtain ⟨he, hp⟩ := hs
  have hlegal : ¬(Config.blockParams r).isNone = true := fun h => (blockParams_isNone_iff r).1 h hr
  exact exec_done rfl he hp (by rw [effectOf, if_neg hlegal, hv]; rfl)

/-- Settles O32: the body of DEC.START refuses the radices without a block, then an alphabet of the wrong size, else it
opens the stream. -/
theorem decStartOpensTheStream : Obligations.DecStartOpensTheStream := by
  refine ⟨fun radix strict => ?_,
    fun s radix strict he => ⟨exec_outOfPhase rfl he, fun hp hbad => ?_, fun hp hr hlen => ?_, fun hp hr hlen => ?_⟩⟩
  · rw [encode, toNat_append_eq, toNat_append_eq, Nat.add_mul, show (bitOf strict).toNat = strict.toNat by
      cases strict <;> rfl]
    rfl
  · exact exec_raise rfl he hp (if_pos ((blockParams_isNone_iff radix).2 hbad))
  · have hlegal : ¬(Config.blockParams radix).isNone = true := fun h => (blockParams_isNone_iff radix).1 h hr
    exact exec_raise rfl he hp (by rw [effectOf, if_neg hlegal, bankValid_eq_false hlen]; rfl)
  · exact exec_decStart ⟨he, hp⟩ hr strict ((Block.bankValid_eq_true _ _).2 hlen)

/-! ### Streams that are open and meet the invariant -/

/-- An unfaulted DEC stream of radix `r` and strictness `strict` is open and the block meets its invariant. -/
structure DecOpen (r : Bank) (strict : Bool) (s : State) : Prop where
  inv : BlockInv s.toBlock
  err : s.err = none
  phase : s.phase = .dec
  radix : s.radix = r
  strict : s.strict = strict

section Streams

variable {r : Bank} {strict : Bool} {s : State}

/-- A command that leaves ERR, PHASE, RADIX and STRICT alone keeps the stream open. -/
theorem DecOpen.of_exec {i : Instr} {u : Block} {rs : List Response} (h : DecOpen r strict s)
    (hexec : exec i s = .next { s with toBlock := u, responses := rs }) (herr : u.err = s.err)
    (hphase : u.phase = s.phase) (hradix : u.radix = s.radix) (hstrict : u.strict = s.strict) :
    DecOpen r strict { s with toBlock := u, responses := rs } :=
  ⟨exec_keeps h.inv hexec, herr.trans h.err, hphase.trans h.phase, hradix.trans h.radix, hstrict.trans h.strict⟩

theorem DecOpen.bankValid (h : DecOpen r strict s) : s.bankValid r = true := h.radix ▸ (h.inv.decInv h.phase).1

/-- Less than a byte is held and less than a block is counted (R155). -/
theorem DecOpen.bounds (h : DecOpen r strict s) {w blk : Nat} (hw : Config.blockParams r = some (w, blk)) :
    s.bitCount.toNat < 8 ∧ s.blkCount.toNat < blk := by
  obtain ⟨-, hcnt, hblk, -⟩ := (decInv_iff (h.radix ▸ hw)).1 (h.inv.decInv h.phase)
  exact ⟨hcnt, hblk⟩

/-- There is room for a symbol in every open stream (R106). -/
theorem DecOpen.room (h : DecOpen r strict s) {w blk : Nat} (hw : Config.blockParams r = some (w, blk)) :
    s.acc.cnt + w ≤ Config.W - 1 := by
  obtain ⟨hcnt, -⟩ := h.bounds hw
  obtain ⟨hw6, -⟩ := blockParams_le hw
  simp only [Block.acc_cnt, Config.W]
  omega

/-! ### A character of the text (R160) -/

/-- `rev(b, c)` of R55 as a search of the indices of a valid bank. -/
def symbolIndex (s : Block) (b : Bank) (c : Ch) : Option Nat :=
  (List.range (Config.bankLen b)).find? fun i => lutAt s b i == c

theorem symbolIndex_eq_some_iff {s : Block} {b : Bank} {c : Ch} {i : Nat} : symbolIndex s b c = some i ↔
    lutAt s b i = c ∧ i < Config.bankLen b ∧ ∀ j < i, lutAt s b j ≠ c := by
  simp [symbolIndex, List.find?_range_eq_some]

theorem symbolIndex_eq_none_iff {s : Block} {b : Bank} {c : Ch} :
    symbolIndex s b c = none ↔ ∀ i < Config.bankLen b, lutAt s b i ≠ c := by
  simp [symbolIndex]

theorem DecOpen.rev_eq (h : DecOpen r strict s) (c : Ch) : rev s.lut s.radix c = .ok (symbolIndex s.toBlock r c) := by
  rw [h.radix]
  exact rev_eq_find h.inv.lutInv h.bankValid c

/-- The body of DEC.SYM for a scalar value in radix 32 and 64. -/
theorem effectOf_decSym {b : Block} {w blk : Nat} (hw : Config.blockParams b.radix = some (w, blk)) {c : Ch}
    (hc : scalarValue c = true) : effectOf (.decSym c) b = absorbChar w blk c b := by
  simp [effectOf, decSymBody, hw, isScalar_eq_scalarValue, hc]

/-- A piece of the bits of a stream as the item it leaves as. -/
def byteItem (v : Nat) : Item := .byte (BitVec.ofNat 8 v)

/-- The block after a symbol whose push and drain yielded `x.1` and left `x.2`: the bytes leave and the symbol is
counted. -/
def Block.afterSymbol (b : Block) (blk : Nat) (x : List Nat × Acc) : Block :=
  emit (x.1.map byteItem) ((b.setAcc x.2).setBlk ((b.blkCount.toNat + 1) % blk))

theorem accDrain_of_lt {a : Acc} {w : Nat} (h : a.cnt < w) : accDrain a w = ([], a) := by
  rw [accDrain]
  cases a.cnt <;> simp [accDrainLoop, h]

/-- A drain of less than two chunks is one take. -/
theorem accDrain_of_lt_two {a : Acc} {w : Nat} (hw : 1 ≤ w) (h : w ≤ a.cnt) (h2 : a.cnt < 2 * w) :
    accDrain a w = ([(accTake a w).1], (accTake a w).2) := by
  have hrest (fuel : Nat) : accDrainLoop fuel (accTake a w).2 w = ([], (accTake a w).2) := by
    have hcnt : ¬w ≤ (accTake a w).2.cnt := by simp only [accTake]; omega
    cases fuel <;> simp [accDrainLoop, hcnt]
  obtain ⟨fuel, hfuel⟩ := Nat.exists_eq_add_of_le' (hw.trans h)
  rw [accDrain, hfuel, accDrainLoop, if_pos h]
  simp only [hrest]

/-- The single test of R160 is the drain by 8 of R104, since a symbol makes less than two bytes. -/
theorem absorbSymbol_eq {b : Block} {w blk i : Nat} (hw : w ≤ 6) (hroom : b.acc.cnt + w ≤ Config.W - 1)
    (hcnt : b.bitCount.toNat < 8) (hblk : b.blkCount.toNat < blk) :
    absorbSymbol w blk i b = .done (b.afterSymbol blk (accDrain (accPush b.acc i w) 8)) := by
  have hpushed : (accPush b.acc i w).cnt = b.bitCount.toNat + w := rfl
  rw [absorbSymbol, streamPush, if_pos hroom, whenOk_ok]
  simp only [blkAdvance_eq _ hblk, Block.afterSymbol]
  split_ifs with hbyte
  · rw [accDrain_of_lt_two (by decide) hbyte (by omega)]
    rfl
  · rw [accDrain_of_lt (not_le.1 hbyte)]
    simp [emit, Block.setAcc, Block.setBlk]

variable {w blk : Nat} {c : Ch}

theorem exec_decSym_symbol (h : DecOpen r strict s) (hw : Config.blockParams r = some (w, blk))
    (hc : scalarValue c = true) {i : Nat} (hi : symbolIndex s.toBlock r c = some i) : exec (.decSym c) s = .next
      { s with
        toBlock := s.afterSymbol blk (accDrain (accPush s.acc i w) 8)
        responses := responded s .ok } := by
  obtain ⟨hcnt, hblk⟩ := h.bounds hw
  refine exec_done rfl h.err h.phase ?_
  rw [effectOf_decSym (h.radix ▸ hw) hc, absorbChar, h.rev_eq, hi, whenOk_ok]
  exact absorbSymbol_eq (blockParams_le hw).1 (h.room hw) hcnt hblk

theorem exec_decSym_pad (h : DecOpen r strict s) (hw : Config.blockParams r = some (w, blk))
    (hc : scalarValue c = true) (hi : symbolIndex s.toBlock r c = none) (hpad : c = Config.pad) :
    exec (.decSym c) s = .next
      { s with toBlock := s.setBlk ((s.blkCount.toNat + 1) % blk), responses := responded s .ok } := by
  refine exec_done rfl h.err h.phase ?_
  rw [effectOf_decSym (h.radix ▸ hw) hc, absorbChar, h.rev_eq, hi, whenOk_ok]
  simp only [if_pos hpad, blkAdvance_eq _ (h.bounds hw).2]

theorem exec_decSym_skip (h : DecOpen r false s) (hw : Config.blockParams r = some (w, blk))
    (hc : scalarValue c = true) (hi : symbolIndex s.toBlock r c = none) (hpad : c ≠ Config.pad) :
    exec (.decSym c) s = .next { s with responses := responded s .ok } := by
  refine exec_done rfl h.err h.phase ?_
  rw [effectOf_decSym (h.radix ▸ hw) hc, absorbChar, h.rev_eq, hi, whenOk_ok]
  simp [if_neg hpad, h.strict]

theorem exec_decSym_invalid (h : DecOpen r true s) (hw : Config.blockParams r = some (w, blk))
    (hc : scalarValue c = true) (hi : symbolIndex s.toBlock r c = none) (hpad : c ≠ Config.pad) :
    exec (.decSym c) s = .next (faultState .invalidSymbol (.decSym c) s) := by
  refine exec_raise rfl h.err h.phase ?_
  rw [effectOf_decSym (h.radix ▸ hw) hc, absorbChar, h.rev_eq, hi, whenOk_ok]
  simp [if_neg hpad, h.strict]

end Streams

/-- A push of a symbol and the drain after it, read off by a division (R160). -/
theorem accDrain_push_symbol {a : Acc} {w i : Nat} (hbuf : a.buf < 2 ^ a.cnt) (hi : i < 2 ^ w)
    (hroom : a.cnt + w ≤ Config.W - 1) (hlt : a.cnt + w < 16) :
    let v := a.buf * 2 ^ w + i
    let n := a.cnt + w
    let m := if 8 ≤ n then n - 8 else n
    (accDrain (accPush a i w) 8).2 = ⟨v % 2 ^ m, m⟩ ∧
      (accDrain (accPush a i w) 8).1.map byteItem =
        if 8 ≤ n then [.byte (BitVec.ofNat 8 (v / 2 ^ (n - 8)))] else [] := by
  intro v n m
  obtain ⟨hpush, hfit⟩ := accPush_eq hbuf hi hroom
  rw [hpush]
  by_cases hbyte : 8 ≤ n
  · have hcut : BitVec.ofNat 8 (v / 2 ^ (n - 8) % 2 ^ 8) = BitVec.ofNat 8 (v / 2 ^ (n - 8)) :=
      BitVec.eq_of_toNat_eq (by simp)
    rw [accDrain_of_lt_two (by decide) hbyte hlt, if_pos hbyte, ← hcut, ← Nat.shiftRight_eq_div_pow]
    simp only [m, if_pos hbyte]
    exact ⟨rfl, rfl⟩
  · rw [accDrain_of_lt (not_le.1 hbyte), if_neg hbyte]
    simp only [m, if_neg hbyte]
    exact ⟨by rw [Nat.mod_eq_of_lt hfit], rfl⟩

/-- Settles O33: the search of the bank decides between a symbol, a pad character and any other one. -/
theorem decSymAbsorbsTheCharacter : Obligations.DecSymAbsorbsTheCharacter := by
  refine ⟨fun c => by rw [encode, toNat_append_eq]; rfl,
    fun s c he => ⟨exec_outOfPhase rfl he, fun hp hbad => ?_, fun hp hc hinv w blk hw => ?_⟩⟩
  · exact exec_raise rfl he hp (by rw [effectOf, isScalar_eq_scalarValue, hbad]; rfl)
  have hs : DecOpen s.radix s.strict s := ⟨hinv, he, hp, rfl, rfl⟩
  refine ⟨fun i hi hat hbefore => ?_, fun habsent hpad => ?_, fun habsent hpad hstrict => ?_,
    fun habsent hpad hstrict => ?_⟩
  · have hi2 : i < 2 ^ w := bankLen_eq_two_pow hw ▸ hi
    have hcnt : s.acc.cnt + w < 8 + 8 :=
      Nat.add_lt_add_of_lt_of_le (hs.bounds hw).1 ((blockParams_le hw).1.trans (Nat.le_add_left 6 2))
    obtain ⟨hacc, hitems⟩ := accDrain_push_symbol hinv.acc_bounded.2 hi2 (hs.room hw) hcnt
    rw [exec_decSym_symbol hs hw hc (symbolIndex_eq_some_iff.2 ⟨hat, hi, hbefore⟩), Block.afterSymbol, hacc, hitems]
    rfl
  · exact exec_decSym_pad hs hw hc (symbolIndex_eq_none_iff.2 habsent) hpad
  · exact exec_decSym_invalid (hstrict ▸ hs) hw hc (symbolIndex_eq_none_iff.2 habsent) hpad
  · exact exec_decSym_skip (hstrict ▸ hs) hw hc (symbolIndex_eq_none_iff.2 habsent) hpad

/-! ### The end (R161) -/

section LastCommand

variable {s : State} {w blk : Nat}

theorem exec_decEnd_malformed (he : s.err = none) (hp : s.phase = .dec)
    (hw : Config.blockParams s.radix = some (w, blk)) (hbad : w ≤ s.bitCount.toNat ∨ s.blkCount ≠ 0#3) :
    exec .decEnd s = .next (faultState .malformedLength .decEnd s) := by
  have hbad : s.bitCount.toNat ≥ w ∨ s.blkCount.toNat ≠ 0 := hbad.imp_right (mt fun h => BitVec.eq_of_toNat_eq h)
  exact exec_raise rfl he hp (by simp only [effectOf, decEndBody, hw, if_pos hbad])

theorem exec_decEnd_ok (he : s.err = none) (hp : s.phase = .dec) (hw : Config.blockParams s.radix = some (w, blk))
    (hcnt : s.bitCount.toNat < w) (hblk : s.blkCount = 0#3) : exec .decEnd s = .next
      { s with buffer := 0#64, bitCount := 0#7, phase := .idle, responses := responded s .ok } := by
  have hgood : ¬(s.bitCount.toNat ≥ w ∨ s.blkCount.toNat ≠ 0) := by simp [hcnt, hblk]
  exact exec_done rfl he hp (by simp only [effectOf, decEndBody, hw, if_neg hgood]; rfl)

end LastCommand

/-- Settles O34: the body of DEC.END makes the two tests of R163, then it drops what is held. -/
theorem decEndChecksTheLength : Obligations.DecEndChecksTheLength :=
  ⟨rfl, fun _ he => ⟨exec_outOfPhase rfl he, fun hp _ _ hw =>
    ⟨exec_decEnd_malformed he hp hw, exec_decEnd_ok he hp hw⟩⟩⟩

end Sys2Proof.Machine
end

section
/-! Whole DEC streams of radix 32 and 64 (43_symbol_absorber.md R162, R163): the run of the DEC.SYM commands by induction
over the text, between DEC.START and DEC.END, and the run of a stream that faults on the way. -/

namespace Sys2Proof.Machine

/-! ### What a text is to a DEC stream -/

/-- A character that a strict stream takes: it is in the bank, or it is the pad character (R160). -/
abbrev Known (s : Block) (b : Bank) (c : Ch) : Prop := (symbolIndex s b c).isSome = true ∨ c = Config.pad

/-- The indices of the data symbols of a text (R162). -/
def symbolIndices (s : Block) (b : Bank) (cs : List Ch) : List Nat := cs.filterMap (symbolIndex s b)

/-- The number of characters of a text that are counted in `blkCount` (R155). -/
def countedChars (s : Block) (b : Bank) (cs : List Ch) : Nat :=
  (cs.filter fun c => (symbolIndex s b c).isSome || c == Config.pad).length

/-- The bits of the data symbols of a text, the string `S` of R162. -/
def symbolBits (s : Block) (b : Bank) (w : Nat) (cs : List Ch) : List Bool := (symbolIndices s b cs).flatMap (bitsOf w)

/-- When a stream of the text ends `OK` (R163): a strict one has met no unknown character, no whole symbol is left over,
and the characters counted make whole blocks. -/
def EndsOk (s : Block) (b : Bank) (w blk : Nat) (strict : Bool) (cs : List Ch) : Prop :=
  (strict = true → ∀ c ∈ cs, Known s b c) ∧ w * (symbolIndices s b cs).length % 8 < w ∧ countedChars s b cs % blk = 0

theorem symbolIndex_congr {s t : Block} (h : t.lut = s.lut) (b : Bank) : symbolIndex t b = symbolIndex s b := by
  funext c
  rw [symbolIndex, symbolIndex, lutAt_congr h]

theorem symbolBits_cons (s : Block) (b : Bank) (w : Nat) (c : Ch) (cs : List Ch) :
    symbolBits s b w (c :: cs) = symbolBits s b w [c] ++ symbolBits s b w cs := by
  rw [symbolBits, ← List.singleton_append, symbolIndices, List.filterMap_append, List.flatMap_append]
  rfl

theorem countedChars_cons (s : Block) (b : Bank) (c : Ch) (cs : List Ch) :
    countedChars s b (c :: cs) = countedChars s b [c] + countedChars s b cs := by
  rw [countedChars, ← List.singleton_append, List.filter_append, List.length_append]
  rfl

theorem symbolBits_singleton (s : Block) (b : Bank) (w : Nat) (c : Ch) :
    symbolBits s b w [c] = (symbolIndex s b c).elim [] (bitsOf w) := by
  cases hi : symbolIndex s b c <;> simp [symbolBits, symbolIndices, hi]

theorem countedChars_singleton (s : Block) (b : Bank) (c : Ch) :
    countedChars s b [c] = if Known s b c then 1 else 0 := by
  split <;> simp_all [countedChars, Known]

theorem flatMap_bitsOf_length (w : Nat) (is : List Nat) : (is.flatMap (bitsOf w)).length = w * is.length := by
  simp [List.length_flatMap, Nat.mul_comm]

/-- The bytes of R162 are the whole 8-bit pieces of the bits of the indices. -/
theorem blockBytes_map_byte (w : Nat) (is : List Nat) :
    (blockBytes w is).map Item.byte = (wholePieces 8 (is.flatMap (bitsOf w))).map byteItem := by
  rw [blockBytes, wholePieces, flatMap_bitsOf_length, List.map_map]
  rfl

/-! ### The characters of a stream -/

/-- From `s` to `t` a DEC stream of block length `blk` absorbed the bits `bits`, counted `n` characters and responded
`OK` to `k` commands. -/
structure Absorbs (blk : Nat) (bits : List Bool) (n k : Nat) (s t : State) : Prop where
  out : t.out = s.out ++ (wholePieces 8 (s.acc.held ++ bits)).map byteItem
  held : t.acc.held = trailingBits 8 (s.acc.held ++ bits)
  count : t.blkCount.toNat = (s.blkCount.toNat + n) % blk
  lut : t.lut = s.lut
  responses : t.responses = s.responses ++ allOk k

theorem Absorbs.trans {blk n n' k k' : Nat} {bits bits' : List Bool} {s t u : State} (h : Absorbs blk bits n k s t)
    (h' : Absorbs blk bits' n' k' t u) : Absorbs blk (bits ++ bits') (n + n') (k + k') s u := by
  obtain ⟨hwhole, htrailing⟩ := wholePieces_append (w := 8) (by decide) (s.acc.held ++ bits) bits'
  rw [← h.held, List.append_assoc] at hwhole htrailing
  refine ⟨?_, by rw [h'.held, htrailing], ?_, h'.lut.trans h.lut, ?_⟩
  · rw [h'.out, h.out, hwhole, List.map_append, List.append_assoc]
  · rw [h'.count, h.count, Nat.mod_add_mod, Nat.add_assoc]
  · rw [h'.responses, h.responses, List.append_assoc, allOk, allOk, List.replicate_append_replicate]
    rfl

section Run

variable {r : Bank} {strict : Bool} {s : State} {w blk : Nat}

/-- Less than a byte is held: it has no whole piece. -/
theorem DecOpen.no_whole_piece (h : DecOpen r strict s) (hw : Config.blockParams r = some (w, blk)) :
    wholePieces 8 s.acc.held = [] ∧ trailingBits 8 s.acc.held = s.acc.held := by
  have hzero : s.acc.held.length / 8 = 0 := by
    rw [Acc.held_length]
    exact Nat.div_eq_of_lt (h.bounds hw).1
  rw [wholePieces, trailingBits, hzero, Nat.zero_mul]
  exact ⟨rfl, rfl⟩

/-- A character that is no data symbol absorbs no bits: it may be counted, and nothing else. -/
theorem DecOpen.absorbs_nothing (h : DecOpen r strict s) (hw : Config.blockParams r = some (w, blk)) (n : Nat) :
    Absorbs blk [] n 1 s
      { s with toBlock := s.setBlk ((s.blkCount.toNat + n) % blk), responses := responded s .ok } := by
  obtain ⟨hwhole, htrailing⟩ := h.no_whole_piece hw
  obtain ⟨-, hblk⟩ := h.bounds hw
  have hfit := (Nat.mod_lt (s.blkCount.toNat + n) (Nat.zero_lt_of_lt hblk)).trans_le (blockParams_le hw).2
  exact ⟨by simp [hwhole], by rw [List.append_nil, htrailing]; rfl, Nat.mod_eq_of_lt hfit, rfl, rfl⟩

/-- A data symbol absorbs the bits of its index and is counted (R160, R162). -/
theorem DecOpen.absorbs_symbol (h : DecOpen r strict s) (hw : Config.blockParams r = some (w, blk)) {i : Nat}
    (hi : i < 2 ^ w) : Absorbs blk (bitsOf w i) 1 1 s
      { s with
        toBlock := s.afterSymbol blk (accDrain (accPush s.acc i w) 8)
        responses := responded s .ok } := by
  obtain ⟨-, hblk⟩ := h.bounds hw
  have hfit := (Nat.mod_lt (s.blkCount.toNat + 1) (Nat.zero_lt_of_lt hblk)).trans_le (blockParams_le hw).2
  have hpush := h.inv.acc_bounded.push hi (h.room hw)
  have hheld := held_accPush h.inv.acc_bounded.2 hi (h.room hw)
  have hacc : (s.afterSymbol blk (accDrain (accPush s.acc i w) 8)).acc = (accDrain (accPush s.acc i w) 8).2 :=
    (hpush.drain 8).acc_setAcc s.toBlock
  refine ⟨?_, ?_, Nat.mod_eq_of_lt hfit, rfl, rfl⟩
  · rw [← hheld, ← accDrain_indices (by decide)]
    rfl
  · rw [← hheld, ← held_accDrain (by decide) hpush.2]
    exact congrArg Acc.held hacc

/-- A character that the stream takes: its bits are absorbed and it is counted, if it is a data symbol or a pad
character; else the stream is permissive and nothing happens. -/
theorem exec_decSym_absorbs (h : DecOpen r strict s) (hw : Config.blockParams r = some (w, blk)) {c : Ch}
    (hc : scalarValue c = true) (hknown : strict = true → Known s.toBlock r c) :
    ∃ t, exec (.decSym c) s = .next t ∧ DecOpen r strict t ∧
      Absorbs blk (symbolBits s.toBlock r w [c]) (countedChars s.toBlock r [c]) 1 s t := by
  cases hi : symbolIndex s.toBlock r c with
  | some i =>
    have hexec := exec_decSym_symbol h hw hc hi
    obtain ⟨-, hlt, -⟩ := symbolIndex_eq_some_iff.1 hi
    rw [symbolBits_singleton, hi, countedChars_singleton, if_pos (.inl (by rw [hi]; rfl))]
    exact ⟨_, hexec, h.of_exec hexec rfl rfl rfl rfl, h.absorbs_symbol hw (bankLen_eq_two_pow hw ▸ hlt)⟩
  | none =>
    by_cases hpad : c = Config.pad
    · have hexec := exec_decSym_pad h hw hc hi hpad
      rw [symbolBits_singleton, hi, countedChars_singleton, if_pos (.inr hpad)]
      exact ⟨_, hexec, h.of_exec hexec rfl rfl rfl rfl, h.absorbs_nothing hw 1⟩
    · have hunknown : ¬Known s.toBlock r c := by simp [Known, hi, hpad]
      obtain rfl : strict = false := by simpa [hunknown] using hknown
      have hexec := exec_decSym_skip h hw hc hi hpad
      have hkeep : s.setBlk ((s.blkCount.toNat + 0) % blk) = s.toBlock := by
        rw [Nat.add_zero, Nat.mod_eq_of_lt (h.bounds hw).2, Block.setBlk, BitVec.ofNat_toNat, BitVec.setWidth_eq]
      have habs := h.absorbs_nothing hw 0
      rw [hkeep] at habs
      rw [symbolBits_singleton, hi, countedChars_singleton, if_neg hunknown]
      exact ⟨_, hexec, h.of_exec hexec rfl rfl rfl rfl, habs⟩

/-- The characters of a text that the stream takes are absorbed one after another. -/
theorem execAll_decText_absorbs {cs : List Ch} (h : DecOpen r strict s) (hw : Config.blockParams r = some (w, blk))
    (hcs : ∀ c ∈ cs, scalarValue c = true) (hknown : strict = true → ∀ c ∈ cs, Known s.toBlock r c) :
    ∃ t, execAll (pseudoDecText cs) s = .next t ∧ DecOpen r strict t ∧
      Absorbs blk (symbolBits s.toBlock r w cs) (countedChars s.toBlock r cs) cs.length s t := by
  induction cs generalizing s with
  | nil =>
    obtain ⟨hwhole, htrailing⟩ := h.no_whole_piece hw
    have hbits : s.acc.held ++ symbolBits s.toBlock r w [] = s.acc.held := List.append_nil _
    refine ⟨s, rfl, h, by simp [hbits, hwhole], by rw [hbits, htrailing], ?_, rfl, (List.append_nil _).symm⟩
    exact (Nat.mod_eq_of_lt (h.bounds hw).2).symm
  | cons c cs ih =>
    obtain ⟨hc, hcs⟩ := List.forall_mem_cons.1 hcs
    obtain ⟨t, hexec, hopen, habs⟩ := exec_decSym_absorbs h hw hc fun hs => hknown hs c List.mem_cons_self
    obtain ⟨u, hrun, hopen', habs'⟩ := ih hopen hcs fun hs c' hc' => by
      rw [Known, symbolIndex_congr habs.lut]
      exact hknown hs c' (List.mem_cons_of_mem c hc')
    refine ⟨u, (execAll_cons hexec _).trans hrun, hopen', ?_⟩
    rw [symbolBits, symbolIndices, countedChars, symbolIndex_congr habs.lut] at habs'
    rw [symbolBits_cons, countedChars_cons, List.length_cons, Nat.add_comm cs.length]
    exact habs.trans habs'

end Run

/-! ### Faults -/

/-- A faulted block refuses every command that is not a system command, and stays faulted (R223). -/
theorem execAll_faulted {is : List Instr} (his : ∀ i ∈ is, legalPhase i ≠ none) {s : State} (he : s.err ≠ none) :
    ∃ t, execAll is s = .next t ∧ t.err ≠ none := by
  induction is generalizing s with
  | nil => exact ⟨s, rfl, he⟩
  | cons i is ih =>
    obtain ⟨hi, his⟩ := List.forall_mem_cons.1 his
    obtain ⟨p, hp⟩ := Option.ne_none_iff_exists'.1 hi
    have hexec : exec i s = .next { s with responses := responded s .refused } := by
      rw [exec_of_legalPhase hp, runCommand_faulted he]
      rfl
    rw [execAll_cons hexec]
    exact ih his he

theorem faultState_err (c : Cause) (i : Instr) (s : State) : (faultState c i s).err ≠ none := nofun

theorem legalPhase_decText (cs : List Ch) : ∀ i ∈ pseudoDecText cs ++ [.decEnd], legalPhase i ≠ none :=
  List.forall_mem_append.2 ⟨List.forall_mem_map.2 fun _ _ => nofun, List.forall_mem_singleton.2 nofun⟩

/-- A strict stream faults at its first unknown character, and the rest of it is refused. -/
theorem execAll_decText_unknown {r : Bank} {s : State} {w blk : Nat} {cs : List Ch} (h : DecOpen r true s)
    (hw : Config.blockParams r = some (w, blk)) (hcs : ∀ c ∈ cs, scalarValue c = true)
    (hunknown : ∃ c ∈ cs, ¬Known s.toBlock r c) :
    ∃ t, execAll (pseudoDecText cs ++ [.decEnd]) s = .next t ∧ t.err ≠ none := by
  induction cs generalizing s with
  | nil => simp at hunknown
  | cons c cs ih =>
    obtain ⟨hc, hcs⟩ := List.forall_mem_cons.1 hcs
    by_cases hknown : Known s.toBlock r c
    · obtain ⟨t, hexec, hopen, habs⟩ := exec_decSym_absorbs h hw hc fun _ => hknown
      obtain ⟨u, hrun, herr⟩ := ih hopen hcs (by
        simpa only [Known, symbolIndex_congr habs.lut, List.exists_mem_cons_iff, hknown, not_true, false_or]
          using hunknown)
      exact ⟨u, (execAll_cons hexec _).trans hrun, herr⟩
    · obtain ⟨hi, hpad⟩ := not_or.1 hknown
      have hexec := exec_decSym_invalid h hw hc (by simpa using hi) hpad
      obtain ⟨t, hrun, herr⟩ := execAll_faulted (legalPhase_decText cs) (faultState_err _ _ _)
      exact ⟨t, (execAll_cons hexec _).trans hrun, herr⟩

/-! ### Whole streams -/

/-- The stream that DEC.START opens: nothing held, nothing counted, the alphabets and `out` as they were. -/
theorem exec_decStart_open {s : State} (h : BlockInv s.toBlock) (hs : ReadyIn .idle s) {b : Bank} {w blk : Nat}
    (hw : Config.blockParams b = some (w, blk)) (strict : Bool) (hv : s.bankValid b = true) :
    ∃ t, exec (.decStart b strict) s = .next t ∧ DecOpen b strict t ∧ t.acc = ⟨0, 0⟩ ∧
      t.blkCount = 0#3 ∧ t.lut = s.lut ∧ t.out = s.out ∧ t.responses = responded s .ok :=
  have hb : b = .r32 ∨ b = .r64 := (blockParams_eq_some hw).imp And.left And.left
  have hexec := exec_decStart hs hb strict hv
  ⟨_, hexec, ⟨exec_keeps h hexec, hs.1, rfl, rfl, rfl⟩, rfl, rfl, rfl, rfl, rfl⟩

/-- A whole stream is its first command, its characters and its last command. -/
theorem execAll_decStream {s t u : State} {b : Bank} {strict : Bool} {cs : List Ch}
    (hstart : exec (.decStart b strict) s = .next t) (hrest : execAll (pseudoDecText cs ++ [.decEnd]) t = .next u) :
    execAll (decStream b strict cs) s = .next u := by
  rw [decStream, List.cons_append, execAll_cons hstart, hrest]

section Stream

variable {s : State} {b : Bank} {w blk : Nat} {strict : Bool} {cs : List Ch}

/-- A stream whose characters are all taken, up to DEC.END: its whole bytes are out, and what is held and counted is what
the two tests of R163 look at. -/
theorem execAll_decStream_text (hinv : BlockInv s.toBlock) (hs : ReadyIn .idle s)
    (hw : Config.blockParams b = some (w, blk)) (hv : s.bankValid b = true) (hcs : ∀ c ∈ cs, scalarValue c = true)
    (hknown : strict = true → ∀ c ∈ cs, Known s.toBlock b c) :
    ∃ t, (∀ u, exec .decEnd t = .next u → execAll (decStream b strict cs) s = .next u) ∧ DecOpen b strict t ∧
      t.bitCount.toNat = w * (symbolIndices s.toBlock b cs).length % 8 ∧
      t.blkCount.toNat = countedChars s.toBlock b cs % blk ∧
      t.out = s.out ++ (blockBytes w (symbolIndices s.toBlock b cs)).map Item.byte ∧
      t.responses = s.responses ++ [.ok] ++ allOk cs.length := by
  obtain ⟨t, hstart, hopen, hempty, hblk, hlut, hout, hresp⟩ := exec_decStart_open hinv hs hw strict hv
  have hfind := symbolIndex_congr hlut b
  obtain ⟨u, hrun, hopen', habs⟩ := execAll_decText_absorbs hopen hw hcs (by simpa only [Known, hfind] using hknown)
  rw [symbolBits, symbolIndices, countedChars, hfind] at habs
  have hheld : t.acc.held = [] := by rw [hempty]; rfl
  refine ⟨u, fun v hv => ?_, hopen', ?_, ?_, ?_, ?_⟩
  · exact execAll_decStream hstart ((execAll_append hrun _).trans (execAll_cons hv []))
  · have hlen := congrArg List.length habs.held
    rwa [hheld, List.nil_append, Acc.held_length, trailingBits, List.length_drop, ← Nat.mod_eq_sub_div_mul,
      flatMap_bitsOf_length] at hlen
  · rw [habs.count, hblk, BitVec.toNat_ofNat, Nat.zero_mod, Nat.zero_add]
    rfl
  · rw [habs.out, hout, hheld, List.nil_append, blockBytes_map_byte]
    rfl
  · rw [habs.responses, hresp]

/-- A stream that meets the conditions of R163 ends `OK` with the bytes of R162. -/
theorem execAll_decStream_ok (hinv : BlockInv s.toBlock) (hs : ReadyIn .idle s)
    (hw : Config.blockParams b = some (w, blk)) (hv : s.bankValid b = true) (hcs : ∀ c ∈ cs, scalarValue c = true)
    (hends : EndsOk s.toBlock b w blk strict cs) :
    ∃ t, execAll (decStream b strict cs) s = .next t ∧ t.err = none ∧ t.phase = .idle ∧
      t.out = s.out ++ (blockBytes w (symbolIndices s.toBlock b cs)).map Item.byte ∧
      t.responses = s.responses ++ allOk (cs.length + 2) := by
  obtain ⟨hknown, hleft, hwhole⟩ := hends
  obtain ⟨t, hrun, hopen, hcnt, hblk, hout, hresp⟩ := execAll_decStream_text hinv hs hw hv hcs hknown
  have hend := exec_decEnd_ok hopen.err hopen.phase (hopen.radix ▸ hw) (hcnt.trans_lt hleft)
    (BitVec.eq_of_toNat_eq (hblk.trans hwhole))
  exact ⟨_, hrun _ hend, hopen.err, rfl, hout, by rw [responded, hresp, responses_stream]⟩

/-- A stream that fails one of the conditions of R163 ends faulted. -/
theorem execAll_decStream_faults (hinv : BlockInv s.toBlock) (hs : ReadyIn .idle s)
    (hw : Config.blockParams b = some (w, blk)) (hv : s.bankValid b = true) (hcs : ∀ c ∈ cs, scalarValue c = true)
    (hends : ¬EndsOk s.toBlock b w blk strict cs) :
    ∃ t, execAll (decStream b strict cs) s = .next t ∧ t.err ≠ none := by
  by_cases hknown : strict = true → ∀ c ∈ cs, Known s.toBlock b c
  · obtain ⟨t, hrun, hopen, hcnt, hblk, -⟩ := execAll_decStream_text hinv hs hw hv hcs hknown
    have hbad : w ≤ t.bitCount.toNat ∨ t.blkCount ≠ 0#3 := by
      by_contra hgood
      obtain ⟨hleft, hzero⟩ := not_or.1 hgood
      rw [not_not] at hzero
      exact hends ⟨hknown, hcnt ▸ not_le.1 hleft, by rw [← hblk, hzero]; rfl⟩
    exact ⟨_, hrun _ (exec_decEnd_malformed hopen.err hopen.phase (hopen.radix ▸ hw) hbad), faultState_err _ _ _⟩
  · push Not at hknown
    obtain ⟨rfl, hunknown⟩ := hknown
    obtain ⟨t, hstart, hopen, -, -, hlut, -⟩ := exec_decStart_open hinv hs hw true hv
    obtain ⟨u, hrun, herr⟩ := execAll_decText_unknown hopen hw hcs
      (by simpa only [Known, symbolIndex_congr hlut, not_or] using hunknown)
    exact ⟨u, execAll_decStream hstart hrun, herr⟩

end Stream

/-- Settles O35: the stream ends `OK` with its bytes under the conditions of R163, and faulted otherwise. -/
theorem decStreamEmitsTheBytes : Obligations.DecStreamEmitsTheBytes := by
  intro s b w blk strict cs hinv hs hw hv hcs find idx counted
  by_cases hends : EndsOk s.toBlock b w blk strict cs
  · obtain ⟨t, hrun, herr, hphase, hout, -⟩ := execAll_decStream_ok hinv hs hw hv hcs hends
    exact ⟨t, hrun, iff_of_true herr hends, fun _ => ⟨hphase, hout⟩⟩
  · obtain ⟨t, hrun, herr⟩ := execAll_decStream_faults hinv hs hw hv hcs hends
    exact ⟨t, hrun, iff_of_false herr hends, fun h => absurd h herr⟩

end Sys2Proof.Machine
end

section
/-! The round trip of radix 32 and 64 (43_symbol_absorber.md R164): the text of a byte string, read back through a bank of
different characters without the pad character, is the chunks of the bytes, and their bits are those of the bytes. -/

namespace Sys2Proof.Machine

/-! ### Bits, chunks and bytes -/

theorem valueOf_concat (bits : List Bool) (b : Bool) : valueOf (bits ++ [b]) = 2 * valueOf bits + b.toNat := by
  simp [valueOf]

theorem valueOf_lt (bits : List Bool) : valueOf bits < 2 ^ bits.length := by
  induction bits using List.reverseRecOn with
  | nil => decide
  | append_singleton bits b ih =>
    have hb := b.toNat_le
    rw [valueOf_concat, List.length_append, List.length_singleton, Nat.pow_succ]
    omega

/-- The bits of the number that a string is are the string. -/
theorem bitsOf_valueOf (bits : List Bool) : bitsOf bits.length (valueOf bits) = bits := by
  induction bits using List.reverseRecOn with
  | nil => rfl
  | append_singleton bits b ih =>
    have hhigh : (2 * valueOf bits + b.toNat) / 2 ^ 1 = valueOf bits := by
      have hb := b.toNat_le
      omega
    have hlow : bitsOf 1 (2 * valueOf bits + b.toNat) = [b] := by
      cases b <;> simp [bitsOf, Nat.testBit_zero]
    rw [valueOf_concat, List.length_append, List.length_singleton, bitsOf_add, hhigh, hlow, ih]

/-- Whole pieces, written out as bits again, are the string they were cut from. -/
theorem pieces_flatMap_bitsOf {w n : Nat} {bits : List Bool} (h : bits.length = n * w) :
    (pieces w n bits).flatMap (bitsOf w) = bits := by
  induction n generalizing bits with
  | zero => rw [Nat.zero_mul, List.length_eq_zero_iff] at h; rw [h]; rfl
  | succ n ih =>
    rw [Nat.succ_mul] at h
    have htake : (bits.take w).length = w := List.length_take_of_le (by omega)
    have hfirst := bitsOf_valueOf (bits.take w)
    rw [htake] at hfirst
    rw [Nat.add_comm, pieces_add, pieces_one, Nat.one_mul, List.singleton_append, List.flatMap_cons, hfirst,
      ih (by rw [List.length_drop]; omega), List.take_append_drop]

theorem pieces_lt {w n : Nat} {bits : List Bool} : ∀ i ∈ pieces w n bits, i < 2 ^ w :=
  List.forall_mem_map.2 fun _ _ =>
    (valueOf_lt _).trans_le (Nat.pow_le_pow_right (by decide) (List.length_take_le _ _))

/-- The 8-bit pieces of the bits of bytes are the bytes. -/
theorem pieces_byteBits (bs : List Byte) : (pieces 8 bs.length (byteBits bs)).map (BitVec.ofNat 8) = bs := by
  induction bs with
  | nil => rfl
  | cons b bs ih =>
    have hbits : byteBits (b :: bs) = bitsOf 8 b.toNat ++ byteBits bs := List.flatMap_cons
    have hvalue : valueOf (bitsOf 8 b.toNat) = b.toNat := by rw [valueOf_bitsOf, Nat.mod_eq_of_lt b.isLt]
    rw [List.length_cons, Nat.add_comm, pieces_add, pieces_one, Nat.one_mul, hbits, List.take_left' (bitsOf_length _ _),
      List.drop_left' (bitsOf_length _ _), hvalue, List.map_append, ih]
    simp

/-- The chunks of `n` bytes hold the bits of the bytes and fewer than `w` more (R163). -/
theorem symbolCount_bits {w : Nat} (hw : 1 ≤ w) (hw8 : w ≤ 8) (n : Nat) :
    w * symbolCount w n / 8 = n ∧ w * symbolCount w n % 8 < w := by
  have hsplit := Nat.div_add_mod (8 * n + w - 1) w
  have hmod := Nat.mod_lt (8 * n + w - 1) hw
  have hbytes : w * symbolCount w n / 8 = n := by rw [symbolCount]; omega
  refine ⟨hbytes, ?_⟩
  rw [symbolCount] at hbytes ⊢
  omega

/-- Decoding the chunks of bytes gives the bytes: the bits that fill the last chunk make no byte (R139, R162). -/
theorem blockBytes_blockIndices {w : Nat} (hw : 1 ≤ w) (hw8 : w ≤ 8) (bs : List Byte) :
    blockBytes w (blockIndices w bs) = bs := by
  obtain ⟨hbytes, -⟩ := symbolCount_bits hw hw8 bs.length
  have hfill : (byteBits bs ++ List.replicate (symbolCount w bs.length * w - 8 * bs.length) false).length =
      symbolCount w bs.length * w := by
    rw [List.length_append, List.length_replicate, byteBits_length, Nat.mul_comm (symbolCount w _)]
    omega
  have hfits : bs.length * 8 ≤ (byteBits bs).length := by rw [byteBits_length]; omega
  rw [blockBytes, blockIndices_length, hbytes, blockIndices, pieces_flatMap_bitsOf hfill, pieces_append_right hfits,
    pieces_byteBits]

/-! ### The text read back through the bank -/

theorem blockParams_width {r : Bank} {w blk : Nat} (hw : Config.blockParams r = some (w, blk)) : 1 ≤ w ∧ w ≤ 8 := by
  rcases blockParams_eq_some hw with ⟨-, rfl, -⟩ | ⟨-, rfl, -⟩ <;> decide

section Text

variable {s : Block} {b : Bank} {w blk : Nat}

theorem symbolIndex_lutAt (hd : DistinctBank s b) {i : Nat} (hi : i < Config.bankLen b) :
    symbolIndex s b (lutAt s b i) = some i :=
  symbolIndex_eq_some_iff.2 ⟨rfl, hi, fun j hj hat => hj.ne (hd j (hj.trans hi) i hi hat)⟩

theorem blockIndices_lt (hw : Config.blockParams b = some (w, blk)) (bs : List Byte) :
    ∀ i ∈ blockIndices w bs, i < Config.bankLen b :=
  fun i hi => bankLen_eq_two_pow hw ▸ pieces_lt i hi

/-- A character of a text is a symbol of the bank or the pad character. -/
theorem mem_blockText {c : Ch} {bs : List Byte} (hc : c ∈ blockText w blk (lutAt s b) bs) :
    (∃ i ∈ blockIndices w bs, lutAt s b i = c) ∨ c = Config.pad := by
  rcases List.mem_append.1 hc with h | h
  · exact .inl (List.mem_map.1 h)
  · exact .inr (List.eq_of_mem_replicate h)

theorem blockText_known (hd : DistinctBank s b) (hw : Config.blockParams b = some (w, blk)) (bs : List Byte) :
    ∀ c ∈ blockText w blk (lutAt s b) bs, Known s b c := by
  intro c hc
  rcases mem_blockText hc with ⟨i, hi, rfl⟩ | rfl
  · exact .inl (by rw [symbolIndex_lutAt hd (blockIndices_lt hw bs i hi)]; rfl)
  · exact .inr rfl

/-- Every character of a text is a scalar value, as the characters of a bank are (R122). -/
theorem blockText_scalar (hlut : LutInv s) (hv : s.bankValid b = true) (hw : Config.blockParams b = some (w, blk))
    (bs : List Byte) : ∀ c ∈ blockText w blk (lutAt s b) bs, scalarValue c = true := by
  intro c hc
  rcases mem_blockText hc with ⟨i, hi, rfl⟩ | rfl
  · exact hlut.isScalar_of_mem (mem_of_lutEntry (lutEntry_of_valid hlut hv (blockIndices_lt hw bs i hi)))
  · decide

/-- The data symbols of a text are the chunks of the bytes; the pad characters are none. -/
theorem symbolIndices_blockText (hd : DistinctBank s b) (hpad : PadFree s b)
    (hw : Config.blockParams b = some (w, blk)) (bs : List Byte) :
    symbolIndices s b (blockText w blk (lutAt s b) bs) = blockIndices w bs := by
  have hnone : symbolIndex s b Config.pad = none := symbolIndex_eq_none_iff.2 hpad
  have hsome : (blockIndices w bs).filterMap (symbolIndex s b ∘ lutAt s b) = (blockIndices w bs).filterMap some :=
    List.filterMap_congr fun i hi => symbolIndex_lutAt hd (blockIndices_lt hw bs i hi)
  rw [symbolIndices, blockText, List.filterMap_append, List.filterMap_map, hsome, List.filterMap_some,
    List.filterMap_replicate_of_none hnone, List.append_nil]

theorem countedChars_of_known {cs : List Ch} (h : ∀ c ∈ cs, Known s b c) : countedChars s b cs = cs.length := by
  rw [countedChars, List.filter_eq_self.2 (by simpa [Known] using h)]

/-- A stream of the text of bytes ends `OK`, strict or permissive (R163, R164). -/
theorem endsOk_blockText (hd : DistinctBank s b) (hpad : PadFree s b) (hw : Config.blockParams b = some (w, blk))
    (strict : Bool) (bs : List Byte) : EndsOk s b w blk strict (blockText w blk (lutAt s b) bs) := by
  have hknown := blockText_known hd hw bs
  refine ⟨fun _ => hknown, ?_, ?_⟩
  · rw [symbolIndices_blockText hd hpad hw, blockIndices_length]
    obtain ⟨hw1, hw8⟩ := blockParams_width hw
    exact (symbolCount_bits hw1 hw8 _).2
  · rw [countedChars_of_known hknown, blockText_length]
    rcases blockParams_eq_some hw with ⟨-, -, rfl⟩ | ⟨-, -, rfl⟩ <;> omega

end Text

/-! ### The two streams -/

theorem execAll_cons_next {i : Instr} {is : List Instr} {s t : State} (h : execAll (i :: is) s = .next t) :
    ∃ u, exec i s = .next u ∧ execAll is u = .next t := by
  unfold execAll at h
  split at h
  · next u hu => exact ⟨u, hu, h⟩
  · cases h
  · cases h

theorem execAll_keeps {is : List Instr} {s t : State} (h : BlockInv s.toBlock) (he : execAll is s = .next t) :
    BlockInv t.toBlock := by
  induction is generalizing s with
  | nil => cases he; exact h
  | cons i is ih =>
    obtain ⟨u, hu, hrest⟩ := execAll_cons_next he
    exact ih (exec_keeps h hu) hrest

/-- A run without LUTCLR and LUTAPP leaves the alphabets as they are (R52). -/
theorem execAll_sameAlphabets {is : List Instr} (his : ∀ i ∈ is, (∀ b, i ≠ .lutclr b) ∧ ∀ b c, i ≠ .lutapp b c)
    {s t : State} (he : execAll is s = .next t) : SameAlphabets s.toBlock t.toBlock := by
  induction is generalizing s with
  | nil => cases he; exact ⟨rfl, rfl, rfl, rfl, rfl⟩
  | cons i is ih =>
    obtain ⟨⟨hclr, happ⟩, his⟩ := List.forall_mem_cons.1 his
    obtain ⟨u, hu, hrest⟩ := execAll_cons_next he
    obtain hsame | ⟨-, ⟨b, rfl, -⟩ | ⟨b, c, rfl, -⟩⟩ := exec_alphabets hu
    · rw [sameAlphabets_iff] at hsame ⊢
      obtain ⟨hlut, hlen⟩ := sameAlphabets_iff.1 (ih his hrest)
      exact ⟨hlut.trans hsame.1, fun b => (hlen b).trans (hsame.2 b)⟩
    · exact absurd rfl (hclr b)
    · exact absurd rfl (happ b c)

theorem encStream_sameAlphabets {b : Bank} {bs : List Byte} {s t : State}
    (he : execAll (encStream b bs) s = .next t) : t.lut = s.lut ∧ ∀ b', t.len b' = s.len b' := by
  have hstream : ∀ i ∈ encStream b bs, (∀ b, i ≠ .lutclr b) ∧ ∀ b c, i ≠ .lutapp b c := by
    simp only [encStream, pseudoEncBytes, List.forall_mem_append, List.forall_mem_cons, List.forall_mem_map]
    exact ⟨⟨⟨nofun, nofun⟩, fun _ _ => ⟨nofun, nofun⟩⟩, ⟨nofun, nofun⟩, nofun⟩
  exact sameAlphabets_iff.1 (execAll_sameAlphabets hstream he)

/-- Settles O36: the text that the ENC stream emits meets the conditions of R163, and its data symbols are the chunks of
the bytes. -/
theorem decOfEncIsTheInput : Obligations.DecOfEncIsTheInput := by
  intro s b strict bs hinv hs hb hv hd hpad
  obtain ⟨w, blk, hw⟩ : ∃ w blk, Config.blockParams b = some (w, blk) := by
    rcases hb with rfl | rfl <;> exact ⟨_, _, rfl⟩
  obtain ⟨t, hrun, herr, hphase, hout, -⟩ := encStreamEmitsTheText s b w blk bs hinv hs hw hv
  obtain ⟨hlut, hlen⟩ := encStream_sameAlphabets hrun
  have hinv' := execAll_keeps hinv hrun
  have hv' : t.bankValid b = true := by rwa [Block.bankValid, hlen b]
  have hat := lutAt_congr hlut b
  rw [DistinctBank, ← hat] at hd
  rw [PadFree, ← hat] at hpad
  rw [← hat] at hout
  obtain ⟨u, hrun', -, -, hout', hresp⟩ := execAll_decStream_ok hinv' ⟨herr, hphase⟩ hw hv'
    (blockText_scalar hinv'.lutInv hv' hw bs) (endsOk_blockText hd hpad hw strict bs)
  obtain ⟨hw1, hw8⟩ := blockParams_width hw
  rw [symbolIndices_blockText hd hpad hw, blockBytes_blockIndices hw1 hw8] at hout'
  exact ⟨t, _, u, hrun, hout, hrun', hout', hresp⟩

end Sys2Proof.Machine
end

section
/-! The base-5 digits of the numeral encoder (44_numeral_encoder.md R176): how many there are, and what number they
are. -/

namespace Sys2Proof.Machine

/-! ### The length of a numeral -/

theorem le_numeralLenFrom (fuel l v : Nat) : l ≤ numeralLenFrom fuel l v := by
  induction fuel generalizing l with
  | zero => exact le_rfl
  | succ fuel ih =>
    unfold numeralLenFrom
    split_ifs
    · exact le_rfl
    · exact (Nat.le_succ l).trans (ih (l + 1))

/-- The search ends at a length that is enough when the last one it may try is. -/
theorem lt_pow_numeralLenFrom {fuel l v : Nat} (h : v < Config.numRadix ^ (l + fuel)) :
    v < Config.numRadix ^ numeralLenFrom fuel l v := by
  induction fuel generalizing l with
  | zero => exact h
  | succ fuel ih =>
    unfold numeralLenFrom
    split_ifs with hl
    · exact hl
    · exact ih (by rwa [Nat.succ_add_eq_add_succ])

theorem one_le_numeralLen (v : Nat) : 1 ≤ numeralLen v := le_numeralLenFrom v 1 v

theorem lt_pow_numeralLen (v : Nat) : v < Config.numRadix ^ numeralLen v := by
  have hv : v < Config.numRadix ^ v := Nat.lt_pow_self (by decide)
  exact lt_pow_numeralLenFrom (hv.trans_le (Nat.pow_le_pow_right (by decide) (Nat.le_add_left v 1)))

/-- No shorter length is enough (R176). -/
theorem numeralLen_le {v l : Nat} (hl : 1 ≤ l) (hv : v < Config.numRadix ^ l) : numeralLen v ≤ l :=
  numeralLenFrom_le hv hl

theorem digits5_length (v : Nat) : (digits5 v).length = numeralLen v := by simp [digits5]

/-! ### The number that digits are -/

theorem numeralValue_concat (ds : List Nat) (d : Nat) : numeralValue (ds ++ [d]) = numeralValue ds * 5 + d :=
  List.foldl_concat ..

/-- `n` base-5 places of a number that fits them are the number: all places but the last are those of its quotient. -/
theorem numeralValue_places {n v : Nat} (hv : v < Config.numRadix ^ n) :
    numeralValue ((List.range n).map fun i => v / Config.numRadix ^ (n - 1 - i) % Config.numRadix) = v := by
  induction n generalizing v with
  | zero => exact (Nat.lt_one_iff.1 hv).symm
  | succ n ih =>
    have hplace : ∀ i ∈ List.range n, v / Config.numRadix ^ (n + 1 - 1 - i) % Config.numRadix =
        v / Config.numRadix / Config.numRadix ^ (n - 1 - i) % Config.numRadix := fun i hi => by
      rw [List.mem_range] at hi
      rw [Nat.div_div_eq_div_mul, ← Nat.pow_succ', show (n - 1 - i).succ = n + 1 - 1 - i by omega]
    have hhigh : v / Config.numRadix < Config.numRadix ^ n :=
      Nat.div_lt_of_lt_mul (by rwa [← Nat.pow_succ'])
    rw [List.range_succ, List.map_append, List.map_congr_left hplace, List.map_singleton, numeralValue_concat, ih hhigh,
      Nat.add_sub_cancel, Nat.sub_self, Nat.pow_zero, Nat.div_one]
    exact Nat.div_add_mod' v 5

theorem numeralValue_digits5 (v : Nat) : numeralValue (digits5 v) = v := numeralValue_places (lt_pow_numeralLen v)

theorem digits5_ne_nil (v : Nat) : digits5 v ≠ [] := by
  rw [← List.length_pos_iff, digits5_length]
  exact one_le_numeralLen v

/-- The first digit counts the highest power of 5 that is not above the number. -/
theorem digits5_head? (v : Nat) : (digits5 v).head? = some (v / Config.numRadix ^ (numeralLen v - 1)) := by
  obtain ⟨n, hn⟩ := Nat.exists_eq_add_of_le' (one_le_numeralLen v)
  have hfits : v / Config.numRadix ^ n < Config.numRadix :=
    Nat.div_lt_of_lt_mul (by rw [← Nat.pow_succ, Nat.succ_eq_add_one, ← hn]; exact lt_pow_numeralLen v)
  simp [digits5, hn, List.range_succ_eq_map, Nat.mod_eq_of_lt hfits]

/-- There is no leading zero: a shorter length is not enough. -/
theorem digits5_head?_ne_zero {v : Nat} (hv : v ≠ 0) : (digits5 v).head? ≠ some 0 := by
  have hle : Config.numRadix ^ (numeralLen v - 1) ≤ v := by
    by_contra hlt
    rcases Nat.eq_zero_or_pos (numeralLen v - 1) with hzero | hpos
    · rw [hzero, Nat.pow_zero] at hlt
      omega
    · have hmin := numeralLen_le hpos (not_le.1 hlt)
      omega
  have hpos := Nat.div_pos hle (Nat.pow_pos (by decide))
  rw [digits5_head?, ne_eq, Option.some_inj]
  exact hpos.ne'

/-- Settles O37: the digits are the places of the number, and their count is the least that is enough for it. -/
theorem digits5AreTheBase5Digits : Obligations.Digits5AreTheBase5Digits := by
  intro v
  rw [digits5_length]
  refine ⟨fun d => digits5_lt, numeralValue_digits5 v, one_le_numeralLen v, lt_pow_numeralLen v,
    fun l => numeralLen_le, digits5_head?_ne_zero, rfl, fun hmax => ?_⟩
  exact numeralLen_le (by decide) (hmax.trans_lt (by decide))

end Sys2Proof.Machine
end

section
/-! The numeral encoder's commands (44_numeral_encoder.md R178 to R180): what each answers, NUM.SCALAR in a stream that
is open and meets the invariant. -/

namespace Sys2Proof.Machine

/-- NUM.START of a valid bank 3 opens a stream with no scalar encoded. -/
theorem exec_numStart {s : State} (hs : ReadyIn .idle s) (hv : s.bankValid .six = true) :
    exec .numStart s = .next
      { s with numPend := false, radix := .six, phase := .num, responses := responded s .ok } := by
  obtain ⟨he, hp⟩ := hs
  exact exec_done rfl he hp (by rw [effectOf, hv]; rfl)

/-- Settles O38: the body of NUM.START refuses an alphabet of the wrong size, else it opens the stream. -/
theorem numStartOpensTheStream : Obligations.NumStartOpensTheStream := by
  refine ⟨rfl, fun s he => ⟨exec_outOfPhase rfl he, fun hp hlen => ?_, fun hp hlen => ?_⟩⟩
  · exact exec_raise rfl he hp (by rw [effectOf, bankValid_eq_false hlen]; rfl)
  · exact exec_numStart ⟨he, hp⟩ ((Block.bankValid_eq_true _ _).2 hlen)

/-- An unfaulted NUM stream is open and the block meets its invariant. -/
structure NumOpen (s : State) : Prop where
  inv : BlockInv s.toBlock
  err : s.err = none
  phase : s.phase = .num

/-- The numeral of a scalar value leaves, behind the delimiter but for the first of its stream (R179). -/
theorem exec_numScalar {s : State} (h : NumOpen s) {c : Ch} (hc : scalarValue c = true) :
    exec (.numScalar c) s = .next
      { s with
        numPend := true
        out := s.out ++ (numeralIndices s.numPend c.toNat).map fun d => .char (lutAt s.toBlock .six d)
        responses := responded s .ok } := by
  have hlookup : lutEntries s.lut .six (numeralIndices s.numPend c.toNat) =
      .ok ((numeralIndices s.numPend c.toNat).map (lutAt s.toBlock .six)) :=
    lutEntries_ok fun i hi =>
      have hlt := numeralIndices_lt _ _ i hi
      ⟨hlt, h.inv.lutInv.written_of_valid (h.inv.six_valid (.inl h.phase)) hlt⟩
  have hbody := exec_done (i := .numScalar c) rfl h.err h.phase
    (by rw [effectOf, isScalar_eq_scalarValue, hc, hlookup, whenOk_ok]; rfl)
  rw [hbody, emitChars, List.map_map]
  rfl

/-- Settles O39: the body of NUM.SCALAR checks its operand; every index of a numeral is in the valid bank 3, so the
look-up gives its characters. -/
theorem numScalarEmitsTheNumeral : Obligations.NumScalarEmitsTheNumeral := by
  refine ⟨fun c => by rw [encode, toNat_append_eq]; rfl,
    fun s c he => ⟨exec_outOfPhase rfl he, fun hp hbad => ?_, fun hp hc hinv => ?_⟩⟩
  · exact exec_raise rfl he hp (by rw [effectOf, isScalar_eq_scalarValue, hbad]; rfl)
  · exact exec_numScalar ⟨hinv, he, hp⟩ hc

theorem exec_numEnd {s : State} (he : s.err = none) (hp : s.phase = .num) : exec .numEnd s = .next
    { s with numPend := false, phase := .idle, responses := responded s .ok } := exec_done rfl he hp rfl

/-- Settles O40: the body of NUM.END writes `numPend` and PHASE. -/
theorem numEndClosesTheStream : Obligations.NumEndClosesTheStream :=
  ⟨rfl, fun _ he => ⟨exec_outOfPhase rfl he, exec_numEnd he⟩⟩

end Sys2Proof.Machine
end

section
/-! Whole NUM streams (44_numeral_encoder.md R181): the run of the NUM.SCALAR commands by induction over the payload,
between NUM.START and NUM.END. -/

namespace Sys2Proof.Machine

/-- The indices that the scalars of a stream emit one after another, the first of them behind a delimiter when a scalar
came before it (R179). -/
def numeralsFrom : Bool → List Nat → List Nat
  | _, [] => []
  | pend, v :: vs => numeralIndices pend v ++ numeralsFrom true vs

theorem payloadIndices_cons (v : Nat) {vs : List Nat} (hne : vs ≠ []) :
    payloadIndices (v :: vs) = digits5 v ++ [Config.delim] ++ payloadIndices vs := by
  rw [payloadIndices]
  exact hne

/-- A delimiter before every scalar but the first is one between every two neighbours (R181). -/
theorem numeralsFrom_false (vs : List Nat) : numeralsFrom false vs = payloadIndices vs := by
  induction vs using payloadIndices.induct with
  | case1 => rfl
  | case2 v => exact List.append_nil _
  | case3 v vs hne ih =>
    obtain ⟨w, ws, rfl⟩ := List.exists_cons_of_ne_nil hne
    rw [payloadIndices_cons v hne, ← ih, List.append_assoc]
    rfl

/-- The scalars of a payload leave as their numerals. -/
theorem execAll_numScalars {ss : List Ch} (hss : ∀ c ∈ ss, scalarValue c = true) {s : State} (h : NumOpen s) :
    ∃ t, execAll (pseudoNumScalars ss) s = .next t ∧ NumOpen t ∧
      t.out = s.out ++ (numeralsFrom s.numPend (ss.map BitVec.toNat)).map (fun d => .char (lutAt s.toBlock .six d)) ∧
      t.responses = s.responses ++ allOk ss.length := by
  induction ss generalizing s with
  | nil => exact ⟨s, rfl, h, by simp [numeralsFrom], by simp [allOk]⟩
  | cons c cs ih =>
    obtain ⟨hc, hcs⟩ := List.forall_mem_cons.1 hss
    have hexec := exec_numScalar h hc
    obtain ⟨t, hrun, hopen, hout, hresp⟩ := ih hcs ⟨exec_keeps h.inv hexec, h.err, h.phase⟩
    refine ⟨t, (execAll_cons hexec _).trans hrun, hopen, ?_, ?_⟩
    · rw [hout, List.map_cons, numeralsFrom, List.map_append, List.append_assoc]
      rfl
    · rw [hresp, List.length_cons, ← responses_allOk_succ]

/-- Settles O41: the stream opens with no scalar encoded, so its first numeral leaves without a delimiter. -/
theorem numStreamEmitsThePayload : Obligations.NumStreamEmitsThePayload := by
  intro s ss hinv hs hv hss
  have hstart := exec_numStart hs hv
  obtain ⟨t, hrun, hopen, hout, hresp⟩ := execAll_numScalars hss ⟨exec_keeps hinv hstart, hs.1, rfl⟩
  have hend := execAll_cons (exec_numEnd hopen.err hopen.phase) []
  have hstream := (execAll_cons hstart _).trans ((execAll_append hrun _).trans hend)
  refine ⟨_, hstream, hopen.err, rfl, hout.trans ?_, ?_⟩
  · rw [numeralsFrom_false]
    rfl
  · rw [responded, hresp, responses_stream]

end Sys2Proof.Machine
end

section
/-! The groups of a string of symbol indices (45_numeral_decoder.md R197): splitting at the delimiters, and the values
of the groups. -/

namespace Sys2Proof.Machine

/-- No index of the list is the delimiter. -/
def DelimFree (ds : List Nat) : Prop := ∀ d ∈ ds, d ≠ Config.delim

theorem DelimFree.concat {ds : List Nat} (h : DelimFree ds) {d : Nat} (hd : d ≠ Config.delim) :
    DelimFree (ds ++ [d]) :=
  List.forall_mem_append.2 ⟨h, List.forall_mem_singleton.2 hd⟩

theorem delimFree_digits5 (v : Nat) : DelimFree (digits5 v) := fun _ hd => (digits5_lt hd).ne

theorem splitGroups_append_delim {ds : List Nat} (h : DelimFree ds) (is : List Nat) :
    splitGroups (ds ++ Config.delim :: is) = ds :: splitGroups is := by
  induction ds with
  | nil => simp [splitGroups]
  | cons d ds ih =>
    obtain ⟨hd, hds⟩ := List.forall_mem_cons.1 h
    rw [List.cons_append, splitGroups, if_neg hd, ih hds]

theorem splitGroups_of_delimFree {ds : List Nat} (h : DelimFree ds) : splitGroups ds = [ds] := by
  induction ds with
  | nil => rfl
  | cons d ds ih =>
    obtain ⟨hd, hds⟩ := List.forall_mem_cons.1 h
    rw [splitGroups, if_neg hd, ih hds]

/-- What a group yields when it closes: its value, or nothing when it is empty (R195). -/
def groupYield (ds : List Nat) : List Nat := if ds.isEmpty then [] else [numeralValue ds]

theorem groupYield_of_ne_nil {ds : List Nat} (h : ds ≠ []) : groupYield ds = [numeralValue ds] :=
  if_neg (by simpa using h)

theorem groupValues_append_delim {ds : List Nat} (h : DelimFree ds) (is : List Nat) :
    groupValues (ds ++ Config.delim :: is) = groupYield ds ++ groupValues is := by
  rw [groupValues, splitGroups_append_delim h]
  cases ds <;> rfl

theorem groupValues_of_delimFree {ds : List Nat} (h : DelimFree ds) : groupValues ds = groupYield ds := by
  rw [groupValues, splitGroups_of_delimFree h]
  cases ds <;> rfl

/-- The value of a group never decreases as digits are added (R193): one of the values is at least that of the digits
read so far. -/
theorem exists_le_mem_groupValues {ds : List Nat} (h : DelimFree ds) (hne : ds ≠ []) (is : List Nat) :
    ∃ v ∈ groupValues (ds ++ is), numeralValue ds ≤ v := by
  induction is generalizing ds with
  | nil =>
    rw [List.append_nil, groupValues_of_delimFree h, groupYield_of_ne_nil hne]
    exact ⟨_, List.mem_singleton_self _, le_rfl⟩
  | cons i is ih =>
    by_cases hi : i = Config.delim
    · rw [hi, groupValues_append_delim h, groupYield_of_ne_nil hne]
      exact ⟨_, List.mem_cons_self, le_rfl⟩
    · obtain ⟨v, hv, hle⟩ := ih (h.concat hi) (by simp)
      rw [← List.append_cons] at hv
      rw [numeralValue_concat] at hle
      exact ⟨v, hv, by omega⟩

/-- The groups of a payload are its numerals, and their values its numbers (R182). -/
theorem groupValues_payloadIndices (vs : List Nat) : groupValues (payloadIndices vs) = vs := by
  have hyield (v : Nat) : groupYield (digits5 v) = [v] := by
    rw [groupYield_of_ne_nil (digits5_ne_nil v), numeralValue_digits5]
  induction vs using payloadIndices.induct with
  | case1 => rfl
  | case2 v => rw [payloadIndices, groupValues_of_delimFree (delimFree_digits5 v), hyield]
  | case3 v vs hne ih =>
    rw [payloadIndices_cons v hne, ← List.append_cons, groupValues_append_delim (delimFree_digits5 v), hyield, ih]
    rfl

end Sys2Proof.Machine
end

section
/-! The numeral decoder's commands in a stream that goes well (45_numeral_decoder.md R191 to R195): a digit is added to
the open group, the delimiter and the last command close it. -/

namespace Sys2Proof.Machine

/-- NUMD.START of a valid bank 3 opens a stream with an empty group. -/
theorem exec_numdStart {s : State} (hs : ReadyIn .idle s) (hv : s.bankValid .six = true) :
    exec .numdStart s = .next
      { s with nval := 0#21, nhave := false, radix := .six, phase := .numd, responses := responded s .ok } := by
  obtain ⟨he, hp⟩ := hs
  exact exec_done rfl he hp (by rw [effectOf, hv]; rfl)

/-- The open group holds a surrogate value, so it cannot close (R195). -/
abbrev HoldsSurrogate (s : Block) : Prop := s.nhave = true ∧ 0xD800 ≤ s.nval.toNat ∧ s.nval.toNat ≤ 0xDFFF

/-- The block after its group closed: the value left, if there was one, and the next group is empty (R195). -/
def Block.groupClosed (s : Block) : Block :=
  { emit (if s.nhave then [.scalar s.nval] else []) s with nval := 0#21, nhave := false }

theorem closeGroup_ok {s : Block} (h : ¬HoldsSurrogate s) : closeGroup s = .done s.groupClosed := if_neg h

/-- The block after a digit (R192). -/
def Block.withDigit (s : Block) (i : Nat) : Block :=
  { s with nval := BitVec.ofNat 21 (s.nval.toNat * 5 + i), nhave := true }

theorem absorbDigit_ok {s : Block} {i : Nat} (h : s.nval.toNat * 5 + i ≤ 0x10FFFF) :
    absorbDigit i s = .done (s.withDigit i) := if_neg (not_lt.2 h)

theorem exec_numdEnd_ok {s : State} (he : s.err = none) (hp : s.phase = .numd) (h : ¬HoldsSurrogate s.toBlock) :
    exec .numdEnd s = .next
      { s with toBlock := { s.groupClosed with phase := .idle }, responses := responded s .ok } :=
  exec_done rfl he hp (by rw [effectOf, numdEndBody, closeGroup_ok h])

/-- An unfaulted NUMD stream is open and the block meets its invariant. -/
structure NumdOpen (s : State) : Prop where
  inv : BlockInv s.toBlock
  err : s.err = none
  phase : s.phase = .numd

section Streams

variable {s : State} {c : Ch}

/-- A command that leaves ERR and PHASE alone keeps the stream open. -/
theorem NumdOpen.of_exec {i : Instr} {u : Block} {rs : List Response} (h : NumdOpen s)
    (hexec : exec i s = .next { s with toBlock := u, responses := rs }) (herr : u.err = s.err)
    (hphase : u.phase = s.phase) : NumdOpen { s with toBlock := u, responses := rs } :=
  ⟨exec_keeps h.inv hexec, herr.trans h.err, hphase.trans h.phase⟩

/-- The body of NUMD.SYM for a scalar value, once it is looked up in the valid bank 3. -/
theorem NumdOpen.effectOf_numdSym (h : NumdOpen s) (hc : scalarValue c = true) :
    effectOf (.numdSym c) s.toBlock = numdSymBody (symbolIndex s.toBlock .six c) s.toBlock := by
  rw [effectOf, isScalar_eq_scalarValue, hc, rev_eq_find h.inv.lutInv (h.inv.six_valid (.inr h.phase))]
  rfl

theorem exec_numdSym_delim (h : NumdOpen s) (hc : scalarValue c = true)
    (hi : symbolIndex s.toBlock .six c = some Config.delim) (hclose : ¬HoldsSurrogate s.toBlock) :
    exec (.numdSym c) s = .next { s with toBlock := s.groupClosed, responses := responded s .ok } :=
  exec_done rfl h.err h.phase (by rw [h.effectOf_numdSym hc, hi, numdSymBody, if_pos rfl, closeGroup_ok hclose])

theorem exec_numdSym_digit (h : NumdOpen s) (hc : scalarValue c = true) {i : Nat}
    (hi : symbolIndex s.toBlock .six c = some i) (hdigit : i ≠ Config.delim)
    (hmax : s.nval.toNat * 5 + i ≤ 0x10FFFF) :
    exec (.numdSym c) s = .next { s with toBlock := s.withDigit i, responses := responded s .ok } :=
  exec_done rfl h.err h.phase (by rw [h.effectOf_numdSym hc, hi, numdSymBody, if_neg hdigit, absorbDigit_ok hmax])

end Streams

end Sys2Proof.Machine
end

section
/-! Whole NUMD streams that go well (45_numeral_decoder.md R197), by induction over the text, and the round trip of the
numeral codec (44_numeral_encoder.md R182). -/

namespace Sys2Proof.Machine

/-! ### The open group -/

/-- The digits of the open group are `ds`: their value is in `nval`, and `nhave` says whether there are any (R31). -/
structure HoldsGroup (ds : List Nat) (s : Block) : Prop where
  delimFree : DelimFree ds
  nval : s.nval.toNat = numeralValue ds
  nhave : s.nhave = !ds.isEmpty

/-- The value of a group as the item it leaves as. -/
def scalarItem (v : Nat) : Item := .scalar (BitVec.ofNat 21 v)

section Group

variable {ds : List Nat} {s : Block}

theorem HoldsGroup.empty (hval : s.nval = 0#21) (hhave : s.nhave = false) : HoldsGroup [] s :=
  ⟨nofun, by rw [hval]; rfl, hhave⟩

theorem HoldsGroup.not_surrogate (h : HoldsGroup ds s) (hscalar : ∀ v ∈ groupYield ds, isScalar v = true) :
    ¬HoldsSurrogate s := by
  rintro ⟨hhave, hsurr⟩
  rw [h.nhave] at hhave
  rw [h.nval] at hsurr
  have hmem : numeralValue ds ∈ groupYield ds := by simp [groupYield_of_ne_nil (ds := ds) (by simpa using hhave)]
  exact ((isScalar_iff _).1 (hscalar _ hmem)).2 hsurr

theorem HoldsGroup.groupClosed_out (h : HoldsGroup ds s) :
    s.groupClosed.out = s.out ++ (groupYield ds).map scalarItem := by
  have hval : s.nval = BitVec.ofNat 21 (numeralValue ds) := by rw [← h.nval, BitVec.ofNat_toNat, BitVec.setWidth_eq]
  rw [Block.groupClosed, emit_out, h.nhave, hval]
  cases ds <;> rfl

theorem HoldsGroup.withDigit (h : HoldsGroup ds s) {i : Nat} (hdigit : i ≠ Config.delim)
    (hmax : s.nval.toNat * 5 + i ≤ 0x10FFFF) : HoldsGroup (ds ++ [i]) (s.withDigit i) := by
  refine ⟨h.delimFree.concat hdigit, ?_, by simp [Block.withDigit]⟩
  rw [numeralValue_concat, ← h.nval]
  exact Nat.mod_eq_of_lt (hmax.trans_lt (by decide))

end Group

/-! ### Whole streams -/

/-- From `s` the characters `cs` and the last command run to `t`: the stream closes, `vs` leaves as scalars, and every
command responds `OK`. -/
structure FinishesNumd (cs : List Ch) (vs : List Nat) (s t : State) : Prop where
  run : execAll (pseudoNumdText cs ++ [.numdEnd]) s = .next t
  err : t.err = none
  phase : t.phase = .idle
  out : t.out = s.out ++ vs.map scalarItem
  responses : t.responses = s.responses ++ allOk cs.length ++ [.ok]

/-- A command that responds `OK` before the rest of a stream. -/
theorem FinishesNumd.cons {c : Ch} {cs : List Ch} {vs vs' : List Nat} {s t u : State}
    (hexec : exec (.numdSym c) s = .next t) (hout : t.out = s.out ++ vs.map scalarItem)
    (hresp : t.responses = responded s .ok) (h : FinishesNumd cs vs' t u) : FinishesNumd (c :: cs) (vs ++ vs') s u where
  run := (execAll_cons hexec _).trans h.run
  err := h.err
  phase := h.phase
  out := by rw [h.out, hout, List.map_append, List.append_assoc]
  responses := by rw [h.responses, hresp, List.length_cons, ← responses_allOk_succ]

/-- The rest of a stream with the digits `ds` in the open group. The text is read on to the values of the groups that
`ds` and its own indices make, when every character is a symbol of the bank and every value is a scalar value. -/
theorem finishesNumd {cs : List Ch} {ds : List Nat} {s : State} (h : NumdOpen s) (hgroup : HoldsGroup ds s.toBlock)
    (hcs : ∀ c ∈ cs, scalarValue c = true) (hknown : ∀ c ∈ cs, (symbolIndex s.toBlock .six c).isSome = true)
    (hvalues : ∀ v ∈ groupValues (ds ++ symbolIndices s.toBlock .six cs), isScalar v = true) :
    ∃ t, FinishesNumd cs (groupValues (ds ++ symbolIndices s.toBlock .six cs)) s t := by
  induction cs generalizing ds s with
  | nil =>
    rw [show symbolIndices s.toBlock .six [] = [] from rfl, List.append_nil, groupValues_of_delimFree hgroup.delimFree]
      at hvalues ⊢
    have hend := exec_numdEnd_ok h.err h.phase (hgroup.not_surrogate hvalues)
    refine ⟨_, execAll_cons hend [], h.err, rfl, hgroup.groupClosed_out, ?_⟩
    simp [allOk]
  | cons c cs ih =>
    obtain ⟨hc, hcs⟩ := List.forall_mem_cons.1 hcs
    obtain ⟨hcknown, hknown⟩ := List.forall_mem_cons.1 hknown
    obtain ⟨i, hi⟩ := Option.isSome_iff_exists.1 hcknown
    rw [symbolIndices, List.filterMap_cons_some hi, ← symbolIndices] at hvalues ⊢
    by_cases hdelim : i = Config.delim
    · subst hdelim
      rw [groupValues_append_delim hgroup.delimFree] at hvalues ⊢
      obtain ⟨hyield, hvalues⟩ := List.forall_mem_append.1 hvalues
      have hexec := exec_numdSym_delim h hc hi (hgroup.not_surrogate hyield)
      obtain ⟨t, ht⟩ := ih (h.of_exec hexec rfl rfl) (.empty rfl rfl) hcs hknown hvalues
      exact ⟨t, ht.cons hexec hgroup.groupClosed_out rfl⟩
    · rw [List.append_cons] at hvalues ⊢
      have hmax : s.nval.toNat * 5 + i ≤ 0x10FFFF := by
        obtain ⟨v, hv, hle⟩ := exists_le_mem_groupValues (hgroup.delimFree.concat hdelim) (by simp) _
        rw [numeralValue_concat, ← hgroup.nval] at hle
        exact hle.trans ((isScalar_iff v).1 (hvalues v hv)).1
      have hexec := exec_numdSym_digit h hc hi hdelim hmax
      obtain ⟨t, ht⟩ := ih (h.of_exec hexec rfl rfl) (hgroup.withDigit hdelim hmax) hcs hknown hvalues
      exact ⟨t, ht.cons (vs := []) hexec (List.append_nil _).symm rfl⟩

/-- A whole stream of symbols of the bank whose groups are scalar values ends `OK` with them (R197). -/
theorem execAll_numdStream_ok {s : State} (hinv : BlockInv s.toBlock) (hs : ReadyIn .idle s)
    (hv : s.bankValid .six = true) {cs : List Ch} (hcs : ∀ c ∈ cs, scalarValue c = true)
    (hknown : ∀ c ∈ cs, (symbolIndex s.toBlock .six c).isSome = true)
    (hvalues : ∀ v ∈ groupValues (symbolIndices s.toBlock .six cs), isScalar v = true) :
    ∃ t, execAll (numdStream cs) s = .next t ∧ t.err = none ∧ t.phase = .idle ∧
      t.out = s.out ++ (groupValues (symbolIndices s.toBlock .six cs)).map scalarItem ∧
      t.responses = s.responses ++ allOk (cs.length + 2) := by
  have hstart := exec_numdStart hs hv
  obtain ⟨t, ht⟩ := finishesNumd ⟨exec_keeps hinv hstart, hs.1, rfl⟩ (.empty rfl rfl) hcs hknown hvalues
  refine ⟨t, (execAll_cons hstart _).trans ht.run, ht.err, ht.phase, ht.out, ?_⟩
  rw [ht.responses, responses_stream]

/-! ### The round trip -/

theorem payloadIndices_lt (vs : List Nat) : ∀ i ∈ payloadIndices vs, i < Config.bankLen .six := by
  rw [← numeralsFrom_false]
  generalize false = pend
  induction vs generalizing pend with
  | nil => nofun
  | cons v vs ih => exact List.forall_mem_append.2 ⟨numeralIndices_lt pend v, ih true⟩

/-- Indices of a bank of different characters are read back from their characters. -/
theorem symbolIndices_map_lutAt {s : Block} {b : Bank} (hd : DistinctBank s b) {is : List Nat}
    (his : ∀ i ∈ is, i < Config.bankLen b) : symbolIndices s b (is.map (lutAt s b)) = is := by
  have hsome : is.filterMap (symbolIndex s b ∘ lutAt s b) = is.filterMap some :=
    List.filterMap_congr fun i hi => symbolIndex_lutAt hd (his i hi)
  rw [symbolIndices, List.filterMap_map, hsome, List.filterMap_some]

theorem numStream_sameAlphabets {ss : List Ch} {s t : State} (he : execAll (numStream ss) s = .next t) :
    t.lut = s.lut ∧ ∀ b, t.len b = s.len b := by
  have hstream : ∀ i ∈ numStream ss, (∀ b, i ≠ .lutclr b) ∧ ∀ b c, i ≠ .lutapp b c := by
    simp only [numStream, pseudoNumScalars, List.forall_mem_append, List.forall_mem_cons, List.forall_mem_map]
    exact ⟨⟨⟨nofun, nofun⟩, fun _ _ => ⟨nofun, nofun⟩⟩, ⟨nofun, nofun⟩, nofun⟩
  exact sameAlphabets_iff.1 (execAll_sameAlphabets hstream he)

/-- Settles O42: the characters of the payload are read back to its indices, and the groups of those are its scalars. -/
theorem numdOfNumIsTheInput : Obligations.NumdOfNumIsTheInput := by
  intro s ss hinv hs hv hd hss
  obtain ⟨t, hrun, herr, hphase, hout, -⟩ := numStreamEmitsThePayload s ss hinv hs hv hss
  obtain ⟨hlut, hlen⟩ := numStream_sameAlphabets hrun
  have hinv' := execAll_keeps hinv hrun
  have hv' : t.bankValid .six = true := by rwa [Block.bankValid, hlen]
  have hat := lutAt_congr hlut .six
  rw [DistinctBank, ← hat] at hd
  have hlt := payloadIndices_lt (ss.map BitVec.toNat)
  have hread := symbolIndices_map_lutAt hd hlt
  have hvalues := groupValues_payloadIndices (ss.map BitVec.toNat)
  obtain ⟨u, hrun', -, -, hout', hresp⟩ := execAll_numdStream_ok hinv' ⟨herr, hphase⟩ hv'
    (cs := (payloadIndices (ss.map BitVec.toNat)).map (lutAt t.toBlock .six))
    (List.forall_mem_map.2 fun i hi =>
      hinv'.lutInv.isScalar_of_mem (mem_of_lutEntry (lutEntry_of_valid hinv'.lutInv hv' (hlt i hi))))
    (List.forall_mem_map.2 fun i hi => by rw [symbolIndex_lutAt hd (hlt i hi)]; rfl)
    (by rw [hread, hvalues]; exact List.forall_mem_map.2 hss)
  refine ⟨t, _, u, hrun, ?_, hrun', ?_, hresp⟩
  · rw [hout, hat, List.map_map]
    rfl
  · rw [hout', hread, hvalues, List.map_map]
    simp [Function.comp_def, scalarItem]

end Sys2Proof.Machine
end

section
/-! The numeral decoder's commands (45_numeral_decoder.md R191 to R195): how each of them faults, and what each answers
in every case. -/

namespace Sys2Proof.Machine

/-! ### Faults of the open group -/

theorem closeGroup_surrogate {s : Block} (h : HoldsSurrogate s) : closeGroup s = .raise .outOfRange := if_pos h

theorem absorbDigit_overflow {s : Block} {i : Nat} (h : 0x10FFFF < s.nval.toNat * 5 + i) :
    absorbDigit i s = .raise .outOfRange := if_pos h

theorem exec_numdEnd_surrogate {s : State} (he : s.err = none) (hp : s.phase = .numd) (h : HoldsSurrogate s.toBlock) :
    exec .numdEnd s = .next (faultState .outOfRange .numdEnd s) :=
  exec_raise rfl he hp (by rw [effectOf, numdEndBody, closeGroup_surrogate h])

section Streams

variable {s : State} {c : Ch}

theorem exec_numdSym_absent (h : NumdOpen s) (hc : scalarValue c = true) (hi : symbolIndex s.toBlock .six c = none) :
    exec (.numdSym c) s = .next (faultState .invalidSymbol (.numdSym c) s) :=
  exec_raise rfl h.err h.phase (by rw [h.effectOf_numdSym hc, hi, numdSymBody])

theorem exec_numdSym_surrogate (h : NumdOpen s) (hc : scalarValue c = true)
    (hi : symbolIndex s.toBlock .six c = some Config.delim) (hclose : HoldsSurrogate s.toBlock) :
    exec (.numdSym c) s = .next (faultState .outOfRange (.numdSym c) s) :=
  exec_raise rfl h.err h.phase (by rw [h.effectOf_numdSym hc, hi, numdSymBody, if_pos rfl, closeGroup_surrogate hclose])

theorem exec_numdSym_overflow (h : NumdOpen s) (hc : scalarValue c = true) {i : Nat}
    (hi : symbolIndex s.toBlock .six c = some i) (hdigit : i ≠ Config.delim)
    (hmax : 0x10FFFF < s.nval.toNat * 5 + i) :
    exec (.numdSym c) s = .next (faultState .outOfRange (.numdSym c) s) :=
  exec_raise rfl h.err h.phase
    (by rw [h.effectOf_numdSym hc, hi, numdSymBody, if_neg hdigit, absorbDigit_overflow hmax])

end Streams

/-! ### The three commands -/

/-- Settles O43: the body of NUMD.START refuses an alphabet of the wrong size, else it opens the stream. -/
theorem numdStartOpensTheStream : Obligations.NumdStartOpensTheStream := by
  refine ⟨rfl, fun s he => ⟨exec_outOfPhase rfl he, fun hp hlen => ?_, fun hp hlen => ?_⟩⟩
  · exact exec_raise rfl he hp (by rw [effectOf, bankValid_eq_false hlen]; rfl)
  · exact exec_numdStart ⟨he, hp⟩ ((Block.bankValid_eq_true _ _).2 hlen)

/-- Settles O44: the search of bank 3 tells the delimiter, the digits and all other characters apart; the delimiter
closes the group unless that holds a surrogate, a digit is absorbed unless it passes 0x10FFFF. -/
theorem numdSymAbsorbsTheCharacter : Obligations.NumdSymAbsorbsTheCharacter := by
  refine ⟨fun c => by rw [encode, toNat_append_eq]; rfl,
    fun s c he => ⟨exec_outOfPhase rfl he, fun hp hbad => ?_, fun hp hc hinv => ?_⟩⟩
  · exact exec_raise rfl he hp (by rw [effectOf, isScalar_eq_scalarValue, hbad]; rfl)
  have hs : NumdOpen s := ⟨hinv, he, hp⟩
  refine ⟨fun habsent => exec_numdSym_absent hs hc (symbolIndex_eq_none_iff.2 habsent), fun i hi hat hbefore => ?_⟩
  have hfound : symbolIndex s.toBlock .six c = some i := symbolIndex_eq_some_iff.2 ⟨hat, hi, hbefore⟩
  refine ⟨fun hdelim hsurr => ?_, fun hdelim hclose => ?_, fun hdigit hmax => ?_, fun hdigit hmax => ?_⟩
  · exact exec_numdSym_surrogate hs hc (hfound.trans (congrArg some hdelim)) hsurr
  · exact exec_numdSym_delim hs hc (hfound.trans (congrArg some hdelim)) hclose
  · exact exec_numdSym_overflow hs hc hfound hdigit.ne hmax
  · exact exec_numdSym_digit hs hc hfound hdigit.ne hmax

/-- Settles O45: NUMD.END closes the group unless that holds a surrogate, and the stream with it. -/
theorem numdEndClosesTheLastGroup : Obligations.NumdEndClosesTheLastGroup :=
  ⟨rfl, fun _ he => ⟨exec_outOfPhase rfl he, exec_numdEnd_surrogate he, exec_numdEnd_ok he⟩⟩

end Sys2Proof.Machine
end

section
/-! Whole NUMD streams (45_numeral_decoder.md R197): a stream that ends without a fault has met only symbols of the bank
and only groups that are scalar values, by induction over the text. -/

namespace Sys2Proof.Machine

/-- The rest of a text, read with the digits `ds` in the open group, has symbols of bank 3 only and groups that are
scalar values (R197). -/
def RestOk (s : Block) (ds : List Nat) (cs : List Ch) : Prop :=
  (∀ c ∈ cs, (symbolIndex s .six c).isSome = true) ∧
    ∀ v ∈ groupValues (ds ++ symbolIndices s .six cs), isScalar v = true

section Rest

variable {s : Block} {ds : List Nat} {c : Ch} {cs : List Ch}

theorem restOk_nil (h : DelimFree ds) : RestOk s ds [] ↔ ∀ v ∈ groupYield ds, isScalar v = true := by
  simp [RestOk, symbolIndices, groupValues_of_delimFree h]

theorem restOk_cons_delim (h : DelimFree ds) (hi : symbolIndex s .six c = some Config.delim) :
    RestOk s ds (c :: cs) ↔ (∀ v ∈ groupYield ds, isScalar v = true) ∧ RestOk s [] cs := by
  rw [RestOk, symbolIndices, List.filterMap_cons_some hi, groupValues_append_delim h, List.forall_mem_append,
    List.forall_mem_cons, hi]
  simp only [Option.isSome_some, true_and]
  exact and_left_comm

theorem restOk_cons_digit {i : Nat} (hi : symbolIndex s .six c = some i) :
    RestOk s ds (c :: cs) ↔ RestOk s (ds ++ [i]) cs := by
  rw [RestOk, symbolIndices, List.filterMap_cons_some hi, List.append_cons, List.forall_mem_cons, hi]
  simp only [Option.isSome_some, true_and]
  rfl

/-- A group of a block that meets its invariant yields a scalar value unless it holds a surrogate (R195). -/
theorem HoldsGroup.yield_scalar (h : HoldsGroup ds s) (hinv : BlockInv s) (hclose : ¬HoldsSurrogate s) :
    ∀ v ∈ groupYield ds, isScalar v = true := by
  cases ds with
  | nil => nofun
  | cons d ds =>
    rw [groupYield_of_ne_nil (List.cons_ne_nil d ds), List.forall_mem_singleton, ← h.nval, isScalar_iff]
    exact ⟨hinv.nval_le, fun hsurr => hclose ⟨h.nhave, hsurr⟩⟩

end Rest

theorem legalPhase_numdText (cs : List Ch) : ∀ i ∈ pseudoNumdText cs ++ [.numdEnd], legalPhase i ≠ none :=
  List.forall_mem_append.2 ⟨List.forall_mem_map.2 fun _ _ => nofun, List.forall_mem_singleton.2 nofun⟩

/-- Once a character faults, the rest of the stream is refused. -/
theorem execAll_numdText_of_fault {s : State} {x : Cause} {c : Ch} (cs : List Ch)
    (h : exec (.numdSym c) s = .next (faultState x (.numdSym c) s)) :
    ∃ t, execAll (pseudoNumdText (c :: cs) ++ [.numdEnd]) s = .next t ∧ t.err ≠ none := by
  obtain ⟨t, hrun, herr⟩ := execAll_faulted (legalPhase_numdText cs) (faultState_err _ _ _)
  exact ⟨t, (execAll_cons h _).trans hrun, herr⟩

/-- The rest of a stream that does not meet the condition of R197 ends faulted. -/
theorem execAll_numdText_faults {cs : List Ch} {ds : List Nat} {s : State} (h : NumdOpen s)
    (hgroup : HoldsGroup ds s.toBlock) (hcs : ∀ c ∈ cs, scalarValue c = true) (hrest : ¬RestOk s.toBlock ds cs) :
    ∃ t, execAll (pseudoNumdText cs ++ [.numdEnd]) s = .next t ∧ t.err ≠ none := by
  induction cs generalizing ds s with
  | nil =>
    rw [restOk_nil hgroup.delimFree] at hrest
    have hsurr : HoldsSurrogate s.toBlock := not_not.1 (mt (hgroup.yield_scalar h.inv) hrest)
    exact ⟨_, execAll_cons (exec_numdEnd_surrogate h.err h.phase hsurr) [], faultState_err _ _ _⟩
  | cons c cs ih =>
    obtain ⟨hc, hcs⟩ := List.forall_mem_cons.1 hcs
    cases hi : symbolIndex s.toBlock .six c with
    | none => exact execAll_numdText_of_fault cs (exec_numdSym_absent h hc hi)
    | some i =>
      by_cases hdelim : i = Config.delim
      · subst hdelim
        by_cases hsurr : HoldsSurrogate s.toBlock
        · exact execAll_numdText_of_fault cs (exec_numdSym_surrogate h hc hi hsurr)
        · rw [restOk_cons_delim hgroup.delimFree hi, and_iff_right (hgroup.yield_scalar h.inv hsurr)] at hrest
          have hexec := exec_numdSym_delim h hc hi hsurr
          obtain ⟨t, hrun, herr⟩ := ih (h.of_exec hexec rfl rfl) (.empty rfl rfl) hcs hrest
          exact ⟨t, (execAll_cons hexec _).trans hrun, herr⟩
      · by_cases hmax : s.nval.toNat * 5 + i ≤ 0x10FFFF
        · rw [restOk_cons_digit hi] at hrest
          have hexec := exec_numdSym_digit h hc hi hdelim hmax
          obtain ⟨t, hrun, herr⟩ := ih (h.of_exec hexec rfl rfl) (hgroup.withDigit hdelim hmax) hcs hrest
          exact ⟨t, (execAll_cons hexec _).trans hrun, herr⟩
        · exact execAll_numdText_of_fault cs (exec_numdSym_overflow h hc hi hdelim (not_le.1 hmax))

/-- A whole stream that does not meet the condition of R197 ends faulted. -/
theorem execAll_numdStream_faults {s : State} (hinv : BlockInv s.toBlock) (hs : ReadyIn .idle s)
    (hv : s.bankValid .six = true) {cs : List Ch} (hcs : ∀ c ∈ cs, scalarValue c = true)
    (hrest : ¬RestOk s.toBlock [] cs) : ∃ t, execAll (numdStream cs) s = .next t ∧ t.err ≠ none := by
  have hstart := exec_numdStart hs hv
  obtain ⟨t, hrun, herr⟩ :=
    execAll_numdText_faults ⟨exec_keeps hinv hstart, hs.1, rfl⟩ (.empty rfl rfl) hcs hrest
  exact ⟨t, (execAll_cons hstart _).trans hrun, herr⟩

/-- Settles O46: the stream ends `OK` with the values of its groups under the condition of R197, and faulted
otherwise. -/
theorem numdStreamEmitsTheScalars : Obligations.NumdStreamEmitsTheScalars := by
  intro s cs hinv hs hv hcs find vs
  have hcond : ((∀ c ∈ cs, (find c).isSome = true) ∧ ∀ v ∈ vs, v ≤ 0x10FFFF ∧ ¬(0xD800 ≤ v ∧ v ≤ 0xDFFF)) ↔
      RestOk s.toBlock [] cs := by
    simp only [← isScalar_iff]
    rfl
  rw [hcond]
  by_cases hrest : RestOk s.toBlock [] cs
  · obtain ⟨hknown, hvalues⟩ := hrest
    obtain ⟨t, hrun, herr, hphase, hout, -⟩ := execAll_numdStream_ok hinv hs hv hcs hknown hvalues
    exact ⟨t, hrun, iff_of_true herr ⟨hknown, hvalues⟩, fun _ => ⟨hphase, hout⟩⟩
  · obtain ⟨t, hrun, herr⟩ := execAll_numdStream_faults hinv hs hv hcs hrest
    exact ⟨t, hrun, iff_of_false herr hrest, fun h => absurd h herr⟩

end Sys2Proof.Machine
end

section
/-! The system commands (46_system.md): every system command ends in what its body gives, in any phase, faulted or not
(R205); STATUS as the sum of its shifted fields (R208). -/

namespace Sys2Proof.Machine

/-- The done case of `exec_of_system`, as a next state: neither the phase nor `ERR` is asked (R205). -/
theorem exec_system {i : Instr} (hl : legalPhase i = none) {s : State} {u : Block}
    (hu : effectOf i s.toBlock = .done u) : exec i s = .next { s with toBlock := u, responses := responded s .ok } := by
  obtain ⟨v, hv, hexec⟩ := exec_of_system hl s
  cases hu.symm.trans hv
  exact hexec

/-- A system command that emits one word changes nothing but `out`. -/
theorem exec_system_emit {i : Instr} (hl : legalPhase i = none) {s : State} {w w' : Word}
    (hu : effectOf i s.toBlock = .done (emit [.word w] s.toBlock)) (hw : w = w') :
    exec i s = .next { s with out := s.out ++ [.word w'], responses := responded s .ok } :=
  hw ▸ exec_system hl hu

theorem bitOf_toNat (b : Bool) : (bitOf b).toNat = b.toNat := by cases b <;> rfl

/-- STATUS is an append of fields, so its value is their sum, each shifted by the widths below it (R36, R208). -/
theorem status_toNat (s : Block) : s.status.toNat =
    (errCode s.err).toNat + s.phase.code.toNat * 2 ^ 4 + s.radix.bits.toNat * 2 ^ 7 + s.strict.toNat * 2 ^ 9 +
      s.numPend.toNat * 2 ^ 10 + s.nhave.toNat * 2 ^ 11 + s.blkCount.toNat * 2 ^ 12 + s.bitCount.toNat * 2 ^ 16 := by
  simp only [Block.status, toNat_append_eq, bitOf_toNat, BitVec.toNat_ofNat]
  omega

/-- Settles O47: the body of NOP is done with the block as it was. -/
theorem nopChangesNothing : Obligations.NopChangesNothing :=
  ⟨rfl, fun _ => exec_system rfl rfl⟩

/-- Settles O48: the body of SRST is the soft reset, whose fields are those of reset but for the alphabets and `out`. -/
theorem srstClearsTheRegisters : Obligations.SrstClearsTheRegisters :=
  ⟨rfl, fun _ => exec_system rfl rfl⟩

/-- Settles O49: each body emits one word; that of RDSTAT is the append `status`, that of RDLEN is zero-extended. -/
theorem readCommandsEmitTheRegisters : Obligations.ReadCommandsEmitTheRegisters := by
  refine ⟨⟨rfl, rfl, fun bank => by rw [encode, toNat_append_eq]; rfl⟩, fun s => ⟨?_, ?_, fun bank => ?_⟩⟩
  · have hstatus : s.status = BitVec.ofNat 32 s.status.toNat := by rw [BitVec.ofNat_toNat, BitVec.setWidth_eq]
    exact exec_system_emit rfl rfl (hstatus.trans (congrArg _ (status_toNat _)))
  · exact exec_system_emit rfl rfl rfl
  · exact exec_system_emit rfl rfl (BitVec.ofNat_toNat 32 (s.len bank)).symm

end Sys2Proof.Machine
end

section
/-! One step, by what the host does next (00_scope.md R9; 60_exceptions.md R229, R245; 70_reset_and_hazards.md R250), and
that no step stops in a block that meets the invariant (R259). -/

namespace Sys2Proof.Machine

section Step

variable {s : State} {cmd : Word} {rest : List HostInput}

theorem step_of_nothing (hin : s.input = []) : step s = .next s := by
  simp only [step, takeInput, hin]

theorem step_of_reset (hin : s.input = .reset :: rest) : step s = .next { State.reset with input := rest } := by
  simp only [step, takeInput_of_input_cons hin, assertReset_eq]

theorem step_of_decode_error {e : IllegalWord} (hin : s.input = .command cmd :: rest) (hdec : decode cmd = .error e) :
    step s = onBlock { s with input := rest } (illegalWord cmd) := by
  simp only [step, takeInput_of_input_cons hin, hdec]

theorem illegalWord_unfaulted {b : Block} (he : b.err = none) :
    illegalWord cmd b = .ok (raiseFault .illegalCommand cmd b) := by
  rw [illegalWord, (Block.faulted_eq_false b).2 he]
  rfl

theorem illegalWord_faulted {b : Block} (he : b.err ≠ none) : illegalWord cmd b = .ok (b, .refused) := by
  rw [illegalWord, (Block.faulted_eq_true b).2 he]
  rfl

/-- A faulted block refuses an illegal word like any other (R223). -/
theorem step_of_decode_error_faulted {e : IllegalWord} (hin : s.input = .command cmd :: rest)
    (hdec : decode cmd = .error e) (he : s.err ≠ none) :
    step s = .next { s with input := rest, responses := responded s .refused } := by
  rw [step_of_decode_error hin hdec, onBlock_eq, illegalWord_faulted he, deliver_ok]

end Step

/-- Settles O4: no row selects the word exactly when it does not decode, and an illegal word asks `ERR` alone. -/
theorem stepOnIllegalWord : Obligations.StepOnIllegalWord := by
  intro s cmd rest hin hnone
  obtain ⟨e, hdec⟩ := (decode_error_iff_selects cmd).2 hnone
  refine ⟨fun he => ?_, step_of_decode_error_faulted hin hdec⟩
  rw [step_of_decode_error hin hdec, onBlock_eq, illegalWord_unfaulted he]
  rfl

/-- Settles O5: the step branches on the port before it looks at the block. -/
theorem stepOnResetAndOnNothing : Obligations.StepOnResetAndOnNothing :=
  fun _ => ⟨fun _ => step_of_reset, step_of_nothing⟩

/-! ### Progress (R259) -/

/-- A system command always ends; any other command stops only where its body is stuck, and under the invariant none
is. -/
theorem exec_exists_next {s : State} (h : BlockInv s.toBlock) (i : Instr) : ∃ t, exec i s = .next t := by
  cases hl : legalPhase i with
  | none =>
    obtain ⟨u, -, hexec⟩ := exec_of_system hl s
    exact ⟨_, hexec⟩
  | some p =>
    have hruns (he : s.err = none) (hp : s.phase = p) : (effectOf i s.toBlock).Runs :=
      effectOf_runs h fun q hq => ⟨he, hp.trans (Option.some.inj (hl.symm.trans hq))⟩
    obtain ⟨a, ha⟩ := runCommand_not_stuck (i := i) hruns
    rw [exec_of_legalPhase hl, ha]
    exact ⟨_, rfl⟩

theorem step_exists_next {s : State} (h : BlockInv s.toBlock) : ∃ t, step s = .next t := by
  match hin : s.input with
  | [] => exact ⟨s, step_of_nothing hin⟩
  | .reset :: rest => exact ⟨_, step_of_reset hin⟩
  | .command cmd :: rest =>
    cases hdec : decode cmd with
    | ok i =>
      rw [step_of_decode_ok hin hdec]
      exact exec_exists_next (s := { s with input := rest }) h i
    | error e =>
      rw [step_of_decode_error hin hdec]
      exact ⟨_, rfl⟩

theorem run_succ {s t : State} (h : step s = .next t) (n : Nat) :
    Host.Core.run Sys2Proof.core (n + 1) s = Host.Core.run Sys2Proof.core n t := by
  have hcore : Sys2Proof.core.step s = .next t := h
  simp only [Host.Core.run, hcore]

/-- Settles O60, by induction on the number of steps: a block that meets the invariant reaches a next state, which meets
it again. -/
theorem theBlockNeverStops : Obligations.TheBlockNeverStops := by
  intro s h n
  induction n generalizing s with
  | zero => exact ⟨s, rfl⟩
  | succ n ih =>
    obtain ⟨t, ht⟩ := step_exists_next h
    rw [run_succ ht]
    exact ih t (everyStepKeepsTheInvariant s t h ht)

end Sys2Proof.Machine
end

section
/-! Faults and refusals (60_exceptions.md R220 to R223, R230, R231): what each response says of the command and of the
block, which bodies touch `ERR` and `ERRCMD`, and which reject an operand. -/

namespace Sys2Proof.Machine

/-! ### `ERR` and `ERRCMD` -/

/-- The record of the first fault is the same in both blocks (R32). -/
def SameFaultRecord (s u : Block) : Prop := u.err = s.err ∧ u.errcmd = s.errcmd

@[simp] theorem appendChar_errcmd (b : Bank) (c : Ch) (s : Block) : (appendChar b c s).errcmd = s.errcmd := by
  rw [appendChar_frame]

/-- SRST is the only command whose body writes `ERR` or `ERRCMD`: the faults of the others are written outside it. -/
theorem effectOf_sameFaultRecord {i : Instr} (hi : i ≠ .srst) (s : Block) :
    (effectOf i s).Yields (SameFaultRecord s) := by
  cases i with
  | srst => exact absurd rfl hi
  | encByte b =>
    simp only [effectOf, encByteBody]
    split <;> simp [encByteBlock, encByte85, SameFaultRecord]
  | encEnd =>
    simp only [effectOf, encEndBody]
    split <;> simp [encEndBlock, encEnd85, SameFaultRecord]
  | decSym c =>
    simp only [effectOf, decSymBody, absorbChar, Effect.yields_ite, Effect.yields_raise]
    refine ⟨fun _ => trivial, fun _ => ?_⟩
    split
    · refine Effect.yields_whenOk.2 fun found _ => ?_
      cases found <;> simp [absorbSymbol, SameFaultRecord]
    · simp
  | decEnd =>
    simp only [effectOf, decEndBody]
    split <;> simp [SameFaultRecord]
  | numdSym c =>
    simp only [effectOf, Effect.yields_ite, Effect.yields_raise, Effect.yields_whenOk]
    refine ⟨fun _ => trivial, fun _ found _ => ?_⟩
    cases found <;> simp [numdSymBody, closeGroup, absorbDigit, SameFaultRecord]
  | numdEnd => simp [effectOf, yields_numdEndBody, closeGroup, SameFaultRecord]
  | _ => simp [effectOf, SameFaultRecord]

/-- A command that responds `OK` in an unfaulted block leaves it unfaulted. -/
theorem effectOf_err_none (i : Instr) {s : Block} (he : s.err = none) :
    (effectOf i s).Yields fun u => u.err = none := by
  by_cases hi : i = .srst
  · subst hi
    exact Effect.yields_done.2 rfl
  · exact fun u hu => (effectOf_sameFaultRecord hi s u hu).1.trans he

/-- A faulted block keeps its record under every command but SRST (R223). -/
theorem exec_sameFaultRecord {i : Instr} (hi : i ≠ .srst) {s t : State} (he : s.err ≠ none)
    (h : exec i s = .next t) : SameFaultRecord s.toBlock t.toBlock := by
  obtain ⟨u, r, ha, rfl⟩ := exec_next h
  cases ha with
  | refused => exact ⟨rfl, rfl⟩
  | fault hnone => exact absurd hnone he
  | ok _ hu => exact effectOf_sameFaultRecord hi _ u hu

/-! ### Responses -/

theorem responded_inj {s : State} {r r' : Response} : responded s r = responded s r' ↔ r = r' := by simp

/-- A faulted block refuses a command that is no system command (R223). -/
theorem exec_refused {i : Instr} {s : State} (hl : legalPhase i ≠ none) (he : s.err ≠ none) :
    exec i s = .next { s with responses := responded s .refused } := by
  obtain ⟨p, hp⟩ := Option.ne_none_iff_exists'.1 hl
  rw [exec_of_legalPhase hp, runCommand_faulted he, deliver_ok]

/-- The answer of a command, the same at all ports (R221; log entries 1 and 2). -/
theorem exec_at_ports {i : Instr} {s : State} {u : Block} {r : Response}
    (h : exec i s = .next { s with toBlock := u, responses := responded s r }) (input : List HostInput)
    (responses : List Response) :
    exec i { toBlock := s.toBlock, input := input, responses := responses } =
      .next { toBlock := u, input := input, responses := responses ++ [r] } := by
  obtain ⟨command, hcommand⟩ := exec_eq_onBlock i
  rw [hcommand, onBlock] at h
  obtain ⟨v, r', ha, ht⟩ := deliver_next h
  obtain rfl : u = v := congrArg State.toBlock ht
  obtain rfl : r = r' := responded_inj.1 (congrArg State.responses ht)
  rw [hcommand, onBlock_eq, ha, deliver_ok]

/-- `FAULT` is given exactly by a command that raised: one that responds `OK` keeps an unfaulted block unfaulted. -/
theorem exec_response {i : Instr} {s t : State} (h : exec i s = .next t) :
    ∃ r, t = { s with toBlock := t.toBlock, responses := responded s r } ∧
      (r = .refused ↔ s.err ≠ none ∧ legalPhase i ≠ none) ∧ (r = .fault ↔ s.err = none ∧ t.err ≠ none) := by
  cases hl : legalPhase i with
  | none =>
    obtain ⟨u, hu, hexec⟩ := exec_of_system hl s
    cases hexec.symm.trans h
    exact ⟨.ok, rfl, by simp, by simpa using fun he => effectOf_err_none i he u hu⟩
  | some p =>
    rw [exec_of_legalPhase hl] at h
    obtain ⟨u, r, ha, rfl⟩ := deliver_next h
    refine ⟨r, rfl, ?_⟩
    obtain ⟨he, h⟩ | ⟨he, c, h, -⟩ | ⟨he, -, v, hv, h⟩ := runCommand_ok ha <;> cases h
    · simp [he]
    · simp [he]
    · simp [he, effectOf_err_none i he u hv]

/-- Settles O53: the answer of a command is the block's alone, and the checks of R234 fix its response. -/
theorem everyCommandRespondsOnce : Obligations.EveryCommandRespondsOnce := by
  refine ⟨rfl, fun i s t h => ?_⟩
  obtain ⟨r, ht, hrefused, hfault⟩ := exec_response h
  exact ⟨r, ht, hrefused, hfault, exec_at_ports (ht ▸ h)⟩

/-- Settles O51: of the three ways a next state comes about, only taking a fault responds `FAULT`. -/
theorem faultChangesOnlyErrAndErrcmd : Obligations.FaultChangesOnlyErrAndErrcmd := by
  intro i s t h hresp
  obtain ⟨u, r, ha, rfl⟩ := exec_next h
  obtain rfl : r = .fault := responded_inj.1 hresp
  cases ha with
  | fault he _ c => exact ⟨he, c, rfl⟩

/-- Settles O52: what is not a system command is refused; of the system commands SRST alone has a body that writes
the record. -/
theorem faultedBlockRefuses : Obligations.FaultedBlockRefuses := by
  refine fun s he => ⟨fun cmd rest hin hcmd => ?_, fun t ht hchange => ?_⟩
  · cases hdec : decode cmd with
    | ok i => exact (step_of_decode_ok hin hdec).trans (exec_refused (hcmd i hdec) he)
    | error e => exact step_of_decode_error_faulted hin hdec he
  · have hchanged : ¬SameFaultRecord s.toBlock t.toBlock := fun hsame => hchange.elim (· hsame.1) (· hsame.2)
    match hin : s.input with
    | [] =>
      cases (step_of_nothing hin).symm.trans ht
      exact absurd ⟨rfl, rfl⟩ hchanged
    | .reset :: rest => exact ⟨rest, .inl rfl⟩
    | .command cmd :: rest =>
      cases hdec : decode cmd with
      | error e =>
        cases (step_of_decode_error_faulted hin hdec he).symm.trans ht
        exact absurd ⟨rfl, rfl⟩ hchanged
      | ok i =>
        rw [step_of_decode_ok hin hdec] at ht
        have hsrst : i = .srst := by
          by_contra hi
          exact hchanged (exec_sameFaultRecord hi (s := { s with input := rest }) he ht)
        have hword : cmd = 0x01000000#32 := by rw [← encode_of_decode hdec, hsrst]; rfl
        exact ⟨rest, .inr (hword ▸ rfl)⟩

/-- Settles O55: the phase is asked before the body. -/
theorem commandOutsideItsPhaseFaults : Obligations.CommandOutsideItsPhaseFaults :=
  fun _ _ _ hl he => exec_outOfPhase hl he

/-! ### Excluded operands (R230) -/

/-- In its phase a command takes exactly the fault that its body raises. -/
theorem exec_raise_iff {i : Instr} {p : Phase} {s : State} {c : Cause} (hl : legalPhase i = some p) (hs : ReadyIn p s) :
    exec i s = .next (faultState c i s) ↔ effectOf i s.toBlock = .raise c := by
  obtain ⟨he, hp⟩ := hs
  refine ⟨fun h => ?_, exec_raise hl he hp⟩
  rw [exec_of_legalPhase hl, runCommand_ready he hp] at h
  cases hbody : effectOf i s.toBlock with
  | done u =>
    rw [hbody, deliver_ok] at h
    exact nomatch responded_inj.1 (congrArg State.responses (Host.Outcome.next.inj h))
  | raise c' =>
    rw [hbody] at h
    have herr : some c' = some c := congrArg (fun t : State => t.err) (Host.Outcome.next.inj h)
    rw [Option.some.inj herr]
  | stuck f => rw [hbody] at h; cases h

/-- The body rejects no operand. -/
def Effect.Accepts (e : Effect) : Prop := e ≠ .raise .illegalOperand

@[simp] theorem Effect.accepts_done {u : Block} : (Effect.done u).Accepts := by simp [Effect.Accepts]

@[simp] theorem Effect.accepts_raise {c : Cause} : (Effect.raise c).Accepts ↔ c ≠ .illegalOperand := by
  simp [Effect.Accepts]

@[simp] theorem Effect.accepts_stuck {f : Fault} : (Effect.stuck f).Accepts := by simp [Effect.Accepts]

@[simp] theorem Effect.accepts_ite {c : Prop} [Decidable c] {e e' : Effect} :
    (if c then e else e').Accepts ↔ (c → e.Accepts) ∧ (¬c → e'.Accepts) := by split <;> simp_all

theorem Effect.accepts_whenOk {α : Type} {r : Except Fault α} {k : α → Effect} (hk : ∀ a, (k a).Accepts) :
    (whenOk r k).Accepts := by
  cases r with
  | ok a => exact hk a
  | error f => exact Effect.accepts_stuck

theorem encByteBody_accepts (b : Byte) (s : Block) : (encByteBody b s).Accepts := by
  unfold encByteBody
  split <;> simp [encByteBlock, encByte85, Effect.accepts_whenOk]

theorem encEndBody_accepts (s : Block) : (encEndBody s).Accepts := by
  unfold encEndBody
  split <;> simp [encEndBlock, encEnd85, Effect.accepts_whenOk]

theorem decSymBody_accepts (c : Ch) (s : Block) : (decSymBody c s).Accepts := by
  unfold decSymBody
  split
  · refine Effect.accepts_whenOk fun found => ?_
    cases found with
    | none => simp
    | some i => exact Effect.accepts_whenOk fun a => by simp
  · simp

theorem decEndBody_accepts (s : Block) : (decEndBody s).Accepts := by
  unfold decEndBody
  split <;> simp

theorem closeGroup_accepts (s : Block) : (closeGroup s).Accepts := by simp [closeGroup]

theorem numdSymBody_accepts (found : Option Nat) (s : Block) : (numdSymBody found s).Accepts := by
  cases found <;> simp [numdSymBody, closeGroup_accepts, absorbDigit]

theorem numdEndBody_accepts (s : Block) : (numdEndBody s).Accepts := by
  have h := closeGroup_accepts s
  unfold numdEndBody
  split <;> simp_all

/-- Each body rejects exactly the operands that R230 lists for its command. -/
theorem effectOf_accepts_iff (i : Instr) (s : Block) :
    (effectOf i s).Accepts ↔ i.wellFormed = true ∧ ∀ b x, i = .lutrd b x → x.toNat < (s.len b).toNat := by
  cases i with
  | lutrd b x => simp [effectOf, Instr.wellFormed, Effect.accepts_whenOk]
  | lutapp b c => simp [effectOf, Instr.wellFormed, isScalar_eq_scalarValue]
  | pushbits v w => simp [effectOf, Instr.wellFormed, pushBitsLegal, Nat.one_le_iff_ne_zero]
  | extract w => simp [effectOf, Instr.wellFormed, chunkWidthLegal, Nat.one_le_iff_ne_zero]
  | flush w => simp [effectOf, Instr.wellFormed, chunkWidthLegal, Nat.one_le_iff_ne_zero]
  | encStart b => simp [effectOf, Instr.wellFormed]
  | encByte b => simp [effectOf, Instr.wellFormed, encByteBody_accepts]
  | encEnd => simp [effectOf, Instr.wellFormed, encEndBody_accepts]
  | decStart r strict => cases r <;> simp [effectOf, Instr.wellFormed, Config.blockParams]
  | decSym c => simp [effectOf, Instr.wellFormed, isScalar_eq_scalarValue, decSymBody_accepts]
  | decEnd => simp [effectOf, Instr.wellFormed, decEndBody_accepts]
  | numScalar c => simp [effectOf, Instr.wellFormed, isScalar_eq_scalarValue, Effect.accepts_whenOk]
  | numdSym c =>
    simp [effectOf, Instr.wellFormed, isScalar_eq_scalarValue, Effect.accepts_whenOk, numdSymBody_accepts]
  | numdEnd => simp [effectOf, Instr.wellFormed, numdEndBody_accepts]
  | _ => simp [effectOf, Instr.wellFormed]

/-- Settles O56: the fault of a command in its phase is the one its body raises, and the body accepts exactly the operands
that R230 does not exclude. -/
theorem illegalOperandExactlyWhenExcluded : Obligations.IllegalOperandExactlyWhenExcluded := by
  intro i p s hl hs
  rw [exec_raise_iff hl hs, ← not_iff_not]
  simpa [Effect.Accepts] using effectOf_accepts_iff i s.toBlock

end Sys2Proof.Machine
end
